-- ==== Sys2Proof/Word.lean ====
section
/-! DEFINITION. The words of HZL-CORE: bytes, 32-bit register words, 64-bit counters, and bit strings.
Bit 0 is the least significant bit of a value (00_scope.md R13); no value is signed (R14). -/

namespace Sys2Proof

/-- A byte of MEM, of a bit stream or of a command word (R13). -/
abbrev Byte := BitVec 8

/-- A host-visible register, an address or a command word (10_state.md R23). -/
abbrev Word := BitVec 32

/-- A frequency counter or a tree weight: WEIGHT_BITS = 64 (00_scope.md R11). -/
abbrev Weight := BitVec 64

/-- A bit string, first bit first; `false` is the bit 0 (00_scope.md R13). -/
abbrev Bits := List Bool

end Sys2Proof
end

