-- ==== Sys2Proof/Syntax.lean ====
section
/-! DEFINITION. The command set, one constructor for each row of the opcode map (30_encoding.md R84). Formats I and B
carry the IMM8 field of the word (R80, R82); format N carries nothing. -/

namespace Sys2Proof

/-- A command of HZL-CORE (30_encoding.md R84). -/
inductive Instr where
  | nop
  | bwInit
  | bwPutBit (imm : Byte)
  | bwPutSymbol (imm : Byte)
  | bwFinalize
  | brInit
  | brGetBit
  | encodePayload
  | decodePayload
  | freqClear
  | freqCount
  | freqRead (imm : Byte)
  | treeBuild
  | codeGen
  | codeRead (imm : Byte)
  | treeSerialize
  | treeDeserialize
  | crc32
  | compress
  | decompress
deriving DecidableEq, Repr, Inhabited

end Sys2Proof
end

