-- ==== Sys2Proof/WellFormed.lean ====
section
/-! DEFINITION. Which instruction terms are commands. The only operand with values no command word may carry is the bit
operand of format B, "IMM8 must be 0x00 or 0x01" (30_encoding.md R81). -/

namespace Sys2Proof

/-- The operand check of 30_encoding.md R81: format B takes 0x00 or 0x01, format I any byte, format N nothing. -/
def Instr.wf : Instr → Bool
  | .bwPutBit imm => imm == 0x00 || imm == 0x01
  | .bwPutSymbol _ | .freqRead _ | .codeRead _ => true
  | .nop | .bwInit | .bwFinalize | .brInit | .brGetBit | .encodePayload | .decodePayload | .freqClear | .freqCount
  | .treeBuild | .codeGen | .treeSerialize | .treeDeserialize | .crc32 | .compress | .decompress => true

end Sys2Proof
end

