-- ==== Sys2Proof/Decode.lean ====
section
/-! DEFINITION. The command word's decoder, total and rejecting by name, and its encoder, both from 30_encoding.md
R80 to R86; and the opcode map as mask and match rows (R81, R84). -/

namespace Sys2Proof

/-- The opcodes (30_encoding.md R84). -/
def Op.nop : Byte := 0x00
def Op.bwInit : Byte := 0x10
def Op.bwPutBit : Byte := 0x11
def Op.bwPutSymbol : Byte := 0x12
def Op.bwFinalize : Byte := 0x13
def Op.brInit : Byte := 0x14
def Op.brGetBit : Byte := 0x15
def Op.encodePayload : Byte := 0x16
def Op.decodePayload : Byte := 0x17
def Op.freqClear : Byte := 0x20
def Op.freqCount : Byte := 0x21
def Op.freqRead : Byte := 0x22
def Op.treeBuild : Byte := 0x23
def Op.codeGen : Byte := 0x24
def Op.codeRead : Byte := 0x25
def Op.treeSerialize : Byte := 0x30
def Op.treeDeserialize : Byte := 0x31
def Op.crc32 : Byte := 0x40
def Op.compress : Byte := 0x41
def Op.decompress : Byte := 0x42

/-- Why a word is illegal: the four cases (a) to (d) of 30_encoding.md R85. -/
inductive IllegalWord where
  | unknownOpcode
  | reservedNotZero
  | operandNotZero
  | operandNotBit
deriving DecidableEq, Repr

/-- OP, word[7:0] (30_encoding.md R80). -/
def opField (w : Word) : Byte := w.extractLsb' 0 8

/-- IMM8, word[15:8] (30_encoding.md R80). -/
def immField (w : Word) : Byte := w.extractLsb' 8 8

/-- RSV, word[31:16] (30_encoding.md R80). -/
def rsvField (w : Word) : BitVec 16 := w.extractLsb' 16 16

/-- Format N: IMM8 must be 0x00 (30_encoding.md R81). -/
def formatN (imm : Byte) (i : Instr) : Except IllegalWord Instr :=
  if imm = 0 then .ok i else .error .operandNotZero

/-- Format B: IMM8 must be 0x00 or 0x01 (30_encoding.md R81). -/
def formatB (imm : Byte) (i : Byte → Instr) : Except IllegalWord Instr :=
  if imm = 0 ∨ imm = 1 then .ok (i imm) else .error .operandNotBit

/-- Format I: IMM8 is any byte (30_encoding.md R81). -/
def formatI (imm : Byte) (i : Byte → Instr) : Except IllegalWord Instr := .ok (i imm)

/-- The opcode map (30_encoding.md R84), read by opcode. -/
def decodeOp (op imm : Byte) : Except IllegalWord Instr :=
  if op = Op.nop then formatN imm .nop
  else if op = Op.bwInit then formatN imm .bwInit
  else if op = Op.bwPutBit then formatB imm .bwPutBit
  else if op = Op.bwPutSymbol then formatI imm .bwPutSymbol
  else if op = Op.bwFinalize then formatN imm .bwFinalize
  else if op = Op.brInit then formatN imm .brInit
  else if op = Op.brGetBit then formatN imm .brGetBit
  else if op = Op.encodePayload then formatN imm .encodePayload
  else if op = Op.decodePayload then formatN imm .decodePayload
  else if op = Op.freqClear then formatN imm .freqClear
  else if op = Op.freqCount then formatN imm .freqCount
  else if op = Op.freqRead then formatI imm .freqRead
  else if op = Op.treeBuild then formatN imm .treeBuild
  else if op = Op.codeGen then formatN imm .codeGen
  else if op = Op.codeRead then formatI imm .codeRead
  else if op = Op.treeSerialize then formatN imm .treeSerialize
  else if op = Op.treeDeserialize then formatN imm .treeDeserialize
  else if op = Op.crc32 then formatN imm .crc32
  else if op = Op.compress then formatN imm .compress
  else if op = Op.decompress then formatN imm .decompress
  else .error .unknownOpcode

/-- The command a word stands for, or why it is illegal. Total: every word is one or the other (30_encoding.md R87). -/
def decode (w : Word) : Except IllegalWord Instr :=
  if rsvField w = 0 then decodeOp (opField w) (immField w) else .error .reservedNotZero

/-- The opcode of a command (30_encoding.md R84). -/
def Instr.opcode : Instr → Byte
  | .nop => Op.nop
  | .bwInit => Op.bwInit
  | .bwPutBit _ => Op.bwPutBit
  | .bwPutSymbol _ => Op.bwPutSymbol
  | .bwFinalize => Op.bwFinalize
  | .brInit => Op.brInit
  | .brGetBit => Op.brGetBit
  | .encodePayload => Op.encodePayload
  | .decodePayload => Op.decodePayload
  | .freqClear => Op.freqClear
  | .freqCount => Op.freqCount
  | .freqRead _ => Op.freqRead
  | .treeBuild => Op.treeBuild
  | .codeGen => Op.codeGen
  | .codeRead _ => Op.codeRead
  | .treeSerialize => Op.treeSerialize
  | .treeDeserialize => Op.treeDeserialize
  | .crc32 => Op.crc32
  | .compress => Op.compress
  | .decompress => Op.decompress

/-- The IMM8 field of a command; format N's is 0 (30_encoding.md R81). -/
def Instr.imm8 : Instr → Byte
  | .bwPutBit imm | .bwPutSymbol imm | .freqRead imm | .codeRead imm => imm
  | .nop | .bwInit | .bwFinalize | .brInit | .brGetBit | .encodePayload | .decodePayload | .freqClear | .freqCount
  | .treeBuild | .codeGen | .treeSerialize | .treeDeserialize | .crc32 | .compress | .decompress => 0

/-- The encoded word, `OP | (imm << 8)` (30_encoding.md R93). -/
def encode (i : Instr) : Word := i.opcode.setWidth 32 ||| (i.imm8.setWidth 32 <<< 8)

/-- A row of the opcode map as mask and match: a word matches when `word & mask = match` (30_encoding.md R81). -/
structure OpRow where
  mnemonic : String
  mask : Word
  pattern : Word
deriving DecidableEq, Repr

def OpRow.hits (r : OpRow) (w : Word) : Bool := w &&& r.mask == r.pattern

/-- Masks of formats N, I and B (30_encoding.md R81). -/
def maskN : Word := 0xFFFFFFFF
def maskI : Word := 0xFFFF00FF
def maskB : Word := 0xFFFFFEFF

/-- The rows of 30_encoding.md R84, with the masks of R81. -/
def opcodeRows : List OpRow :=
  [⟨"NOP", maskN, 0x00⟩, ⟨"BW_INIT", maskN, 0x10⟩, ⟨"BW_PUT_BIT", maskB, 0x11⟩, ⟨"BW_PUT_SYMBOL", maskI, 0x12⟩,
   ⟨"BW_FINALIZE", maskN, 0x13⟩, ⟨"BR_INIT", maskN, 0x14⟩, ⟨"BR_GET_BIT", maskN, 0x15⟩,
   ⟨"ENCODE_PAYLOAD", maskN, 0x16⟩, ⟨"DECODE_PAYLOAD", maskN, 0x17⟩] ++
  [⟨"FREQ_CLEAR", maskN, 0x20⟩, ⟨"FREQ_COUNT", maskN, 0x21⟩, ⟨"FREQ_READ", maskI, 0x22⟩, ⟨"TREE_BUILD", maskN, 0x23⟩,
   ⟨"CODE_GEN", maskN, 0x24⟩, ⟨"CODE_READ", maskI, 0x25⟩] ++
  [⟨"TREE_SERIALIZE", maskN, 0x30⟩, ⟨"TREE_DESERIALIZE", maskN, 0x31⟩, ⟨"CRC32", maskN, 0x40⟩,
   ⟨"COMPRESS", maskN, 0x41⟩, ⟨"DECOMPRESS", maskN, 0x42⟩]

/-- The row of 30_encoding.md R84 a command stands in. -/
def Instr.mnemonic : Instr → String
  | .nop => "NOP"
  | .bwInit => "BW_INIT"
  | .bwPutBit _ => "BW_PUT_BIT"
  | .bwPutSymbol _ => "BW_PUT_SYMBOL"
  | .bwFinalize => "BW_FINALIZE"
  | .brInit => "BR_INIT"
  | .brGetBit => "BR_GET_BIT"
  | .encodePayload => "ENCODE_PAYLOAD"
  | .decodePayload => "DECODE_PAYLOAD"
  | .freqClear => "FREQ_CLEAR"
  | .freqCount => "FREQ_COUNT"
  | .freqRead _ => "FREQ_READ"
  | .treeBuild => "TREE_BUILD"
  | .codeGen => "CODE_GEN"
  | .codeRead _ => "CODE_READ"
  | .treeSerialize => "TREE_SERIALIZE"
  | .treeDeserialize => "TREE_DESERIALIZE"
  | .crc32 => "CRC32"
  | .compress => "COMPRESS"
  | .decompress => "DECOMPRESS"

/-- The command the decoder reads from a table word: a command word is one 32-bit word (30_encoding.md R80), so bits the
table does not number are 0, and a value that does not fit the row or a command word is no word at all. -/
def decodeTableWord (nbits w : Nat) : Option Instr :=
  if nbits ≤ 32 ∧ w < 2 ^ nbits then (decode (BitVec.ofNat 32 w)).toOption else none

end Sys2Proof
end

