-- ==== Sys2Proof/Machine/Data.lean ====
section
/-! DEFINITION. The data the block holds: error codes, sequencer state, trees, tables, bit cursors, regions,
the registers' names, and the events the two agents make. Plain data, no behaviour beyond field views. -/

namespace Sys2Proof.Machine

/-- The fixed parameters of 00_scope.md R11. -/
def formatVersion : Nat := 1
/-- LEAF_TAG (R11, 30_encoding.md R89). -/
def leafTag : Byte := 0x01
/-- BRANCH_TAG (R11, 30_encoding.md R89). -/
def branchTag : Byte := 0x00
/-- PLACEHOLDER_VALUE (R11, 41_tree_builder.md R132). -/
def placeholderValue : Byte := 0x00
/-- MAX_NODES (R11, 42_tree_serializer.md R160). -/
def maxNodes : Nat := 511
/-- MAX_CODE_LEN (R11, 41_tree_builder.md R131). -/
def maxCodeLen : Nat := 255

/-- The build-time parameters the spec leaves OPEN and rules depend on (00_scope.md R11, 70_reset_and_hazards.md R229).
`memTop` is the highest MEM address, so that every value of it is a legal MEM_BYTES, 1 to 2^32. DESIGN CHOICE (log 1). -/
structure Params where
  memTop : Word
  magic : Vector Byte 4
deriving DecidableEq, Repr, Inhabited

/-- MEM_BYTES (00_scope.md R11, 20_memory.md R56). -/
def Params.memBytes (p : Params) : Nat := p.memTop.toNat + 1

/-- SEQ (10_state.md R21). -/
inductive Seq where
  | idle
  | busy
deriving DecidableEq, Repr, Inhabited

/-- The error kinds of 60_exceptions.md R200, in code order. -/
inductive ErrorCode where
  | noError
  | formatError
  | corruptTree
  | corruptPayload
  | unexpectedEndOfData
  | integrityError
  | unknownType
  | ioError
  | exhausted
  | capacityError
  | rangeError
  | illegalCommand
  | stateError
deriving DecidableEq, Repr, Inhabited

/-- STATUS less BUSY, which is SEQ = BUSY (10_state.md R28). -/
structure Status where
  done : Bool
  err : Bool
  errCode : ErrorCode
  lastOp : Byte
deriving DecidableEq, Repr, Inhabited

/-- A tree term (00_scope.md R16, 10_state.md R32). -/
inductive HTree where
  | leaf (value : Byte) (weight : Weight)
  | node (weight : Weight) (left right : HTree)
deriving DecidableEq, Repr, Inhabited

/-- The weight a node carries (R16). -/
def HTree.weight : HTree → Weight
  | .leaf _ w => w
  | .node w _ _ => w

/-- The number of nodes, leaves included: NODE_COUNT of a present tree (10_state.md R32). -/
def HTree.nodeCount : HTree → Nat
  | .leaf _ _ => 1
  | .node _ l r => 1 + l.nodeCount + r.nodeCount

/-- FREQ[0..255] (10_state.md R31). -/
abbrev FreqTable := Vector Weight 256

/-- CODE[0..255]; the empty string says that the byte value has no code (10_state.md R34). -/
abbrev CodeTable := Vector Bits 256

/-- Entry `v` of a 256-entry table. -/
def tableGet {α : Type} (t : Vector α 256) (v : Byte) : α := t[v.toNat]'v.isLt

/-- The table with entry `v` replaced. -/
def tableSet {α : Type} (t : Vector α 256) (v : Byte) (x : α) : Vector α 256 := t.set v.toNat x v.isLt

/-- The bit writer BW (10_state.md R36). -/
structure BitWriter where
  active : Bool
  base : Word
  cap : Word
  bytes : Word
  acc : Byte
  nbits : Fin 8
deriving DecidableEq, Repr, Inhabited

/-- The bit reader BR (10_state.md R37). -/
structure BitReader where
  active : Bool
  base : Word
  len : Word
  pos : Word
  bit : Fin 8
deriving DecidableEq, Repr, Inhabited

/-- A drawn tree with the limit the spec sets on every tree in TREE: at most 511 nodes (10_state.md R32). -/
def boundedTree : Option HTree → Option HTree
  | some t => if t.nodeCount ≤ maxNodes then some t else none
  | none => none

/-- Drawn CODE contents with the limit on every entry: length at most 255 (10_state.md R34). -/
def boundedCode (c : CodeTable) : CodeTable := c.map (fun b => b.take maxCodeLen)

/-- A drawn BW whose ACC bits above NBITS are 0 (10_state.md R36). -/
def boundedWriter (w : BitWriter) : BitWriter := { w with acc := BitVec.ofNat 8 (w.acc.toNat % 2 ^ w.nbits.val) }

/-- A drawn BR whose POS lies in 0..LEN (10_state.md R37). -/
def boundedReader (r : BitReader) : BitReader := { r with pos := if r.pos ≤ r.len then r.pos else r.len }

/-- A byte range of MEM, `[addr, addr + len)`, in unbounded integers (20_memory.md R64). -/
structure Region where
  addr : Nat
  len : Nat
deriving DecidableEq, Repr, Inhabited

/-- MEM's listed bytes, addresses strictly rising. An address with no entry holds no byte of its own: what it reads as
is drawn freely (20_memory.md R62; log 3). -/
abbrev Memory := List Host.Cell

/-- The words of the register window (10_state.md R23). -/
inductive Reg where
  | cmd | status | srcAddr | srcLen | dstAddr | dstCap | outLen | nameAddr | nameLen | typ
  | plenLo | plenHi | crc | pad | resultLo | resultHi | bwState | bwBytes | brState | brPos
  | treeState | version
  | reserved (index : Fin 10)
deriving DecidableEq, Repr, Inhabited

/-- A value the host has read: `rd REG` or a MEM byte (30_encoding.md R94). -/
inductive Seen where
  | reg (r : Reg) (v : Word)
  | mem (a : Nat) (b : Byte)
deriving DecidableEq, Repr, Inhabited

/-- One move of an agent (10_state.md R20). All but the last are the host's (30_encoding.md R94, 20_memory.md R63,
70_reset_and_hazards.md R226). `width` is the access's width in bytes; a wide value's bytes come least significant first.
DESIGN CHOICE (log 5): the order of the two agents' moves is a list of these in State. -/
inductive Event where
  /-- `wr REG, v`, and `cmd` when the offset is CMD's. -/
  | regWrite (width offset : Nat) (v : Word)
  /-- `rd REG`. -/
  | regRead (width offset : Nat)
  /-- HostMemWrite(a, b). -/
  | memWrite (a : Nat) (b : Byte)
  /-- HostMemRead(a). -/
  | memRead (a : Nat)
  /-- A host MEM write wider than a byte. -/
  | memWriteWide (a : Nat) (lanes : List Byte)
  /-- A host MEM read wider than a byte. -/
  | memReadWide (a n : Nat)
  /-- `wait`: read STATUS until BUSY = 0. -/
  | wait
  /-- `if`: go on when the value last read from `r`, masked, is `value`; else leave out the next `n` events. -/
  | ifSeen (r : Reg) (mask value : Word) (n : Nat)
  /-- `stop`: the host program ends. -/
  | stop
  /-- The reset input is asserted and released. DESIGN CHOICE (log 23): one event, so no host access falls between the two;
  the spec does not say what one would do there. -/
  | reset
  /-- The sequencer ends the running command. -/
  | sequencer
deriving DecidableEq, Repr, Inhabited

end Sys2Proof.Machine
end

