-- ==== Sys2Proof/Config.lean ====
section
/-! DEFINITION. What an implementation fixes and what the spec leaves unspecified: opaque constants, so that no proof
can see a value. A free value is applied to a draw number (and to the address or register it is for), and State's
counter `draws` makes each draw a fresh one (log 2). -/

namespace Sys2Proof.Config

open Sys2Proof.Machine

/-- MEM_BYTES and MAGIC of this instance: OPEN (00_scope.md R11; log 1). -/
opaque params : Params

/-- REG_BASE: where the register window sits in the host's map (20_memory.md R57). No rule depends on it (log 15). -/
opaque regBase : Nat

/-- MEM_BASE: where MEM sits in the host's map (20_memory.md R57). No rule depends on it (log 15). -/
opaque memBase : Nat

/-- HOST_MEM_ORDER (20_memory.md R63): byte `k` of an `n`-byte host access lies at offset `hostMemOrder n k` (log 15). -/
opaque hostMemOrder (n : Nat) : Equiv.Perm (Fin n)

/-- An unspecified byte of MEM, by draw and address (93_implementation_defined.md U9, U10, U15, U16, U17). -/
opaque freeByte : Nat → Nat → Byte

/-- An unspecified register value, by draw and register (93_implementation_defined.md U8, U10). -/
opaque freeWord : Nat → Reg → Word

/-- An unspecified result of a command (93_implementation_defined.md U10). -/
opaque freeError : Nat → ErrorCode

/-- An unspecified CODE_VALID (93_implementation_defined.md U10). -/
opaque freeCodeValid : Nat → Bool

/-- An unspecified FREQ (93_implementation_defined.md U10). -/
opaque freeFreq : Nat → FreqTable

/-- An unspecified TREE (93_implementation_defined.md U10), before the node limit. -/
opaque freeTree : Nat → Option HTree

/-- Unspecified CODE contents (93_implementation_defined.md U10, U14), before the length limit. -/
opaque freeCode : Nat → CodeTable

/-- An unspecified BW (93_implementation_defined.md U10), before the limit on ACC. -/
opaque freeWriter : Nat → BitWriter

/-- An unspecified BR (93_implementation_defined.md U10, U16, U17), before the limit on POS. -/
opaque freeReader : Nat → BitReader

end Sys2Proof.Config
end

