-- ==== Sys2Proof/Machine/State.lean ====
section
/-! DEFINITION. What the machine holds, why it can stop, and the state after reset (10_state.md, 20_memory.md,
70_reset_and_hazards.md). -/

namespace Sys2Proof.Machine

/-- Why the machine stops with a fault. No command ends in one. -/
inductive Fault where
  /-- Raised by a host MEM access at or beyond MEM_BYTES: no such byte exists (20_memory.md R56, R63). Safe: the model
  stops where the spec gives no behaviour. -/
  | memAddressOutside (a : Nat)
deriving DecidableEq, Repr

/-- Why the machine refuses a step. No command ends in one. -/
inductive Refusal where
  /-- Raised by exec for an instruction that has no meaning yet. No arm uses it. Safe. -/
  | notModelled (mnemonic : String)
  /-- Raised by a REG access that is not a whole 32-bit word at a multiple of 4 in 0x00..0x7C: "The model refuses it"
  (20_memory.md R60, 70_reset_and_hazards.md R236). Safe. -/
  | regAccessForm (width offset : Nat)
deriving DecidableEq, Repr

/-- The whole state of the block and of the host's program. -/
structure State where
  /-- MEM_BYTES and MAGIC; no step changes them (70_reset_and_hazards.md R229; log 1). -/
  params : Params
  /-- SEQ (10_state.md R21). -/
  seq : Seq
  /-- CMD's read value, the last accepted command word (R23). -/
  cmd : Word
  /-- STATUS less BUSY (R28). -/
  status : Status
  /-- SRC_ADDR (R23, R24). -/
  srcAddr : Word
  /-- SRC_LEN. -/
  srcLen : Word
  /-- DST_ADDR. -/
  dstAddr : Word
  /-- DST_CAP. -/
  dstCap : Word
  /-- OUT_LEN (R25). -/
  outLen : Word
  /-- NAME_ADDR (R24). -/
  nameAddr : Word
  /-- NAME_LEN, bits [15:0]. -/
  nameLen : BitVec 16
  /-- TYPE (R27). -/
  typ : Word
  /-- PLEN_LO (R26). -/
  plenLo : Word
  /-- PLEN_HI (R26). -/
  plenHi : Word
  /-- CRC (R25). -/
  crc : Word
  /-- PAD, bits [7:0]. -/
  pad : Byte
  /-- RESULT_LO. -/
  resultLo : Word
  /-- RESULT_HI. -/
  resultHi : Word
  /-- FREQ (R31). -/
  freq : FreqTable
  /-- TREE; `none` is the spec's "absent" (R32). -/
  tree : Option HTree
  /-- CODE (R34). -/
  code : CodeTable
  /-- CODE_VALID (R34, R35). -/
  codeValid : Bool
  /-- BW (R36). -/
  bw : BitWriter
  /-- BR (R37). -/
  br : BitReader
  /-- The bytes of MEM that something has written since the last reset, and the bytes drawn after an error (20_memory.md R56). -/
  mem : Memory
  /-- The model's own: the draw that MEM's unlisted bytes come from (log 3). -/
  memDraw : Nat
  /-- The model's own: how many free draws were made (log 2). -/
  draws : Nat
  /-- The model's own: the host has written MEM while the running command is BUSY (70_reset_and_hazards.md R233; log 9). -/
  disturbed : Bool
  /-- The model's own: the agents' next moves, in order (log 5). -/
  events : List Event
  /-- The model's own: what the host has read, newest first (log 17). -/
  seen : List Seen
deriving DecidableEq, Repr

/-- The reset state (10_state.md R40). The parameters, CODE and MEM are what the spec leaves open there: opaque. -/
def State.reset : State where
  params := Config.params
  seq := .idle
  cmd := 0
  status := { done := false, err := false, errCode := .noError, lastOp := 0 }
  srcAddr := 0
  srcLen := 0
  dstAddr := 0
  dstCap := 0
  outLen := 0
  nameAddr := 0
  nameLen := 0
  typ := 0
  plenLo := 0
  plenHi := 0
  crc := 0
  pad := 0
  resultLo := 0
  resultHi := 0
  freq := Vector.replicate 256 0
  tree := none
  code := boundedCode (Config.freeCode 0)
  codeValid := false
  bw := { active := false, base := 0, cap := 0, bytes := 0, acc := 0, nbits := 0 }
  br := { active := false, base := 0, len := 0, pos := 0, bit := 0 }
  mem := []
  memDraw := 0
  draws := 1
  disturbed := false
  events := []
  seen := []

end Sys2Proof.Machine
end

