-- ==== Sys2Proof/Machine/Ops.lean ====
section
/-! DEFINITION. The operations every command shares: MEM, byte order, regions, replacing TREE, how a command completes
and how it raises an error, and what a free draw leaves. -/

namespace Sys2Proof.Machine

/-- What every meaning answers. -/
abbrev Result := Host.Outcome State Fault Refusal

/-! ### MEM -/

/-- The byte listed for an address, if one is. -/
def Memory.lookup : Memory → Nat → Option Byte
  | [], _ => none
  | (k, b) :: m, a => if k = a then some b else Memory.lookup m a

/-- The memory with `b` at `a`, addresses still strictly rising. -/
def Memory.insert : Memory → Nat → Byte → Memory
  | [], a, b => [(a, b)]
  | (k, c) :: m, a, b =>
    if a < k then (a, b) :: (k, c) :: m
    else if a = k then (a, b) :: m
    else (k, c) :: Memory.insert m a b

/-- Every listed address is above `lo`, and they rise strictly. -/
def Memory.risesFrom : Nat → Memory → Bool
  | _, [] => true
  | lo, (k, _) :: m => decide (lo ≤ k) && Memory.risesFrom (k + 1) m

/-- The canonical form: addresses strictly rising. An unlisted address has no byte of its own, so no entry can equal it
(log 3). -/
def Memory.wf (m : Memory) : Bool := Memory.risesFrom 0 m

/-- Every listed address exists: it is below MEM_BYTES (20_memory.md R56). -/
def Memory.within (n : Nat) (m : Memory) : Bool := m.all (fun c => decide (c.1 < n))

/-- MEM[a]. A byte that nothing has written since the last reset is unspecified (20_memory.md R62). -/
def State.readByte (s : State) (a : Nat) : Byte := (Memory.lookup s.mem a).getD (Config.freeByte s.memDraw a)

/-- MEM[a] ← b. Callers have checked that `a` exists (20_memory.md R64). -/
def State.writeByte (s : State) (a : Nat) (b : Byte) : State := { s with mem := Memory.insert s.mem a b }

/-- MemRead(a, n) (00_scope.md R15). -/
def memRead (s : State) : Nat → Nat → List Byte
  | _, 0 => []
  | a, n + 1 => s.readByte a :: memRead s (a + 1) n

/-- MemWrite(a, len(bs), bs) (00_scope.md R15). -/
def memWrite : State → Nat → List Byte → State
  | s, _, [] => s
  | s, a, b :: bs => memWrite (s.writeByte a b) (a + 1) bs

/-- `n` bytes from `a` on become those of a free draw. -/
def Memory.fillFree (draw : Nat) : Memory → Nat → Nat → Memory
  | m, _, 0 => m
  | m, a, n + 1 => Memory.fillFree draw (Memory.insert m a (Config.freeByte draw a)) (a + 1) n

/-! ### Byte order -/

/-- `bytes_be(v, n)` (00_scope.md R14, 20_memory.md R58). -/
def bytesBE (v : Nat) : Nat → List Byte
  | 0 => []
  | n + 1 => BitVec.ofNat 8 (v / 256 ^ n) :: bytesBE v n

/-- `be_N(b0 … bk)` (00_scope.md R14). -/
def beNat (bs : List Byte) : Nat := bs.foldl (fun acc b => acc * 256 + b.toNat) 0

/-! ### Regions -/

/-- Region check, in unbounded integers (20_memory.md R64). -/
def Region.inRange (p : Params) (r : Region) : Bool := decide (r.addr + r.len ≤ p.memBytes)

/-- Two regions share at least one byte; zero-length regions overlap nothing (20_memory.md R65). -/
def Region.overlaps (r q : Region) : Bool :=
  decide (0 < r.len) && decide (0 < q.len) && decide (r.addr < q.addr + q.len) && decide (q.addr < r.addr + r.len)

/-- The address lies in the region. -/
def Region.holds (r : Region) (a : Nat) : Bool := decide (r.addr ≤ a) && decide (a < r.addr + r.len)

/-- Region check and overlap check of one command (20_memory.md R64, R65). -/
def regionsFit (p : Params) (reads : List Region) (write : Option Region) : Bool :=
  reads.all (Region.inRange p) &&
    match write with
    | none => true
    | some w => w.inRange p && reads.all (fun r => !r.overlaps w)

/-- The bytes of a region that exist become unspecified, with one draw for the whole region. -/
def State.freeRegion (s : State) (r : Region) : State :=
  { s with
    mem := Memory.fillFree s.draws s.mem r.addr (min r.len (s.params.memBytes - r.addr))
    draws := s.draws + 1 }

/-! ### TREE and CODE -/

/-- CODE_VALID ← 0: from here on the contents of CODE are unspecified (10_state.md R35, 93_implementation_defined.md U14;
log 4). -/
def State.dropCode (s : State) : State :=
  { s with codeValid := false, code := boundedCode (Config.freeCode s.draws), draws := s.draws + 1 }

/-- TREE ← t; CODE_VALID ← 0 (10_state.md R35). -/
def State.setTree (s : State) (t : Option HTree) : State := { s.dropCode with tree := t }

/-- BR holds unspecified values (40_bit_codec.md R114, 43_container.md R193; log 13). -/
def State.freeBr (s : State) : State :=
  { s with br := boundedReader (Config.freeReader s.draws), draws := s.draws + 1 }

/-! ### How a command starts, completes, and raises an error -/

/-- The host's CMD write while IDLE: SEQ becomes BUSY, DONE, ERR and ERR_CODE are cleared, LAST_OP takes the word's low
byte (10_state.md R21, R28). -/
def State.startCommand (s : State) (w : Word) : State :=
  { s with
    seq := .busy
    cmd := w
    status := { done := false, err := false, errCode := .noError, lastOp := opField w }
    disturbed := false }

/-- The state `complete()` leaves, with OUT_LEN ← k (60_exceptions.md R205). -/
def State.completed (s : State) (op : Byte) (k : Word) : State :=
  { s with
    outLen := k
    seq := .idle
    status := { done := true, err := false, errCode := .noError, lastOp := op } }

/-- The state `raise E` leaves (60_exceptions.md R206). There is no trap entry: nothing is saved, no mode changes (R210). -/
def State.raised (s : State) (op : Byte) (e : ErrorCode) : State :=
  { s with
    outLen := 0
    seq := .idle
    status := { done := true, err := true, errCode := e, lastOp := op } }

/-- `complete()` (60_exceptions.md R205). -/
def complete (op : Byte) (k : Word) (s : State) : Result := .next (s.completed op k)

/-- `raise E` (60_exceptions.md R206): taking an error, the ONE shared operation for it. -/
def raiseError (op : Byte) (e : ErrorCode) (s : State) : Result := .next (s.raised op e)

end Sys2Proof.Machine
end

