-- ==== Sys2Proof/Machine/Operands.lean ====
section
/-! DEFINITION. Where a command's operands come from: the immediate forms (30_encoding.md R82), and the registers and
regions of 30_encoding.md R83. -/

namespace Sys2Proof.Machine

/-- Format I: IMM8 as an unsigned byte (30_encoding.md R82). -/
def immByte (imm : Byte) : Byte := imm

/-- Format B: bit = word[8], IMM8's lowest bit (30_encoding.md R82). -/
def immBit (imm : Byte) : Bool := imm.getLsbD 0

/-- IMM8 is one a format B word may carry (30_encoding.md R81, R85). -/
def immIsBit (imm : Byte) : Bool := imm == 0 || imm == 1

/-- (SRC_ADDR, SRC_LEN). -/
def State.srcRegion (s : State) : Region := ⟨s.srcAddr.toNat, s.srcLen.toNat⟩

/-- (DST_ADDR, DST_CAP). -/
def State.dstRegion (s : State) : Region := ⟨s.dstAddr.toNat, s.dstCap.toNat⟩

/-- (NAME_ADDR, NAME_LEN). -/
def State.nameRegion (s : State) : Region := ⟨s.nameAddr.toNat, s.nameLen.toNat⟩

/-- The bit writer's sink (BW.BASE, BW.CAP) (10_state.md R36). -/
def State.sinkRegion (s : State) : Region := ⟨s.bw.base.toNat, s.bw.cap.toNat⟩

/-- The bit reader's source (BR.BASE, BR.LEN) (10_state.md R37). -/
def State.sourceRegion (s : State) : Region := ⟨s.br.base.toNat, s.br.len.toNat⟩

/-- PLEN = PLEN_HI ++ PLEN_LO, unsigned (10_state.md R26). -/
def State.plen (s : State) : Nat := s.plenHi.toNat * 2 ^ 32 + s.plenLo.toNat

/-- The "read regions" column of 30_encoding.md R83. -/
def readRegions (i : Instr) (s : State) : List Region :=
  match i with
  | .brInit | .encodePayload | .decodePayload | .freqCount | .treeDeserialize | .crc32 | .decompress => [s.srcRegion]
  | .brGetBit => [s.sourceRegion]
  | .compress => [s.srcRegion, s.nameRegion]
  | .nop | .bwInit | .bwPutBit _ | .bwPutSymbol _ | .bwFinalize | .freqClear | .freqRead _ | .treeBuild | .codeGen
  | .codeRead _ | .treeSerialize => []

/-- The "write region" column of 30_encoding.md R83 (20_memory.md R65). -/
def writeRegion (i : Instr) (s : State) : Option Region :=
  match i with
  | .bwPutBit _ | .bwPutSymbol _ | .bwFinalize => some s.sinkRegion
  | .bwInit | .encodePayload | .decodePayload | .codeRead _ | .treeSerialize | .compress | .decompress => some s.dstRegion
  | .nop | .brInit | .brGetBit | .freqClear | .freqCount | .freqRead _ | .treeBuild | .codeGen | .treeDeserialize
  | .crc32 => none

/-- The region and overlap checks of a command (20_memory.md R64, R65). -/
def regionsOk (i : Instr) (s : State) : Bool := regionsFit s.params (readRegions i s) (writeRegion i s)

/-- The result and argument registers a command writes when it succeeds, STATUS and OUT_LEN apart: the "Writes" lines of
the command rules. -/
def resultRegs : Instr → List Reg
  | .bwFinalize | .encodePayload | .decodePayload => [.pad]
  | .brGetBit | .freqRead _ | .codeRead _ => [.resultLo, .resultHi]
  | .crc32 => [.crc]
  | .compress => [.crc, .pad, .plenLo, .plenHi]
  | .decompress => [.typ, .nameAddr, .nameLen, .plenLo, .plenHi, .crc, .pad]
  | .nop | .bwInit | .bwPutBit _ | .bwPutSymbol _ | .brInit | .freqClear | .freqCount | .treeBuild | .codeGen
  | .treeSerialize | .treeDeserialize => []

end Sys2Proof.Machine
end

