-- ==== Sys2Proof/Machine/BitCodec.lean ====
section
/-! DEFINITION. The Bit Codec's shared functions and commands (40_bit_codec.md). -/

namespace Sys2Proof.Machine

/-! ### Bit strings and bytes -/

/-- `ceil(n / 8)`. -/
def ceil8 (n : Nat) : Nat := (n + 7) / 8

/-- One bit appended at the low end of a byte. -/
def shiftIn (acc : Byte) (b : Bool) : Byte := (acc <<< 1) ||| (if b then 1 else 0)

/-- The first eight bits of a string as a byte, the first at bit 7, zeros where the string has ended (30_encoding.md R91,
20_memory.md R59). -/
def packByte (bs : Bits) : Byte := (List.range 8).foldl (fun acc j => shiftIn acc (bs.getD j false)) 0

/-- A bit string packed MSB-first, zero-padded on the right: bit `j` goes to byte `j div 8`, position `7 - j mod 8`
(30_encoding.md R91). -/
def packBits (bs : Bits) : List Byte := (List.range (ceil8 bs.length)).map (fun k => packByte (bs.drop (8 * k)))

/-- The pad count of `n` bits, 0..7 (30_encoding.md R91). -/
def padCount (n : Nat) : Nat := (8 - n % 8) % 8

/-! ### The bit writer -/

/-- The MEM address the writer's next byte goes to (40_bit_codec.md R98). -/
def BitWriter.next (w : BitWriter) : Nat := w.base.toNat + w.bytes.toNat

/-- A write of `k` bits fits (40_bit_codec.md R99). -/
def BitWriter.fits (w : BitWriter) (k : Nat) : Bool := decide (w.bytes.toNat + (w.nbits.val + k) / 8 ≤ w.cap.toNat)

/-- `put_bit(b)` (40_bit_codec.md R98). -/
def putBit (b : Bool) (s : State) : State :=
  let acc := shiftIn s.bw.acc b
  if h : s.bw.nbits.val + 1 < 8 then
    { s with bw := { s.bw with acc := acc, nbits := ⟨s.bw.nbits.val + 1, h⟩ } }
  else
    { s.writeByte s.bw.next acc with bw := { s.bw with bytes := s.bw.bytes + 1, acc := 0, nbits := 0 } }

/-- `for b in bs: put_bit(b)`. -/
def putBits : Bits → State → State
  | [], s => s
  | b :: bs, s => putBits bs (putBit b s)

/-- A new writer on a sink (40_bit_codec.md R101, R109). -/
def openWriter (base cap : Word) (s : State) : State :=
  { s with bw := { active := true, base := base, cap := cap, bytes := 0, acc := 0, nbits := 0 } }

/-- How many bits finalization pads (40_bit_codec.md R104). -/
def BitWriter.pad (w : BitWriter) : Nat := if w.nbits.val = 0 then 0 else 8 - w.nbits.val

/-- Finalization: the partial byte, zero-padded on the right, goes to the sink, and the writer becomes inactive
(40_bit_codec.md R104). -/
def flushWriter (s : State) : State :=
  if s.bw.nbits.val = 0 then
    { s with bw := { s.bw with active := false, acc := 0, nbits := 0 } }
  else
    { s.writeByte s.bw.next (s.bw.acc <<< (8 - s.bw.nbits.val)) with
      bw := { s.bw with active := false, bytes := s.bw.bytes + 1, acc := 0, nbits := 0 } }

/-- `BW_INIT` (40_bit_codec.md R101). -/
def execBwInit (s : State) : Result :=
  if regionsOk .bwInit s then complete Op.bwInit 0 (openWriter s.dstAddr s.dstCap s)
  else raiseError Op.bwInit .rangeError s

/-- `BW_PUT_BIT b` (40_bit_codec.md R102). An IMM8 that is no bit is illegal (30_encoding.md R85); the decoder gives none
(log 16). RANGE_ERROR by 20_memory.md R64 and 60_exceptions.md R200 (log 11). -/
def execBwPutBit (imm : Byte) (s : State) : Result :=
  if !immIsBit imm then raiseError Op.bwPutBit .illegalCommand s
  else if !s.bw.active then raiseError Op.bwPutBit .stateError s
  else if !s.bw.fits 1 then raiseError Op.bwPutBit .capacityError s
  else if !regionsOk (.bwPutBit imm) s then raiseError Op.bwPutBit .rangeError s
  else
    let t := putBit (immBit imm) s
    complete Op.bwPutBit t.bw.bytes t

/-- `BW_PUT_SYMBOL v` (40_bit_codec.md R103). RANGE_ERROR as in `execBwPutBit` (log 11). -/
def execBwPutSymbol (imm : Byte) (s : State) : Result :=
  let c := tableGet s.code (immByte imm)
  if !s.bw.active then raiseError Op.bwPutSymbol .stateError s
  else if !s.codeValid then raiseError Op.bwPutSymbol .stateError s
  else if c.length = 0 then raiseError Op.bwPutSymbol .stateError s
  else if !s.bw.fits c.length then raiseError Op.bwPutSymbol .capacityError s
  else if !regionsOk (.bwPutSymbol imm) s then raiseError Op.bwPutSymbol .rangeError s
  else
    let t := putBits c s
    complete Op.bwPutSymbol t.bw.bytes t

/-- Finalization fits: one more byte when bits are pending (40_bit_codec.md R99, R104). -/
def BitWriter.flushFits (w : BitWriter) : Bool := decide (w.nbits.val = 0 ∨ w.bytes.toNat < w.cap.toNat)

/-- `BW_FINALIZE` (40_bit_codec.md R104). RANGE_ERROR as in `execBwPutBit` (log 11). -/
def execBwFinalize (s : State) : Result :=
  if !s.bw.active then raiseError Op.bwFinalize .stateError s
  else if !s.bw.flushFits then raiseError Op.bwFinalize .capacityError s
  else if !regionsOk .bwFinalize s then raiseError Op.bwFinalize .rangeError s
  else
    let t := flushWriter s
    complete Op.bwFinalize t.bw.bytes { t with pad := BitVec.ofNat 8 s.bw.pad }

/-! ### The bit reader -/

/-- A new reader on a source (40_bit_codec.md R106, R112). -/
def openReader (base len : Word) (s : State) : State :=
  { s with br := { active := true, base := base, len := len, pos := 0, bit := 0 } }

/-- The cursor after one bit (40_bit_codec.md R100). -/
def BitReader.advance (r : BitReader) : BitReader :=
  if h : r.bit.val + 1 < 8 then { r with bit := ⟨r.bit.val + 1, h⟩ }
  else { r with bit := 0, pos := r.pos + 1 }

/-- `get_bit()`; `none` is the signal EXHAUSTED, with the state unchanged (40_bit_codec.md R100). POS lies in 0..LEN
(10_state.md R37), so POS = LEN is asked as LEN ≤ POS (log 12). -/
def getBit (s : State) : Option (Bool × State) :=
  if s.br.len ≤ s.br.pos then none
  else
    some ((s.readByte (s.br.base.toNat + s.br.pos.toNat)).getLsbD (7 - s.br.bit.val), { s with br := s.br.advance })

/-- `BR_INIT` (40_bit_codec.md R106). -/
def execBrInit (s : State) : Result :=
  if regionsOk .brInit s then complete Op.brInit 0 (openReader s.srcAddr s.srcLen s)
  else raiseError Op.brInit .rangeError s

/-- `BR_GET_BIT` (40_bit_codec.md R107, R108). RANGE_ERROR as in `execBwPutBit` (log 11). -/
def execBrGetBit (s : State) : Result :=
  if !s.br.active then raiseError Op.brGetBit .stateError s
  else if !regionsOk .brGetBit s then raiseError Op.brGetBit .rangeError s
  else
    match getBit s with
    | none => raiseError Op.brGetBit .exhausted s
    | some (b, t) => complete Op.brGetBit 0 { t with resultLo := if b then 1 else 0, resultHi := 0 }

/-! ### Whole payloads -/

/-- `Σ len(CODE[s])` over the bytes (40_bit_codec.md R109). -/
def codeBitCount (c : CodeTable) : List Byte → Nat
  | [] => 0
  | v :: vs => (tableGet c v).length + codeBitCount c vs

/-- Every byte has a code (40_bit_codec.md R111). -/
def allCoded (c : CodeTable) (bs : List Byte) : Bool := bs.all (fun v => decide (1 ≤ (tableGet c v).length))

/-- `for s in bs: for b in CODE[s]: put_bit(b)` (40_bit_codec.md R109). -/
def putSymbols : List Byte → State → State
  | [], s => s
  | v :: vs, s => putSymbols vs (putBits (tableGet s.code v) s)

/-- `encode_into(src, n, dst, cap)`, with the number of bytes written, B + 1 (40_bit_codec.md R109). -/
def encodeInto (src n dst cap : Nat) (s : State) : Nat × State :=
  let s := openWriter (BitVec.ofNat 32 dst) (BitVec.ofNat 32 cap) s
  let s := putSymbols (memRead s src n) s
  let pad := s.bw.pad
  let s := flushWriter s
  let s := s.writeByte (dst + s.bw.bytes.toNat) (BitVec.ofNat 8 pad)
  (s.bw.bytes.toNat + 1, { s with pad := BitVec.ofNat 8 pad })

/-- `ENCODE_PAYLOAD` (40_bit_codec.md R111). -/
def execEncodePayload (s : State) : Result :=
  let p := memRead s s.srcAddr.toNat s.srcLen.toNat
  if !s.codeValid then raiseError Op.encodePayload .stateError s
  else if !regionsOk .encodePayload s then raiseError Op.encodePayload .rangeError s
  else if !allCoded s.code p then raiseError Op.encodePayload .stateError s
  else if s.dstCap.toNat < ceil8 (codeBitCount s.code p) + 1 then raiseError Op.encodePayload .capacityError s
  else
    let (k, t) := encodeInto s.srcAddr.toNat s.srcLen.toNat s.dstAddr.toNat s.dstCap.toNat s
    complete Op.encodePayload (BitVec.ofNat 32 k) t

/-- One walk from the root: 0 → left, 1 → right, until a leaf; `none` when the bits run out (40_bit_codec.md R112). -/
def walkTree : HTree → State → Option (Byte × State)
  | .leaf v _, s => some (v, s)
  | .node _ l r, s =>
    match getBit s with
    | none => none
    | some (b, t) => if b then walkTree r t else walkTree l t

/-- `n` symbols decoded to `dst`, `dst + 1`, … (40_bit_codec.md R112). -/
def decodeSymbols (tree : HTree) : Nat → Nat → State → Option State
  | 0, _, s => some s
  | n + 1, dst, s =>
    match walkTree tree s with
    | none => none
    | some (v, t) => decodeSymbols tree n (dst + 1) (t.writeByte dst v)

/-- `decode_into(src, len, dst, N)`, with the pad-count byte; `none` is UNEXPECTED_END_OF_DATA (40_bit_codec.md R112, R113). -/
def decodeInto (tree : HTree) (src len dst n : Nat) (s : State) : Option (Byte × State) :=
  match decodeSymbols tree n dst (openReader (BitVec.ofNat 32 src) (BitVec.ofNat 32 (len - 1)) s) with
  | none => none
  | some t => some (t.readByte (src + len - 1), t)

/-- What an error during or after decoding leaves: the destination region and BR hold unspecified values
(40_bit_codec.md R114, 43_container.md R193; log 13). -/
def freeDecoded (s : State) : State := (s.freeRegion s.dstRegion).freeBr

/-- `DECODE_PAYLOAD` (40_bit_codec.md R114, R119). -/
def execDecodePayload (s : State) : Result :=
  match s.tree with
  | none => raiseError Op.decodePayload .stateError s
  | some tree =>
    if !regionsOk .decodePayload s then raiseError Op.decodePayload .rangeError s
    else if s.srcLen.toNat = 0 then raiseError Op.decodePayload .corruptPayload s
    else if s.dstCap.toNat < s.plen then raiseError Op.decodePayload .capacityError s
    else
      match decodeInto tree s.srcAddr.toNat s.srcLen.toNat s.dstAddr.toNat s.plen s with
      | none => raiseError Op.decodePayload .unexpectedEndOfData (freeDecoded s)
      | some (p, t) => complete Op.decodePayload s.plenLo { t with pad := p }

end Sys2Proof.Machine
end

