-- ==== Sys2Proof/Machine/TreeBuilder.lean ====
section
/-! DEFINITION. The Huffman tree builder's commands (41_tree_builder.md). -/

namespace Sys2Proof.Machine

/-! ### The frequency table -/

/-- The byte values 0..255, ascending. -/
def byteValues : List Byte := (List.range 256).map (BitVec.ofNat 8)

/-- FREQ[v] ← 0 for every v (41_tree_builder.md R126). -/
def clearedFreq : FreqTable := Vector.replicate 256 0

/-- `for s in bs: FREQ[s] ← (FREQ[s] + 1) mod 2^64` (41_tree_builder.md R127). -/
def countBytes (f : FreqTable) (bs : List Byte) : FreqTable :=
  bs.foldl (fun f v => tableSet f v (tableGet f v + 1)) f

/-- `FREQ_CLEAR` (41_tree_builder.md R126). -/
def execFreqClear (s : State) : Result := complete Op.freqClear 0 { s with freq := clearedFreq }

/-- `FREQ_COUNT` (41_tree_builder.md R127). -/
def execFreqCount (s : State) : Result :=
  if regionsOk .freqCount s then
    complete Op.freqCount 0 { s with freq := countBytes s.freq (memRead s s.srcAddr.toNat s.srcLen.toNat) }
  else raiseError Op.freqCount .rangeError s

/-- `FREQ_READ v` (41_tree_builder.md R128). -/
def execFreqRead (imm : Byte) (s : State) : Result :=
  let w := tableGet s.freq (immByte imm)
  complete Op.freqRead 0 { s with resultLo := w.extractLsb' 0 32, resultHi := w.extractLsb' 32 32 }

/-! ### Building the tree -/

/-- A node in the queue with its sequence number (41_tree_builder.md R122). -/
structure QEntry where
  tree : HTree
  seq : Nat
deriving DecidableEq, Repr, Inhabited

/-- Key order: (weight, seq), lexicographic (41_tree_builder.md R122). -/
def QEntry.before (x y : QEntry) : Bool :=
  decide (x.tree.weight.toNat < y.tree.weight.toNat) ||
    (decide (x.tree.weight = y.tree.weight) && decide (x.seq < y.seq))

/-- `extract_min` of a queue with first entry `x`: the entry with the least key, and the others (41_tree_builder.md R122). -/
def extractMin (x : QEntry) : List QEntry → QEntry × List QEntry
  | [] => (x, [])
  | y :: ys =>
    let (m, rest) := extractMin y ys
    if x.before m then (x, y :: ys) else (m, x :: rest)

/-- An internal node over the two extracted subtrees, its weight their sum modulo 2^64 (41_tree_builder.md R123, R129). -/
def combine (a b : HTree) : HTree := .node (a.weight + b.weight) a b

/-- The loop of build_tree on the queue `x :: q`: `next` is the next sequence number (41_tree_builder.md R129). Each round
takes two entries and puts one back, so as many rounds as `q` has entries are enough. -/
def mergeQueue : Nat → Nat → QEntry → List QEntry → HTree
  | 0, _, x, _ => x.tree
  | fuel + 1, next, x, q =>
    let (a, rest) := extractMin x q
    match rest with
    | [] => a.tree
    | y :: ys =>
      let (b, rest) := extractMin y ys
      mergeQueue fuel (next + 1) ⟨combine a.tree b.tree, next⟩ rest

/-- The byte values with a nonzero count, ascending (41_tree_builder.md R120, R129). -/
def freqSymbols (f : FreqTable) : List Byte := byteValues.filter (fun v => tableGet f v != 0)

/-- The leaf of a byte value, its weight its count (41_tree_builder.md R129). -/
def freqLeaf (f : FreqTable) (v : Byte) : HTree := .leaf v (tableGet f v)

/-- Numbered from `k` on (41_tree_builder.md R122). -/
def numberFrom : Nat → List HTree → List QEntry
  | _, [] => []
  | k, t :: ts => ⟨t, k⟩ :: numberFrom (k + 1) ts

/-- The one-value tree's dummy right leaf (41_tree_builder.md R133; 90_conflicts.md C1). -/
def dummyLeaf (v : Byte) : HTree := .leaf (v + 1) 0

/-- `build_tree()` (41_tree_builder.md R129, R132, R133). -/
def buildTree (f : FreqTable) : HTree :=
  match freqSymbols f with
  | [] => .leaf placeholderValue 0
  | [v] => .node (tableGet f v) (freqLeaf f v) (dummyLeaf v)
  | v :: vs => mergeQueue vs.length (vs.length + 1) ⟨freqLeaf f v, 0⟩ (numberFrom 1 (vs.map (freqLeaf f)))

/-- `TREE_BUILD` (41_tree_builder.md R135). -/
def execTreeBuild (s : State) : Result := complete Op.treeBuild 0 (s.setTree (some (buildTree s.freq)))

/-! ### The code table -/

/-- `CODE[v] ← ""` for every v (41_tree_builder.md R145). -/
def emptyCode : CodeTable := Vector.replicate 256 []

/-- The preorder walk; later leaves overwrite (41_tree_builder.md R145, R148). -/
def walkCode : HTree → Bits → CodeTable → CodeTable
  | .leaf v _, p, c => tableSet c v p
  | .node _ l r, p, c => walkCode r (p ++ [true]) (walkCode l (p ++ [false]) c)

/-- The code table of a tree; a leaf root has the code "0" (41_tree_builder.md R145, R146). -/
def genCode : HTree → CodeTable
  | .leaf v _ => tableSet emptyCode v [false]
  | .node w l r => walkCode (.node w l r) [] emptyCode

/-- CODE ← the table of a tree; CODE_VALID ← 1 (41_tree_builder.md R145). -/
def State.setCode (s : State) (t : HTree) : State := { s with code := genCode t, codeValid := true }

/-- `CODE_GEN` (41_tree_builder.md R145). -/
def execCodeGen (s : State) : Result :=
  match s.tree with
  | none => raiseError Op.codeGen .stateError s
  | some t => complete Op.codeGen 0 (s.setCode t)

/-- `CODE_READ v` (41_tree_builder.md R149). -/
def execCodeRead (imm : Byte) (s : State) : Result :=
  let c := tableGet s.code (immByte imm)
  let m := ceil8 c.length
  if !s.codeValid then raiseError Op.codeRead .stateError s
  else if !regionsOk (.codeRead imm) s then raiseError Op.codeRead .rangeError s
  else if s.dstCap.toNat < m then raiseError Op.codeRead .capacityError s
  else
    complete Op.codeRead (BitVec.ofNat 32 m)
      { memWrite s s.dstAddr.toNat (packBits c) with resultLo := BitVec.ofNat 32 c.length, resultHi := 0 }

end Sys2Proof.Machine
end

