-- ==== Sys2Proof/Machine/TreeSerializer.lean ====
section
/-! DEFINITION. The tree serializer's functions and commands (42_tree_serializer.md). -/

namespace Sys2Proof.Machine

/-- `ser` (42_tree_serializer.md R154, 30_encoding.md R89). -/
def ser : HTree → List Byte
  | .leaf v _ => [leafTag, v]
  | .node _ l r => branchTag :: (ser l ++ ser r)

/-- `size(t)` (42_tree_serializer.md R155). -/
def treeSize (t : HTree) : Nat := (ser t).length

/-- `node()` of parse on the bytes left, with the count of tags read so far: the node, the bytes after it and the new
count, or `none` for CORRUPT_TREE (42_tree_serializer.md R156). `depth` bounds the nesting: a call reads a tag before it
calls again, so a nesting of more than MAX_NODES calls has read more than MAX_NODES tags and has failed (log 21). -/
def parseNode : Nat → List Byte → Nat → Option (HTree × List Byte × Nat)
  | 0, _, _ => none
  | _ + 1, [], _ => none
  | depth + 1, tag :: bs, count =>
    if maxNodes < count + 1 then none
    else if tag = leafTag then
      match bs with
      | [] => none
      | v :: rest => some (.leaf v 0, rest, count + 1)
    else if tag = branchTag then
      match parseNode depth bs (count + 1) with
      | none => none
      | some (l, bs, count) =>
        match parseNode depth bs count with
        | none => none
        | some (r, bs, count) => some (.node 0 l r, bs, count)
    else none

/-- `parse` over exactly these bytes; `none` is CORRUPT_TREE (42_tree_serializer.md R156, R159). -/
def parseTree (bs : List Byte) : Option HTree :=
  match parseNode (maxNodes + 1) bs 0 with
  | some (t, [], _) => some t
  | _ => none

/-- `TREE_SERIALIZE` (42_tree_serializer.md R153). -/
def execTreeSerialize (s : State) : Result :=
  match s.tree with
  | none => raiseError Op.treeSerialize .stateError s
  | some t =>
    if !regionsOk .treeSerialize s then raiseError Op.treeSerialize .rangeError s
    else if s.dstCap.toNat < treeSize t then raiseError Op.treeSerialize .capacityError s
    else complete Op.treeSerialize (BitVec.ofNat 32 (ser t).length) (memWrite s s.dstAddr.toNat (ser t))

/-- `TREE_DESERIALIZE` (42_tree_serializer.md R157). -/
def execTreeDeserialize (s : State) : Result :=
  if !regionsOk .treeDeserialize s then raiseError Op.treeDeserialize .rangeError s
  else
    match parseTree (memRead s s.srcAddr.toNat s.srcLen.toNat) with
    | none => raiseError Op.treeDeserialize .corruptTree (s.setTree none)
    | some t => complete Op.treeDeserialize 0 (s.setTree (some t))

end Sys2Proof.Machine
end

