-- ==== Sys2Proof/Machine/Container.lean ====
section
/-! DEFINITION. The container codec: CRC32, COMPRESS and DECOMPRESS (43_container.md; layout 30_encoding.md R92). -/

namespace Sys2Proof.Machine

/-! ### Checksum -/

/-- The eight shift steps for one byte (43_container.md R169). -/
def crcSteps : Nat → Word → Word
  | 0, c => c
  | n + 1, c => crcSteps n (if c.getLsbD 0 then (c >>> 1) ^^^ 0xEDB88320 else c >>> 1)

/-- One byte taken into the CRC (43_container.md R169). -/
def crcByte (c : Word) (x : Byte) : Word := crcSteps 8 (c ^^^ x.setWidth 32)

/-- `crc32(bytes)` (43_container.md R169; the spec marks the definition as general knowledge, log 19). -/
def crc32 (bs : List Byte) : Word := bs.foldl crcByte 0xFFFFFFFF ^^^ 0xFFFFFFFF

/-- `CRC32` (43_container.md R168). -/
def execCrc32 (s : State) : Result :=
  if regionsOk .crc32 s then
    complete Op.crc32 0 { s with crc := crc32 (memRead s s.srcAddr.toNat s.srcLen.toNat) }
  else raiseError Op.crc32 .rangeError s

/-! ### Compression -/

/-- Step 2 of COMPRESS: FREQ counted afresh over the payload, TREE built, CODE derived (43_container.md R178). -/
def compressTables (p : List Byte) (s : State) : State :=
  let f := countBytes clearedFreq p
  let t := buildTree f
  ({ s with freq := f }.setTree (some t)).setCode t

/-- MAGIC as bytes. -/
def Params.magicBytes (p : Params) : List Byte := p.magic.toList

/-- Steps 3 and 4 of COMPRESS: the header fields and the length-prefixed tree, at their offsets from `d`
(43_container.md R178, R179, 30_encoding.md R92). -/
def writeHeader (d n l : Nat) (tree : HTree) (c : Word) (s : State) : State :=
  let s := memWrite s d s.params.magicBytes
  let s := memWrite s (d + 4) (bytesBE s.typ.toNat 4)
  let s := memWrite s (d + 8) (bytesBE l 2)
  let s := memWrite s (d + 10) (memRead s s.nameAddr.toNat l)
  let s := memWrite s (d + 10 + l) (bytesBE formatVersion 2)
  let s := memWrite s (d + 12 + l) (bytesBE n 8)
  let s := memWrite s (d + 20 + l) (bytesBE c.toNat 4)
  let s := memWrite s (d + 24 + l) (bytesBE (treeSize tree) 4)
  memWrite s (d + 28 + l) (ser tree)

/-- The container's total length (43_container.md R174, 30_encoding.md R92). -/
def containerSize (l t b : Nat) : Nat := 29 + l + t + b

/-- `COMPRESS` (43_container.md R178, R180). -/
def execCompress (s : State) : Result :=
  if !regionsOk .compress s then raiseError Op.compress .rangeError s
  else if s.typ ≠ 0 ∧ s.typ ≠ 1 then raiseError Op.compress .unknownType s
  else
    let n := s.srcLen.toNat
    let l := s.nameLen.toNat
    let p := memRead s s.srcAddr.toNat n
    let tree := buildTree (countBytes clearedFreq p)
    let t := treeSize tree
    let b := ceil8 (codeBitCount (genCode tree) p)
    let total := containerSize l t b
    let s := compressTables p s
    if s.dstCap.toNat < total then raiseError Op.compress .capacityError s
    else
      let c := crc32 p
      let d := s.dstAddr.toNat
      let s := writeHeader d n l tree c s
      let s := (encodeInto s.srcAddr.toNat n (d + 28 + l + t) (b + 1) s).2
      complete Op.compress (BitVec.ofNat 32 total)
        { s with crc := c, plenLo := BitVec.ofNat 32 n, plenHi := 0 }

/-! ### Decompression -/

/-- `take(k, E)` at position `pos` of a container of `n` bytes at `a` (43_container.md R185). -/
def takeBytes (s : State) (a n pos k : Nat) (e : ErrorCode) : Except ErrorCode (List Byte) :=
  if n < pos + k then .error e else .ok (memRead s (a + pos) k)

/-- What steps 1 and 2 read: type, name length, payload length, checksum (43_container.md R185). -/
structure Header where
  typ : Nat
  nameLen : Nat
  plen : Nat
  checksum : Nat
deriving DecidableEq, Repr

/-- Where the name stands in a container (30_encoding.md R92). -/
def nameOffset : Nat := 10

/-- Steps 1 and 2 of DECOMPRESS (43_container.md R185, R186, R187, R192). After them, pos = 24 + L. -/
def readHeader (s : State) (a n : Nat) : Except ErrorCode Header :=
  match takeBytes s a n 0 4 .formatError with
  | .error e => .error e
  | .ok m =>
  if m ≠ s.params.magicBytes then .error .formatError else
  match takeBytes s a n 4 4 .ioError with
  | .error e => .error e
  | .ok typ =>
  match takeBytes s a n 8 2 .ioError with
  | .error e => .error e
  | .ok len =>
  let l := beNat len
  match takeBytes s a n nameOffset l .ioError with
  | .error e => .error e
  | .ok _ =>
  match takeBytes s a n (10 + l) 2 .ioError with
  | .error e => .error e
  | .ok _ =>
  match takeBytes s a n (12 + l) 8 .ioError with
  | .error e => .error e
  | .ok plen =>
  match takeBytes s a n (20 + l) 4 .ioError with
  | .error e => .error e
  | .ok cs => .ok ⟨beNat typ, l, beNat plen, beNat cs⟩

/-- Step 3 of DECOMPRESS, from position `pos`: the tree and the position after it; `none` is CORRUPT_TREE
(43_container.md R185, R189). -/
def readTree (s : State) (a n pos : Nat) : Option (HTree × Nat) :=
  match takeBytes s a n pos 4 .corruptTree with
  | .error _ => none
  | .ok len =>
    let t := beNat len
    if n < pos + 4 + t then none
    else
      match parseTree (memRead s (a + (pos + 4)) t) with
      | none => none
      | some tree => some (tree, pos + 4 + t)

/-- The registers a successful DECOMPRESS reports (43_container.md R185, R188, R194). -/
def reportItem (h : Header) (a : Nat) (p : Byte) (s : State) : State :=
  { s with
    typ := BitVec.ofNat 32 h.typ
    nameAddr := BitVec.ofNat 32 (a + nameOffset)
    nameLen := BitVec.ofNat 16 h.nameLen
    plenLo := BitVec.ofNat 32 h.plen
    plenHi := BitVec.ofNat 32 (h.plen / 2 ^ 32)
    crc := BitVec.ofNat 32 h.checksum
    pad := p }

/-- Steps 4 to 7 of DECOMPRESS, TREE being set and `pos` the position after it (43_container.md R185, R190, R191, R193). -/
def decompressPayload (h : Header) (tree : HTree) (a n pos : Nat) (s : State) : Result :=
  if n - pos = 0 then raiseError Op.decompress .corruptPayload s
  else if s.dstCap.toNat < h.plen then raiseError Op.decompress .capacityError s
  else
    match decodeInto tree (a + pos) (n - pos) s.dstAddr.toNat h.plen s with
    | none => raiseError Op.decompress .unexpectedEndOfData (freeDecoded s)
    | some (p, t) =>
      if (crc32 (memRead t s.dstAddr.toNat h.plen)).toNat ≠ h.checksum then
        raiseError Op.decompress .integrityError (freeDecoded s)
      else if h.typ ≠ 0 ∧ h.typ ≠ 1 then raiseError Op.decompress .unknownType (freeDecoded s)
      else complete Op.decompress (BitVec.ofNat 32 h.plen) (reportItem h a p t)

/-- `DECOMPRESS` (43_container.md R185, R193). On every CORRUPT_TREE TREE is absent, the incomplete tree length included:
R193 says so where R185's text is silent (log 10). -/
def execDecompress (s : State) : Result :=
  let a := s.srcAddr.toNat
  let n := s.srcLen.toNat
  if !regionsOk .decompress s then raiseError Op.decompress .rangeError s
  else
    match readHeader s a n with
    | .error e => raiseError Op.decompress e s
    | .ok h =>
      match readTree s a n (24 + h.nameLen) with
      | none => raiseError Op.decompress .corruptTree (s.setTree none)
      | some (tree, pos) => decompressPayload h tree a n pos (s.setTree (some tree))

end Sys2Proof.Machine
end

