-- ==== Sys2Proof/Machine/Control.lean ====
section
/-! DEFINITION. The sequencer's one control command (43_container.md §1). -/

namespace Sys2Proof.Machine

/-- `NOP` (43_container.md R166): STATUS and OUT_LEN = 0, nothing else. -/
def execNop (s : State) : Result := complete Op.nop 0 s

end Sys2Proof.Machine
end

