-- ==== Sys2Proof/Machine/Dispatch.lean ====
section
/-! DEFINITION. One arm for each command (30_encoding.md R84). -/

namespace Sys2Proof.Machine

def exec (i : Instr) (s : State) : Host.Outcome State Fault Refusal :=
  match i with
  -- sequencer
  | .nop => Sys2Proof.Machine.execNop s
  -- bit codec
  | .bwInit => Sys2Proof.Machine.execBwInit s
  | .bwPutBit imm => Sys2Proof.Machine.execBwPutBit imm s
  | .bwPutSymbol imm => Sys2Proof.Machine.execBwPutSymbol imm s
  | .bwFinalize => Sys2Proof.Machine.execBwFinalize s
  | .brInit => Sys2Proof.Machine.execBrInit s
  | .brGetBit => Sys2Proof.Machine.execBrGetBit s
  | .encodePayload => Sys2Proof.Machine.execEncodePayload s
  | .decodePayload => Sys2Proof.Machine.execDecodePayload s
  -- tree builder
  | .freqClear => Sys2Proof.Machine.execFreqClear s
  | .freqCount => Sys2Proof.Machine.execFreqCount s
  | .freqRead imm => Sys2Proof.Machine.execFreqRead imm s
  | .treeBuild => Sys2Proof.Machine.execTreeBuild s
  | .codeGen => Sys2Proof.Machine.execCodeGen s
  | .codeRead imm => Sys2Proof.Machine.execCodeRead imm s
  -- tree serializer
  | .treeSerialize => Sys2Proof.Machine.execTreeSerialize s
  | .treeDeserialize => Sys2Proof.Machine.execTreeDeserialize s
  -- container codec
  | .crc32 => Sys2Proof.Machine.execCrc32 s
  | .compress => Sys2Proof.Machine.execCompress s
  | .decompress => Sys2Proof.Machine.execDecompress s

end Sys2Proof.Machine
end

