-- ==== Sys2Proof/Machine/Flags.lean ====
section
/-! DEFINITION. Status words and the register window: how STATUS, BW_STATE, BR_STATE and TREE_STATE are made of their
fields (10_state.md R23, R28, R32, R36, R37), what a register reads as, and what a host write to it does. -/

namespace Sys2Proof.Machine

/-- The numeric code of 60_exceptions.md R200. -/
def ErrorCode.code : ErrorCode → Byte
  | .noError => 0x00
  | .formatError => 0x01
  | .corruptTree => 0x02
  | .corruptPayload => 0x03
  | .unexpectedEndOfData => 0x04
  | .integrityError => 0x05
  | .unknownType => 0x06
  | .ioError => 0x07
  | .exhausted => 0x08
  | .capacityError => 0x09
  | .rangeError => 0x0A
  | .illegalCommand => 0x0B
  | .stateError => 0x0C

/-- A one-bit field. -/
def bit1 (b : Bool) : BitVec 1 := BitVec.ofBool b

/-- STATUS.BUSY is 1 exactly while SEQ = BUSY (10_state.md R28). -/
def State.busy (s : State) : Bool := s.seq == .busy

/-- STATUS: [0] BUSY, [1] DONE, [2] ERR, [15:8] ERR_CODE, [23:16] LAST_OP (10_state.md R23). -/
def statusWord (s : State) : Word :=
  (0 : BitVec 8) ++ s.status.lastOp ++ s.status.errCode.code ++ (0 : BitVec 5) ++
    bit1 s.status.err ++ bit1 s.status.done ++ bit1 s.busy

/-- BW_STATE: [3:0] NBITS, [15:8] ACC, [31] ACTIVE (10_state.md R23). -/
def bwStateWord (w : BitWriter) : Word :=
  bit1 w.active ++ (0 : BitVec 15) ++ w.acc ++ (0 : BitVec 4) ++ BitVec.ofNat 4 w.nbits.val

/-- BR_STATE: [2:0] BIT, [31] ACTIVE (10_state.md R23). -/
def brStateWord (r : BitReader) : Word :=
  bit1 r.active ++ (0 : BitVec 28) ++ BitVec.ofNat 3 r.bit.val

/-- TREE_VALID = 1 exactly when TREE is present (10_state.md R32). -/
def State.treeValid (s : State) : Bool := s.tree.isSome

/-- NODE_COUNT, 0 when TREE is absent (10_state.md R32). -/
def State.treeNodes (s : State) : Nat :=
  match s.tree with
  | some t => t.nodeCount
  | none => 0

/-- TREE_STATE: [0] TREE_VALID, [1] CODE_VALID, [24:16] NODE_COUNT (10_state.md R23). -/
def treeStateWord (s : State) : Word :=
  (0 : BitVec 7) ++ BitVec.ofNat 9 s.treeNodes ++ (0 : BitVec 14) ++ bit1 s.codeValid ++ bit1 s.treeValid

/-- The register at a byte offset of the window; `none` when the offset is no multiple of 4 in 0x00..0x7C
(10_state.md R23, 20_memory.md R60). -/
def Reg.atOffset (offset : Nat) : Option Reg :=
  if offset % 4 = 0 then
    match offset / 4 with
    | 0 => some .cmd
    | 1 => some .status
    | 2 => some .srcAddr
    | 3 => some .srcLen
    | 4 => some .dstAddr
    | 5 => some .dstCap
    | 6 => some .outLen
    | 7 => some .nameAddr
    | 8 => some .nameLen
    | 9 => some .typ
    | 10 => some .plenLo
    | 11 => some .plenHi
    | 12 => some .crc
    | 13 => some .pad
    | 14 => some .resultLo
    | 15 => some .resultHi
    | 16 => some .bwState
    | 17 => some .bwBytes
    | 18 => some .brState
    | 19 => some .brPos
    | 20 => some .treeState
    | 21 => some .version
    | k + 22 => if h : k < 10 then some (.reserved ⟨k, h⟩) else none
  else none

/-- What a register holds, as a host read sees it while IDLE (10_state.md R23). -/
def readReg (s : State) : Reg → Word
  | .cmd => s.cmd
  | .status => statusWord s
  | .srcAddr => s.srcAddr
  | .srcLen => s.srcLen
  | .dstAddr => s.dstAddr
  | .dstCap => s.dstCap
  | .outLen => s.outLen
  | .nameAddr => s.nameAddr
  | .nameLen => s.nameLen.setWidth 32
  | .typ => s.typ
  | .plenLo => s.plenLo
  | .plenHi => s.plenHi
  | .crc => s.crc
  | .pad => s.pad.setWidth 32
  | .resultLo => s.resultLo
  | .resultHi => s.resultHi
  | .bwState => bwStateWord s.bw
  | .bwBytes => s.bw.bytes
  | .brState => brStateWord s.br
  | .brPos => s.br.pos
  | .treeState => treeStateWord s
  | .version => BitVec.ofNat 32 formatVersion
  | .reserved _ => 0

/-- A host write to a register while IDLE: the argument registers store it, NAME_LEN its low half, CMD starts a command,
and every other register ignores it (10_state.md R21, R24, R25, R23). -/
def writeReg (s : State) (r : Reg) (v : Word) : State :=
  match r with
  | .cmd => s.startCommand v
  | .srcAddr => { s with srcAddr := v }
  | .srcLen => { s with srcLen := v }
  | .dstAddr => { s with dstAddr := v }
  | .dstCap => { s with dstCap := v }
  | .nameAddr => { s with nameAddr := v }
  | .nameLen => { s with nameLen := v.setWidth 16 }
  | .typ => { s with typ := v }
  | .plenLo => { s with plenLo := v }
  | .plenHi => { s with plenHi := v }
  | .status | .outLen | .crc | .pad | .resultLo | .resultHi | .bwState | .bwBytes | .brState | .brPos | .treeState
  | .version | .reserved _ => s

end Sys2Proof.Machine
end

