-- ==== Sys2Proof/Machine/HostPort.lean ====
section
/-! DEFINITION. What the host does to the block: register and MEM accesses, IDLE and BUSY, the reset input, and the host
program's own moves (10_state.md §3, 20_memory.md §3, 30_encoding.md R94, 70_reset_and_hazards.md). -/

namespace Sys2Proof.Machine

/-- The host has read a value. -/
def State.see (s : State) (x : Seen) : State := { s with seen := x :: s.seen }

/-- The register an access of `width` bytes at `offset` reaches; `none` is outside the interface (20_memory.md R60,
70_reset_and_hazards.md R236). -/
def Reg.reached (width offset : Nat) : Option Reg := if width = 4 then Reg.atOffset offset else none

/-- STATUS and VERSION read meaningfully while BUSY, nothing else does (10_state.md R30, 70_reset_and_hazards.md R234). -/
def Reg.readsWhileBusy (r : Reg) : Bool := r == .status || r == .version

/-- A host register read: the register's value, with no side effect (20_memory.md R67); while BUSY an unspecified value
(10_state.md R30; log 8). -/
def hostRegRead (width offset : Nat) (s : State) : Result :=
  match Reg.reached width offset with
  | none => .refused (.regAccessForm width offset)
  | some r =>
    if s.busy && !r.readsWhileBusy then
      .next ({ s with draws := s.draws + 1 }.see (.reg r (Config.freeWord s.draws r)))
    else .next (s.see (.reg r (readReg s r)))

/-- A host register write: ignored while BUSY (10_state.md R29, 70_reset_and_hazards.md R233). -/
def hostRegWrite (width offset : Nat) (v : Word) (s : State) : Result :=
  match Reg.reached width offset with
  | none => .refused (.regAccessForm width offset)
  | some r => if s.busy then .next s else .next (writeReg s r v)

/-- HostMemRead(a): while BUSY an unspecified byte (20_memory.md R63). -/
def hostMemRead (a : Nat) (s : State) : Result :=
  if a < s.params.memBytes then
    if s.busy then .next ({ s with draws := s.draws + 1 }.see (.mem a (Config.freeByte s.draws a)))
    else .next (s.see (.mem a (s.readByte a)))
  else .fault (.memAddressOutside a)

/-- HostMemWrite(a, b): the write happens; while BUSY it makes the running command's results unspecified
(20_memory.md R63, 70_reset_and_hazards.md R233, 93_implementation_defined.md U10; log 9). -/
def hostMemWrite (a : Nat) (b : Byte) (s : State) : Result :=
  if a < s.params.memBytes then .next { s.writeByte a b with disturbed := s.disturbed || s.busy }
  else .fault (.memAddressOutside a)

/-- The byte accesses a wider host write is made of (20_memory.md R63; log 15). -/
def wideWrites (a : Nat) (lanes : List Byte) : List Event :=
  (List.finRange lanes.length).map (fun k => .memWrite (a + (Config.hostMemOrder lanes.length k).val) (lanes.get k))

/-- The byte accesses a wider host read is made of (20_memory.md R63; log 15). -/
def wideReads (a n : Nat) : List Event :=
  (List.finRange n).map (fun k => .memRead (a + (Config.hostMemOrder n k).val))

/-- The reset input, at any time, IDLE or BUSY: everything takes its reset value, MEM and CODE are unspecified afresh, and
a running command reports nothing (70_reset_and_hazards.md R226, R227, 93_implementation_defined.md U20). MAGIC and
MEM_BYTES survive (R229, log 1); the host's own program and what it has read are not the block's (log 18). Assertion and
release are one transition (log 23). -/
def resetBlock (s : State) : State :=
  { State.reset with
    params := s.params
    code := boundedCode (Config.freeCode s.draws)
    memDraw := s.draws
    draws := s.draws + 1
    events := s.events
    seen := s.seen }

/-- The value the host last read from a register. -/
def lastSeen (r : Reg) : List Seen → Option Word
  | [] => none
  | .reg q v :: l => if q = r then some v else lastSeen r l
  | .mem _ _ :: l => lastSeen r l

/-- `if cond: actions` on the value last read from `r`: when it does not hold, or nothing was read, the next `n` events are
left out (30_encoding.md R94; log 17). -/
def hostDecide (r : Reg) (mask value : Word) (n : Nat) (s : State) : State :=
  match lastSeen r s.seen with
  | some v => if v &&& mask = value then s else { s with events := s.events.drop n }
  | none => { s with events := s.events.drop n }

/-- A register with an unspecified value, narrowed to what it holds (93_implementation_defined.md U10). -/
def State.freeReg (s : State) (r : Reg) : State :=
  let v := Config.freeWord s.draws r
  match r with
  | .nameAddr => { s with nameAddr := v }
  | .nameLen => { s with nameLen := v.setWidth 16 }
  | .typ => { s with typ := v }
  | .plenLo => { s with plenLo := v }
  | .plenHi => { s with plenHi := v }
  | .crc => { s with crc := v }
  | .pad => { s with pad := v.setWidth 8 }
  | .resultLo => { s with resultLo := v }
  | .resultHi => { s with resultHi := v }
  | .cmd | .status | .srcAddr | .srcLen | .dstAddr | .dstCap | .outLen | .bwState | .bwBytes | .brState | .brPos
  | .treeState | .version | .reserved _ => s

/-- How a command ends whose results the host has made unspecified by writing MEM while it was BUSY: every register it
writes, FREQ, TREE, CODE, BW and BR, and every byte of its regions (70_reset_and_hazards.md R233,
93_implementation_defined.md U10). SEQ, BUSY, DONE and LAST_OP are what R28 says of every command, ERR agrees with
ERR_CODE (R28), and OUT_LEN is 0 after an error (R235); log 9. -/
def endDisturbed (regs : List Reg) (regions : List Region) (s : State) : State :=
  let e := Config.freeError s.draws
  let t := regs.foldl State.freeReg s
  regions.foldl State.freeRegion
    { t with
      seq := .idle
      status := { done := true, err := e != .noError, errCode := e, lastOp := s.status.lastOp }
      outLen := if e = .noError then Config.freeWord s.draws .outLen else 0
      freq := Config.freeFreq s.draws
      tree := boundedTree (Config.freeTree s.draws)
      code := boundedCode (Config.freeCode s.draws)
      codeValid := Config.freeCodeValid s.draws
      bw := boundedWriter (Config.freeWriter s.draws)
      br := boundedReader (Config.freeReader s.draws)
      draws := s.draws + 1
      disturbed := false }

/-- The regions a command names (30_encoding.md R83). -/
def commandRegions (i : Instr) (s : State) : List Region := readRegions i s ++ (writeRegion i s).toList

end Sys2Proof.Machine
end

