-- ==== Sys2Proof/Machine/Sequencer.lean ====
section
/-! DEFINITION. The sequencer runs the word in CMD, and one event moves one agent (10_state.md R20, R21, R232). -/

namespace Sys2Proof.Machine

/-- The running command ends: the word in CMD is decoded and run as one transition (10_state.md R21,
70_reset_and_hazards.md R232); an illegal word raises ILLEGAL_COMMAND (30_encoding.md R85). -/
def runCommand (s : State) : Result :=
  match decode s.cmd with
  | .ok i => if s.disturbed then .next (endDisturbed (resultRegs i) (commandRegions i s) s) else exec i s
  | .error _ =>
    if s.disturbed then .next (endDisturbed [] [] s) else raiseError (opField s.cmd) .illegalCommand s

/-- The sequencer's move: BUSY, it ends its command; IDLE, it waits (60_exceptions.md R220). -/
def advance (s : State) : Result := if s.busy then runCommand s else .next s

/-- One event, `s` being the state with the event taken off its list. -/
def takeEvent (e : Event) (s : State) : Result :=
  match e with
  | .regWrite width offset v => hostRegWrite width offset v s
  | .regRead width offset => hostRegRead width offset s
  | .memWrite a b => hostMemWrite a b s
  | .memRead a => hostMemRead a s
  | .memWriteWide a lanes => .next { s with events := wideWrites a lanes ++ s.events }
  | .memReadWide a n => .next { s with events := wideReads a n ++ s.events }
  | .wait =>
    if s.busy then advance { s with events := .wait :: s.events } else .next (s.see (.reg .status (statusWord s)))
  | .ifSeen r mask value n => .next (hostDecide r mask value n s)
  | .stop => .next { s with events := [] }
  | .reset => .next (resetBlock s)
  | .sequencer => advance s

end Sys2Proof.Machine
end

