-- ==== Sys2Proof/Machine/Step.lean ====
section
/-! DEFINITION. One step: the next event of State moves its agent; with no event left, the sequencer moves (log 5). -/

namespace Sys2Proof.Machine

def step (s : State) : Host.Outcome State Fault Refusal :=
  match s.events with
  | [] => advance s
  | e :: rest => takeEvent e { s with events := rest }

/-- `s` with the host's CMD write of this word just made and the sequencer to move next: HZL-CORE fetches nothing from
MEM, "the command word written to CMD plays the part of the fetched instruction" (10_state.md R22; log 6). -/
def State.withFetchWord (s : State) (nbits w : Nat) : State :=
  { s.startCommand (BitVec.ofNat 32 (w % 2 ^ nbits)) with events := .sequencer :: s.events }

end Sys2Proof.Machine
end

