-- ==== Sys2Proof/Safety.lean ====
section
/-! DEFINITION. The terms the statements use: what a well-formed state is, in the spec's own limits, and the spec's
byte and bit formats said independently of how the commands compute them. -/

namespace Sys2Proof.Machine

/-- MEM is in canonical form and lists only bytes that exist (20_memory.md R56). -/
def State.memOk (s : State) : Prop := Memory.wf s.mem = true ∧ Memory.within s.params.memBytes s.mem = true

/-- TREE has at most 511 nodes (10_state.md R32, 42_tree_serializer.md R160). -/
def State.treeOk (s : State) : Prop := s.treeNodes ≤ maxNodes

/-- Every code is at most 255 bits long (10_state.md R34, 41_tree_builder.md R131). -/
def State.codeOk (s : State) : Prop := ∀ v, (tableGet s.code v).length ≤ maxCodeLen

/-- The bits of BW.ACC above NBITS are 0 (10_state.md R36). -/
def State.writerOk (s : State) : Prop := s.bw.acc.toNat < 2 ^ s.bw.nbits.val

/-- BR.POS lies in 0..LEN (10_state.md R37). -/
def State.readerOk (s : State) : Prop := s.br.pos ≤ s.br.len

/-- What 10_state.md R28 and 60_exceptions.md R205, R206, R235 say of STATUS at every moment: while BUSY nothing is
reported; ERR agrees with ERR_CODE; an error is reported by a command that has ended, with OUT_LEN = 0; LAST_OP is the
low byte of the last accepted command word; and only a running command can be disturbed. -/
structure State.statusOk (s : State) : Prop where
  busyClears : s.seq = .busy → s.status.done = false ∧ s.status.err = false
  errAgrees : s.status.err = true ↔ s.status.errCode ≠ .noError
  errEnds : s.status.err = true → s.status.done = true ∧ s.outLen = 0
  lastOpIsCmd : s.status.lastOp = opField s.cmd
  disturbedBusy : s.disturbed = true → s.seq = .busy

/-- The machine's invariant. -/
structure State.Inv (s : State) : Prop where
  mem : s.memOk
  tree : s.treeOk
  code : s.codeOk
  writer : s.writerOk
  reader : s.readerOk
  status : s.statusOk

/-- CODE_VALID = 1 says that CODE is the table of the current TREE (10_state.md R34, R35, 41_tree_builder.md R150). -/
def State.codeDerived (s : State) : Prop := s.codeValid = true → ∃ t, s.tree = some t ∧ s.code = genCode t

/-! ### Regions, as the rules word them -/

/-- `a + n ≤ MEM_BYTES` (20_memory.md R64). -/
def State.fitsMem (s : State) (a n : Nat) : Prop := a + n ≤ s.params.memBytes

/-- The two regions share no byte (20_memory.md R65). -/
def apart (a m b n : Nat) : Prop := m = 0 ∨ n = 0 ∨ a + m ≤ b ∨ b + n ≤ a

/-- `t` reads as `s` at every address outside `[a, a + n)`. -/
def SameOutside (s t : State) (a n : Nat) : Prop := ∀ x, x < a ∨ a + n ≤ x → t.readByte x = s.readByte x

/-! ### The register window (10_state.md R23) -/

/-- The map: each offset below the reserved ones and its register. -/
def registerMap : List (Nat × Reg) :=
  [(0x00, .cmd), (0x04, .status), (0x08, .srcAddr), (0x0C, .srcLen), (0x10, .dstAddr), (0x14, .dstCap)] ++
  [(0x18, .outLen), (0x1C, .nameAddr), (0x20, .nameLen), (0x24, .typ), (0x28, .plenLo), (0x2C, .plenHi)] ++
  [(0x30, .crc), (0x34, .pad), (0x38, .resultLo), (0x3C, .resultHi), (0x40, .bwState), (0x44, .bwBytes)] ++
  [(0x48, .brState), (0x4C, .brPos), (0x50, .treeState), (0x54, .version)]

/-- What the 32 words hold, the "fields" column: a word of several fields is the sum of each field at its lowest bit's
place, so every bit outside the fields is 0. ERR_CODE is one of R200's codes. -/
structure State.RegistersHold (s : State) : Prop where
  cmd : readReg s .cmd = s.cmd
  status : (readReg s .status).toNat = (decide (s.seq = .busy)).toNat + 2 * s.status.done.toNat + 4 * s.status.err.toNat +
    2 ^ 8 * s.status.errCode.code.toNat + 2 ^ 16 * s.status.lastOp.toNat
  srcAddr : readReg s .srcAddr = s.srcAddr
  srcLen : readReg s .srcLen = s.srcLen
  dstAddr : readReg s .dstAddr = s.dstAddr
  dstCap : readReg s .dstCap = s.dstCap
  outLen : readReg s .outLen = s.outLen
  nameAddr : readReg s .nameAddr = s.nameAddr
  nameLen : (readReg s .nameLen).toNat = s.nameLen.toNat
  typ : readReg s .typ = s.typ
  plenLo : readReg s .plenLo = s.plenLo
  plenHi : readReg s .plenHi = s.plenHi
  crc : readReg s .crc = s.crc
  pad : (readReg s .pad).toNat = s.pad.toNat
  resultLo : readReg s .resultLo = s.resultLo
  resultHi : readReg s .resultHi = s.resultHi
  bwState : (readReg s .bwState).toNat = s.bw.nbits.val + 2 ^ 8 * s.bw.acc.toNat + 2 ^ 31 * s.bw.active.toNat
  bwBytes : readReg s .bwBytes = s.bw.bytes
  brState : (readReg s .brState).toNat = s.br.bit.val + 2 ^ 31 * s.br.active.toNat
  brPos : readReg s .brPos = s.br.pos
  treeAbsent : s.tree = none → (readReg s .treeState).toNat = 2 * s.codeValid.toNat
  treePresent : ∀ t, s.tree = some t →
    (readReg s .treeState).toNat = 1 + 2 * s.codeValid.toNat + 2 ^ 16 * (t.nodeCount % 2 ^ 9)
  version : readReg s .version = 1
  reserved : ∀ k, readReg s (.reserved k) = 0

/-- The numeric codes of 60_exceptions.md R200. -/
def errorCodes : List (ErrorCode × Nat) :=
  [(.noError, 0x00), (.formatError, 0x01), (.corruptTree, 0x02), (.corruptPayload, 0x03), (.unexpectedEndOfData, 0x04)] ++
  [(.integrityError, 0x05), (.unknownType, 0x06), (.ioError, 0x07), (.exhausted, 0x08), (.capacityError, 0x09)] ++
  [(.rangeError, 0x0A), (.illegalCommand, 0x0B), (.stateError, 0x0C)]

/-! ### Bits and bytes (30_encoding.md R91) -/

/-- The bits of a byte, the first at bit 7 (20_memory.md R59). -/
def byteBits (b : Byte) : Bits := (List.range 8).map (fun j => b.getLsbD (7 - j))

/-- The bits of a byte stream, MSB-first within each byte: bit `j` is position `7 - (j mod 8)` of byte `j div 8`. -/
def unpackBits (bs : List Byte) : Bits := bs.flatMap byteBits

/-- `bytes` is the packing of `bits` (30_encoding.md R91): `ceil(n / 8)` bytes, the bits in order and then `pad` zeros,
with `pad = (8 - (n mod 8)) mod 8`. -/
structure PackedAs (bytes : List Byte) (bits : Bits) (pad : Nat) : Prop where
  count : bytes.length = (bits.length + 7) / 8
  padding : pad = (8 - bits.length % 8) % 8
  stream : unpackBits bytes = bits ++ List.replicate pad false

/-- BW's pending bits, the first written at the most significant place (10_state.md R36). -/
def BitWriter.pending (w : BitWriter) : Bits :=
  (List.range w.nbits.val).map (fun j => w.acc.getLsbD (w.nbits.val - 1 - j))

/-- Every bit put since the writer was opened: the sink's bytes, then the pending bits (40_bit_codec.md R98). -/
def State.writtenBits (s : State) : Bits :=
  unpackBits (memRead s s.bw.base.toNat s.bw.bytes.toNat) ++ s.bw.pending

/-- From `s` to the last state, `bits` were put into the writer, each put by a command that succeeded (40_bit_codec.md R102,
R103); before, between and after the puts stands anything that leaves BW and the bytes already in the sink as they are:
other commands, puts that fail, the host's accesses. -/
inductive PutRun (s : State) : Bits → State → Prop
  | opened : PutRun s [] s
  | bit (bits : Bits) (t u : State) (imm : Byte) : PutRun s bits t → exec (.bwPutBit imm) t = .next u →
      u.status.err = false → PutRun s (bits ++ [imm.getLsbD 0]) u
  | symbol (bits : Bits) (t u : State) (v : Byte) : PutRun s bits t → exec (.bwPutSymbol v) t = .next u →
      u.status.err = false → PutRun s (bits ++ tableGet t.code v) u
  | between (bits : Bits) (t u : State) : PutRun s bits t → u.bw = t.bw →
      (∀ x, t.bw.base.toNat ≤ x → x < t.bw.base.toNat + t.bw.bytes.toNat → u.readByte x = t.readByte x) →
      PutRun s bits u

/-- How many bits a reader has consumed. -/
def BitReader.consumed (r : BitReader) : Nat := 8 * r.pos.toNat + r.bit.val

/-! ### Trees -/

/-- The leaves in preorder, value and weight. -/
def HTree.leafList : HTree → List (Byte × Weight)
  | .leaf v w => [(v, w)]
  | .node _ l r => l.leafList ++ r.leafList

/-- The byte values at the leaves, in preorder. -/
def HTree.values : HTree → List Byte
  | .leaf v _ => [v]
  | .node _ l r => l.values ++ r.values

/-- The root is internal. -/
def HTree.internal : HTree → Bool
  | .leaf _ _ => false
  | .node _ _ _ => true

/-- The number of internal nodes. -/
def HTree.internals : HTree → Nat
  | .leaf _ _ => 0
  | .node _ l r => 1 + l.internals + r.internals

/-- Every internal node's weight is the sum of its children's, modulo 2^64 (41_tree_builder.md R123). -/
def HTree.sums : HTree → Prop
  | .leaf _ _ => True
  | .node w l r => w = l.weight + r.weight ∧ l.sums ∧ r.sums

/-- The tree with every weight 0 (42_tree_serializer.md R158). -/
def HTree.unweighted : HTree → HTree
  | .leaf v _ => .leaf v 0
  | .node _ l r => .node 0 l.unweighted r.unweighted

/-- Each leaf's value and root-to-leaf path, in preorder: 0 for each left descent, 1 for each right descent
(41_tree_builder.md R145). -/
def HTree.paths : HTree → List (Byte × Bits)
  | .leaf v _ => [(v, [])]
  | .node _ l r => l.paths.map (fun p => (p.1, false :: p.2)) ++ r.paths.map (fun p => (p.1, true :: p.2))

/-- One walk along a bit string: the leaf's value and the bits left, or `none` when they run out
(40_bit_codec.md R112). -/
def HTree.follow : HTree → Bits → Option (Byte × Bits)
  | .leaf v _, bs => some (v, bs)
  | .node _ _ _, [] => none
  | .node _ l r, b :: bs => if b then r.follow bs else l.follow bs

/-- `n` walks, each from the root (40_bit_codec.md R112). -/
def HTree.decodeBits (t : HTree) : Nat → Bits → Option (List Byte × Bits)
  | 0, bs => some ([], bs)
  | n + 1, bs =>
    match t.follow bs with
    | none => none
    | some (v, bs) =>
      match t.decodeBits n bs with
      | none => none
      | some (vs, bs) => some (v :: vs, bs)

/-- The concatenated codes of a byte sequence (40_bit_codec.md R110). -/
def payloadBits (c : CodeTable) (p : List Byte) : Bits := p.flatMap (tableGet c)

/-! ### Building a tree (41_tree_builder.md R129) -/

/-- The leaves of the counted byte values in ascending order, numbered from 0. -/
def leafQueue (f : FreqTable) : List QEntry :=
  (((List.range 256).map (BitVec.ofNat 8)).filter (fun v => tableGet f v != 0)).zipIdx.map
    (fun p => ⟨.leaf p.1 (tableGet f p.1), p.2⟩)

/-- The lexicographic order of the keys (weight, seq) (R122). -/
def KeyLess (x y : QEntry) : Prop :=
  x.tree.weight.toNat < y.tree.weight.toNat ∨ (x.tree.weight = y.tree.weight ∧ x.seq < y.seq)

/-- What the merging loop makes of a queue, `next` being the next sequence number: as long as two entries are left, the
two of least key become the children of a new node, the first extracted on the left. -/
inductive Merges : Nat → List QEntry → HTree → Prop
  | one (next : Nat) (a : QEntry) : Merges next [a] a.tree
  | two (next : Nat) (q : List QEntry) (a b : QEntry) (rest : List QEntry) (t : HTree) : q.Perm (a :: b :: rest) →
      (∀ y ∈ b :: rest, KeyLess a y) → (∀ y ∈ rest, KeyLess b y) →
      Merges (next + 1) (⟨.node (a.tree.weight + b.tree.weight) a.tree b.tree, next⟩ :: rest) t → Merges next q t

/-! ### The checksum (43_container.md R169, general knowledge there, log 19), on unbounded integers -/

/-- What one of the eight rounds for a byte makes of `c`. -/
def crcRound (c : Nat) : Nat := if c % 2 = 1 then c / 2 ^^^ 0xEDB88320 else c / 2

/-- What the loop's body makes of `c` for a byte. -/
def crcTake (c : Nat) (x : Byte) : Nat := crcRound^[8] (c ^^^ x.toNat)

/-! ### Containers -/

/-- Everything of a container before its bitstream (30_encoding.md R92). -/
def containerHead (magic : List Byte) (typ : Nat) (name version : List Byte) (n checksum : Nat) (tree : HTree) :
    List Byte :=
  magic ++ bytesBE typ 4 ++ bytesBE name.length 2 ++ name ++ version ++ bytesBE n 8 ++ bytesBE checksum 4 ++
    bytesBE (ser tree).length 4 ++ ser tree

/-- A whole container (30_encoding.md R92). -/
def containerBytes (magic : List Byte) (typ : Nat) (name version : List Byte) (n checksum : Nat) (tree : HTree)
    (stream : List Byte) (pad : Byte) : List Byte :=
  containerHead magic typ name version n checksum tree ++ stream ++ [pad]

/-- Commands one after the other. -/
def runCommands : List Instr → State → Result
  | [], s => .next s
  | i :: is, s =>
    match exec i s with
    | .next t => runCommands is t
    | .fault f => .fault f
    | .refused r => .refused r

/-! ### The conditions of the command rules -/

/-- 30_encoding.md R81: the opcodes of each format. -/
def formatNOps : List Byte :=
  [0x00, 0x10, 0x13, 0x14, 0x15, 0x16, 0x17, 0x20, 0x21, 0x23, 0x24, 0x30, 0x31, 0x40, 0x41, 0x42]
def formatIOps : List Byte := [0x12, 0x22, 0x25]
def formatBOps : List Byte := [0x11]

/-- The errors raised by a command's precheck (the "Precheck" lines of 40 to 43). -/
def precheckError : Instr → ErrorCode → Bool
  | .bwInit, e | .brInit, e | .freqCount, e | .treeDeserialize, e | .crc32, e => e == .rangeError
  | .bwPutBit _, e => e == .illegalCommand || e == .stateError || e == .capacityError || e == .rangeError
  | .bwPutSymbol _, e | .bwFinalize, e | .encodePayload, e | .codeRead _, e | .treeSerialize, e =>
    e == .stateError || e == .capacityError || e == .rangeError
  | .brGetBit, e => e == .stateError || e == .rangeError
  | .decodePayload, e => e == .stateError || e == .rangeError || e == .corruptPayload || e == .capacityError
  | .codeGen, e => e == .stateError
  | .compress, e => e == .rangeError || e == .unknownType
  | .decompress, e => e == .rangeError
  | .nop, _ | .freqClear, _ | .freqRead _, _ | .treeBuild, _ => false

/-- The prechecks of DECODE_PAYLOAD hold (40_bit_codec.md R114). -/
def decodeReady (s : State) : Prop :=
  s.fitsMem s.srcAddr.toNat s.srcLen.toNat ∧ s.fitsMem s.dstAddr.toNat s.dstCap.toNat ∧
  apart s.srcAddr.toNat s.srcLen.toNat s.dstAddr.toNat s.dstCap.toNat ∧ 1 ≤ s.srcLen.toNat ∧ s.plen ≤ s.dstCap.toNat

/-- The precheck of COMPRESS holds (43_container.md R178). -/
def compressReady (s : State) : Prop :=
  s.fitsMem s.srcAddr.toNat s.srcLen.toNat ∧ s.fitsMem s.nameAddr.toNat s.nameLen.toNat ∧
  s.fitsMem s.dstAddr.toNat s.dstCap.toNat ∧
  apart s.srcAddr.toNat s.srcLen.toNat s.dstAddr.toNat s.dstCap.toNat ∧
  apart s.nameAddr.toNat s.nameLen.toNat s.dstAddr.toNat s.dstCap.toNat ∧ (s.typ = 0 ∨ s.typ = 1)

/-- A container in MEM at SRC with its parts (30_encoding.md R92), ready for DECOMPRESS: regions in range and apart, TYPE
and the other fields within their widths. -/
structure ContainerAt (s : State) (typ : Word) (name version : List Byte) (n : Nat) (checksum : Word) (tr : HTree)
    (stream : List Byte) (pad : Byte) : Prop where
  source : s.fitsMem s.srcAddr.toNat s.srcLen.toNat
  dest : s.fitsMem s.dstAddr.toNat s.dstCap.toNat
  disjoint : apart s.srcAddr.toNat s.srcLen.toNat s.dstAddr.toNat s.dstCap.toNat
  nameFits : name.length < 2 ^ 16
  versionFits : version.length = 2
  plenFits : n < 2 ^ 64
  treeFits : tr.nodeCount ≤ 511
  bytes : memRead s s.srcAddr.toNat s.srcLen.toNat =
    containerBytes s.params.magic.toList typ.toNat name version n checksum.toNat tr stream pad

/-- What an error of DECOMPRESS after the tree was parsed leaves (43_container.md R193): TREE the parsed tree, CODE_VALID
0, and TYPE, NAME_ADDR, NAME_LEN, PLEN, CRC, PAD and the rest unchanged. -/
def parsedThen (s t : State) (tr : HTree) (e : ErrorCode) : Prop :=
  t = { s.raised 0x42 e with
    tree := some tr.unweighted, codeValid := false, code := t.code, draws := t.draws, mem := t.mem, br := t.br }

end Sys2Proof.Machine
end

