-- ==== Sys2Proof/Certificates/Slice0/Obligations.lean ====
section
/-! DEFINITION. The statements for the provers. `State.completed` and `State.raised` are the ends of a command that
`CompletionAndErrorEnds` spells out; `t = { … with mem := t.mem }` says that nothing but the named fields changed. -/

open Sys2Proof Sys2Proof.Machine

/-! ### The command word -/

/-- 30_encoding.md R80 to R84, R93: no bit of a command is lost in its word. -/
def Obligations.DecodeOfEncode : Prop :=
  ∀ i : Instr, i.wf = true → decode (encode i) = .ok i

/-- 30_encoding.md R80 to R85: a word that decodes is the encoding of a well-formed command. -/
def Obligations.DecodedWordEncodesBack : Prop :=
  ∀ (w : Word) (i : Instr), decode w = .ok i → i.wf = true ∧ encode i = w

/-- 30_encoding.md R87: exactly one mask and match row, the decoded command's, or none for an illegal word. -/
def Obligations.OneRowOrIllegal : Prop :=
  (∀ (w : Word) (i : Instr), decode w = .ok i →
      (opcodeRows.filter (fun r => r.hits w)).map OpRow.mnemonic = [i.mnemonic]) ∧
  (∀ (w : Word) (e : IllegalWord), decode w = .error e → opcodeRows.filter (fun r => r.hits w) = [])

/-- 30_encoding.md R85: the words (a) to (d); written to CMD while IDLE one starts a command that ends in ILLEGAL_COMMAND
with no other effect. -/
def Obligations.IllegalWordsRaise : Prop :=
  ∀ w : Word,
    ((∃ e, decode w = .error e) ↔
      (opField w ∉ formatNOps ∧ opField w ∉ formatIOps ∧ opField w ∉ formatBOps) ∨
      rsvField w ≠ 0 ∨
      (opField w ∈ formatNOps ∧ immField w ≠ 0) ∨
      (opField w ∈ formatBOps ∧ immField w ≠ 0 ∧ immField w ≠ 1)) ∧
    ∀ s : State, s.seq = .idle → s.events = [.regWrite 4 0x00 w] → (∃ e, decode w = .error e) →
      ∃ t, step s = .next t ∧ t.seq = .busy ∧
        step t = .next { s with
          events := [], disturbed := false, cmd := w, outLen := 0,
          status := { done := true, err := true, errCode := .illegalCommand, lastOp := opField w } }

/-- Sanity: words written out from 30_encoding.md R80 and R84, OP in bits 7..0 and IMM8 in bits 15..8. -/
def Obligations.SampleWordsDecode : Prop :=
  decode 0x00000000 = .ok .nop ∧ decode 0x00000111 = .ok (.bwPutBit 1) ∧ decode 0x00004112 = .ok (.bwPutSymbol 0x41) ∧
  decode 0x00000017 = .ok .decodePayload ∧ decode 0x00004422 = .ok (.freqRead 0x44) ∧
  decode 0x00000024 = .ok .codeGen ∧ decode 0x00000031 = .ok .treeDeserialize ∧ decode 0x00000041 = .ok .compress ∧
  decode 0x00000042 = .ok .decompress ∧ decode 0x00000211 = .error .operandNotBit ∧
  decode 0x00010000 = .error .reservedNotZero ∧ decode 0x000000FF = .error .unknownOpcode

/-! ### Steps -/

/-- 10_state.md R21, R22, 70_reset_and_hazards.md R232: the sequencer's move runs the command in CMD as one transition,
whether the events are used up, say that it moves, or have the host wait for it; and `withFetchWord` starts a command. -/
def Obligations.StepRunsTheDecodedCommand : Prop :=
  ∀ (s : State) (i : Instr) (rest : List Event),
    (s.seq = .busy → s.disturbed = false → decode s.cmd = .ok i →
      (s.events = [] → step s = exec i s) ∧
      (s.events = .sequencer :: rest → step s = exec i { s with events := rest }) ∧
      (s.events = .wait :: rest → step s = exec i s)) ∧
    (∀ nbits w, decodeTableWord nbits w = some i →
      step (s.withFetchWord nbits w) = exec i (s.startCommand (BitVec.ofNat 32 w)))

/-- 10_state.md R21, R28: what a CMD write while IDLE does, and that it alone starts a command: "DONE, ERR and ERR_CODE
are cleared to 0 when the next command starts." -/
def Obligations.CommandWriteStartsCommand : Prop :=
  ∀ (s : State) (w : Word) (rest : List Event), s.seq = .idle → s.events = .regWrite 4 0x00 w :: rest →
    ∃ t, step s = .next t ∧
      t = { s with events := rest, seq := .busy, cmd := w, disturbed := false, status := t.status } ∧
      statusWord t = ((opField w).setWidth 32 <<< 16) ||| 1

/-- 10_state.md R29: a host write to any register while BUSY changes nothing. -/
def Obligations.RegisterWritesWhileBusyIgnored : Prop :=
  ∀ (s : State) (r : Reg) (offset : Nat) (v : Word) (rest : List Event), s.seq = .busy →
    Reg.atOffset offset = some r → s.events = .regWrite 4 offset v :: rest → step s = .next { s with events := rest }

/-- 10_state.md R24, R25: an argument register written while IDLE reads the value back (NAME_LEN its low 16 bits), and no
register but the one written reads differently; a result register, VERSION and a reserved offset ignore the write. -/
def Obligations.ArgumentRegistersStore : Prop :=
  ∀ (s : State) (r : Reg) (offset : Nat) (v : Word) (rest : List Event), s.seq = .idle →
    Reg.atOffset offset = some r → r ≠ .cmd → s.events = .regWrite 4 offset v :: rest →
    ∃ t, step s = .next t ∧
      (∀ q, q ≠ r → readReg t q = readReg s q) ∧
      readReg t r =
        (if r ∈ [.srcAddr, .srcLen, .dstAddr, .dstCap, .nameAddr, .typ, .plenLo, .plenHi] then v
         else if r = .nameLen then v &&& 0xFFFF
         else readReg s r) ∧
      t = { s with
        events := rest, srcAddr := t.srcAddr, srcLen := t.srcLen, dstAddr := t.dstAddr, dstCap := t.dstCap,
        nameAddr := t.nameAddr, nameLen := t.nameLen, typ := t.typ, plenLo := t.plenLo, plenHi := t.plenHi }

/-- 20_memory.md R60, 70_reset_and_hazards.md R236: which REG accesses are outside the interface, all of them refused, and
that no other is. -/
def Obligations.RegisterAccessFormRefused : Prop :=
  ∀ (s : State) (width offset : Nat) (v : Word) (rest : List Event),
    (¬ (width = 4 ∧ offset % 4 = 0 ∧ offset ≤ 0x7C) →
      (s.events = .regWrite width offset v :: rest → step s = .refused (.regAccessForm width offset)) ∧
      (s.events = .regRead width offset :: rest → step s = .refused (.regAccessForm width offset))) ∧
    (width = 4 ∧ offset % 4 = 0 ∧ offset ≤ 0x7C →
      (s.events = .regWrite width offset v :: rest → ∃ t, step s = .next t) ∧
      (s.events = .regRead width offset :: rest → ∃ t, step s = .next t))

/-- 10_state.md R23: where each register of the window stands and what each word holds, in every state. 20_memory.md R67,
10_state.md R30, 20_memory.md R63: a host read changes nothing but what the host has seen (and, while BUSY, the model's
count of free draws), and while IDLE, or of STATUS and VERSION at any time, it sees the register. -/
def Obligations.HostReadsHaveNoEffect : Prop :=
  ∀ (s : State) (rest : List Event),
    (∀ e ∈ registerMap, Reg.atOffset e.1 = some e.2) ∧
    (∀ k : Fin 10, Reg.atOffset (0x58 + 4 * k.val) = some (.reserved k)) ∧
    s.RegistersHold ∧
    (∀ (r : Reg) (offset : Nat), Reg.atOffset offset = some r → s.events = .regRead 4 offset :: rest →
      ∃ v t, step s = .next t ∧ t = { s with events := rest, seen := .reg r v :: s.seen, draws := t.draws } ∧
        (s.seq = .idle ∨ r = .status ∨ r = .version → v = readReg s r ∧ t.draws = s.draws)) ∧
    (∀ a : Nat, a < s.params.memBytes → s.events = .memRead a :: rest →
      ∃ b t, step s = .next t ∧ t = { s with events := rest, seen := .mem a b :: s.seen, draws := t.draws } ∧
        (s.seq = .idle → b = s.readByte a ∧ t.draws = s.draws))

/-- 20_memory.md R62, R63: a host MEM write puts its byte at its address and changes no other byte and no register; while
BUSY it marks the running command as disturbed (70_reset_and_hazards.md R233). -/
def Obligations.HostMemWriteStores : Prop :=
  ∀ (s : State) (a : Nat) (b : Byte) (rest : List Event), a < s.params.memBytes → s.events = .memWrite a b :: rest →
    ∃ t, step s = .next t ∧ t.readByte a = b ∧ (∀ x, x ≠ a → t.readByte x = s.readByte x) ∧
      t = { s with events := rest, mem := t.mem, disturbed := s.disturbed || s.busy }

/-- 70_reset_and_hazards.md R233, 93_implementation_defined.md U10: a disturbed command still ends, IDLE and DONE, writes
no byte outside its regions and no argument register it does not write; the results are unspecified (log 9). -/
def Obligations.DisturbedCommandEnds : Prop :=
  ∀ (s : State) (i : Instr), s.seq = .busy → s.disturbed = true → decode s.cmd = .ok i → s.events = [] →
    ∃ t, step s = .next t ∧ t.seq = .idle ∧ t.status.done = true ∧ t.disturbed = false ∧
      (∀ x, (∀ r ∈ readRegions i s, r.holds x = false) → (∀ w, writeRegion i s = some w → w.holds x = false) →
        t.readByte x = s.readByte x) ∧
      t.cmd = s.cmd ∧ t.srcAddr = s.srcAddr ∧ t.srcLen = s.srcLen ∧ t.dstAddr = s.dstAddr ∧ t.dstCap = s.dstCap ∧
      (∀ r, r ∈ [Reg.nameAddr, .nameLen, .typ, .plenLo, .plenHi, .crc, .pad, .resultLo, .resultHi] →
        r ∉ resultRegs i → readReg t r = readReg s r)

/-! ### Reset -/

/-- 10_state.md R40: the reset state (CODE and MEM are unspecified there). -/
def Obligations.ResetStateValues : Prop :=
  State.reset.seq = .idle ∧
  (∀ r, readReg State.reset r = if r = .version then 1 else 0) ∧
  (∀ v, tableGet State.reset.freq v = 0) ∧
  State.reset.tree = none ∧ State.reset.codeValid = false ∧
  State.reset.bw = { active := false, base := 0, cap := 0, bytes := 0, acc := 0, nbits := 0 } ∧
  State.reset.br = { active := false, base := 0, len := 0, pos := 0, bit := 0 }

/-- 70_reset_and_hazards.md R226, R229: the reset input, at any time, IDLE or BUSY. MAGIC survives by R229; that MEM_BYTES does
(log 1), and that assertion and release are one event (log 23), is the model's choice. -/
def Obligations.ResetInputGivesResetState : Prop :=
  ∀ (s : State) (rest : List Event), s.events = .reset :: rest →
    ∃ t, step s = .next t ∧ t.seq = .idle ∧ statusWord t = 0 ∧
      (∀ r, readReg t r = if r = .version then 1 else 0) ∧ (∀ v, tableGet t.freq v = 0) ∧
      t.tree = none ∧ t.codeValid = false ∧
      t.bw = { active := false, base := 0, cap := 0, bytes := 0, acc := 0, nbits := 0 } ∧
      t.br = { active := false, base := 0, len := 0, pos := 0, bit := 0 } ∧
      t.params = s.params

/-! ### Invariants and rules of the whole machine -/

/-- The invariant holds after reset; the canonical form of MEM is the model's choice (log 3). -/
def Obligations.ResetIsWellFormed : Prop := State.reset.Inv

/-- Every step keeps MEM canonical and inside MEM_BYTES, TREE within 511 nodes (R160), every code within 255 bits (R131),
BW and BR within R36 and R37, and STATUS as R28, R205, R206 and R235 say. It rests on three choices of the model's: MEM's
canonical form (log 3), the limits it lets a disturbed command's free results keep (log 9), and POS ≤ LEN for the free BR a
failed decoding leaves (log 13). Log 9 calls itself unsafe for this claim: the spec does not say that the limits hold of a
disturbed command's results. -/
def Obligations.StepKeepsInvariant : Prop := ∀ s t : State, s.Inv → step s = .next t → t.Inv

/-- No step changes MAGIC (70_reset_and_hazards.md R229) or MEM_BYTES (a parameter by 00_scope.md R11 and 20_memory.md R56;
that no step changes it is the model's choice, log 1). -/
def Obligations.BuildParametersFixed : Prop := ∀ s t : State, step s = .next t → t.params = s.params

/-- 10_state.md R34, R35, 41_tree_builder.md R150: CODE_VALID = 1 always says that CODE is the current TREE's table, unless
the host disturbs a running command (R233). -/
def Obligations.CodeValidSaysDerived : Prop :=
  State.reset.codeDerived ∧
    ∀ s t : State, s.disturbed = false → s.codeDerived → step s = .next t → t.codeDerived

/-- 60_exceptions.md R205, R206, R210: what every completion and every error does, spelled out; `complete` and `raiseError`
are the two ends every command shares. ERR_CODE is the code of R200. -/
def Obligations.CompletionAndErrorEnds : Prop :=
  ∀ (s : State) (op : Byte) (k : Word) (e : ErrorCode),
    complete op k s = .next (s.completed op k) ∧ raiseError op e s = .next (s.raised op e) ∧
    s.completed op k = { s with
      outLen := k, seq := .idle, status := { done := true, err := false, errCode := .noError, lastOp := op } } ∧
    s.raised op e = { s with
      outLen := 0, seq := .idle, status := { done := true, err := true, errCode := e, lastOp := op } } ∧
    statusWord (s.completed op k) = (op.setWidth 32 <<< 16) ||| 2 ∧
    (∀ n, (e, n) ∈ errorCodes →
      statusWord (s.raised op e) = (op.setWidth 32 <<< 16) ||| (BitVec.ofNat 32 n <<< 8) ||| 6 ∧ e.code.toNat = n) ∧
    ∃ n ≤ 0x0C, (e, n) ∈ errorCodes

/-- 60_exceptions.md R205, R206, R213, 70_reset_and_hazards.md R235, R242: every command, from every state, ends: IDLE,
DONE, LAST_OP its opcode, ERR agreeing with ERR_CODE, OUT_LEN = 0 after an error. -/
def Obligations.EveryCommandEnds : Prop :=
  ∀ (i : Instr) (s : State), ∃ t, exec i s = .next t ∧ t.seq = .idle ∧ t.status.done = true ∧
    t.status.lastOp = i.opcode ∧ (t.status.err = true ↔ t.status.errCode ≠ .noError) ∧
    (t.status.err = true → t.outLen = 0)

/-- 20_memory.md R66: a command writes only inside its write region, and the commands that write no MEM leave all of it. -/
def Obligations.WritesConfinedToRegion : Prop :=
  ∀ (i : Instr) (s t : State), exec i s = .next t →
    (∀ x, (∀ w, writeRegion i s = some w → w.holds x = false) → t.readByte x = s.readByte x) ∧
    (i.opcode ∉ [(0x11 : Byte), 0x12, 0x13, 0x16, 0x17, 0x30, 0x25, 0x41, 0x42] → ∀ x, t.readByte x = s.readByte x)

/-- 60_exceptions.md R207: an error raised by a precheck changes STATUS, OUT_LEN and SEQ, nothing else. -/
def Obligations.PrecheckErrorsLeaveNoTrace : Prop :=
  ∀ (i : Instr) (s t : State), exec i s = .next t → t.status.err = true →
    precheckError i t.status.errCode = true →
    t = { s with
      seq := .idle, outLen := 0,
      status := { done := true, err := true, errCode := t.status.errCode, lastOp := i.opcode } }

/-- 60_exceptions.md R200: which errors each command can raise ("raised by"; RANGE_ERROR "every command that names a
region"). -/
def Obligations.EachErrorOnlyWhereListed : Prop :=
  ∀ (i : Instr) (s t : State), exec i s = .next t → t.status.err = true →
    match t.status.errCode with
    | .noError => False
    | .formatError | .integrityError | .ioError => i = .decompress
    | .corruptTree => i = .treeDeserialize ∨ i = .decompress
    | .corruptPayload | .unexpectedEndOfData => i = .decompress ∨ i = .decodePayload
    | .unknownType => i = .decompress ∨ i = .compress
    | .exhausted => i = .brGetBit
    | .capacityError => i.opcode ∈ [(0x11 : Byte), 0x12, 0x13, 0x16, 0x17, 0x25, 0x30, 0x41, 0x42]
    | .rangeError => (readRegions i s).length + (writeRegion i s).toList.length ≠ 0
    | .illegalCommand => i.wf = false
    | .stateError => i.opcode ∈ [(0x11 : Byte), 0x12, 0x13, 0x15, 0x16, 0x17, 0x24, 0x25, 0x30]

/-! ### Sequencer and tables -/

/-- 43_container.md R166: NOP. -/
def Obligations.NopOnlyReports : Prop :=
  ∀ s : State, exec .nop s = .next { s with
    seq := .idle, outLen := 0, status := { done := true, err := false, errCode := .noError, lastOp := 0x00 } }

/-- 41_tree_builder.md R126: FREQ_CLEAR zeroes FREQ and leaves TREE, CODE and everything else. -/
def Obligations.FreqClearZeroesFreq : Prop :=
  ∀ s : State, ∃ t, exec .freqClear s = .next t ∧ (∀ v, tableGet t.freq v = 0) ∧
    t = { s.completed 0x20 0 with freq := t.freq }

/-- 41_tree_builder.md R127: FREQ_COUNT adds each byte value's number of occurrences, modulo 2^64, and changes nothing
else; a source outside MEM is a RANGE_ERROR. -/
def Obligations.FreqCountAddsOccurrences : Prop :=
  ∀ s : State,
    (s.fitsMem s.srcAddr.toNat s.srcLen.toNat →
      ∃ t, exec .freqCount s = .next t ∧
        (∀ v, tableGet t.freq v =
          tableGet s.freq v + BitVec.ofNat 64 ((memRead s s.srcAddr.toNat s.srcLen.toNat).count v)) ∧
        t = { s.completed 0x21 0 with freq := t.freq }) ∧
    (¬ s.fitsMem s.srcAddr.toNat s.srcLen.toNat → exec .freqCount s = .next (s.raised 0x21 .rangeError))

/-- 41_tree_builder.md R128: FREQ_READ v splits FREQ[v] over RESULT_HI and RESULT_LO. -/
def Obligations.FreqReadReturnsCounter : Prop :=
  ∀ (s : State) (v : Byte), ∃ t, exec (.freqRead v) s = .next t ∧
    t.resultHi.toNat * 2 ^ 32 + t.resultLo.toNat = (tableGet s.freq v).toNat ∧
    t = { s.completed 0x22 0 with resultLo := t.resultLo, resultHi := t.resultHi }

/-! ### Tree builder -/

/-- 41_tree_builder.md R129, R122, R123, R132, R133: TREE_BUILD puts build_tree's result in TREE: the placeholder, the
one-value tree, or what the merging loop makes of the numbered leaves, taking the least keys two at a time. -/
def Obligations.TreeBuildFollowsTheLoop : Prop :=
  ∀ s : State, ∃ t tr, exec .treeBuild s = .next t ∧ t.tree = some tr ∧
    (leafQueue s.freq = [] → tr = .leaf 0x00 0) ∧
    (∀ v w k, leafQueue s.freq = [⟨.leaf v w, k⟩] → tr = .node w (.leaf v w) (.leaf (v + 1) 0)) ∧
    (2 ≤ (leafQueue s.freq).length → Merges (leafQueue s.freq).length (leafQueue s.freq) tr)

/-- 41_tree_builder.md R129, R132, R133, R134, R135, R137, R130: TREE_BUILD succeeds from every state, changes TREE and
CODE_VALID alone (CODE's contents are unspecified while CODE_VALID = 0, log 4), and the tree it builds is the placeholder
leaf for no value, the one-value tree with its dummy for one value, and for more values a tree whose leaves are exactly
the counted values, each once, with its count, whose weights add up, of 2d - 1 nodes. -/
def Obligations.TreeBuildBuildsFromFreq : Prop :=
  ∀ s : State, ∃ t tr, exec .treeBuild s = .next t ∧
    t = { s.completed 0x23 0 with tree := some tr, codeValid := false, code := t.code, draws := t.draws } ∧
    ((∀ v, tableGet s.freq v = 0) → tr = .leaf 0x00 0) ∧
    (∀ v, tableGet s.freq v ≠ 0 → (∀ u, u ≠ v → tableGet s.freq u = 0) →
      tr = .node (tableGet s.freq v) (.leaf v (tableGet s.freq v)) (.leaf (v + 1) 0)) ∧
    (∀ u v, u ≠ v → tableGet s.freq u ≠ 0 → tableGet s.freq v ≠ 0 →
      tr.values.Nodup ∧ (∀ x w, (x, w) ∈ tr.leafList ↔ tableGet s.freq x = w ∧ w ≠ 0) ∧ tr.sums ∧
      tr.nodeCount = 2 * (Finset.univ.filter (fun x : Byte => tableGet s.freq x ≠ 0)).card - 1)

/-- 41_tree_builder.md R137, R130: every built tree has distinct leaf values and fits the node arena. -/
def Obligations.BuiltTreeIsValid : Prop :=
  ∀ f : FreqTable, (buildTree f).values.Nodup ∧ (buildTree f).nodeCount ≤ 511 ∧
    (buildTree f).nodeCount + 1 = 2 * (buildTree f).values.length

/-- 41_tree_builder.md R145, R146, R148: CODE_GEN gives every value the path of its last leaf in preorder, no code to a
value without a leaf, "0" to a leaf root; it changes CODE and CODE_VALID alone, and needs a TREE. -/
def Obligations.CodeGenDerivesTable : Prop :=
  ∀ s : State,
    (s.tree = none → exec .codeGen s = .next (s.raised 0x24 .stateError)) ∧
    (∀ tr, s.tree = some tr → ∃ t, exec .codeGen s = .next t ∧
      t = { s.completed 0x24 0 with code := t.code, codeValid := true } ∧
      (∀ v w, tr = .leaf v w → ∀ x, tableGet t.code x = if x = v then [false] else []) ∧
      (tr.internal = true → ∀ x, tableGet t.code x =
        (((tr.paths.filter (fun p => p.1 == x)).getLast?).map (·.2)).getD []))

/-- 41_tree_builder.md R147: the prefix property of a derived table. -/
def Obligations.DerivedCodeIsPrefixCode : Prop :=
  ∀ (s t : State) (tr : HTree), s.tree = some tr → tr.internal = true → tr.values.Nodup → exec .codeGen s = .next t →
    (∀ v ∈ tr.values, (v, tableGet t.code v) ∈ tr.paths ∧ 1 ≤ (tableGet t.code v).length) ∧
    (∀ u ∈ tr.values, ∀ v ∈ tr.values, u ≠ v → ¬ (tableGet t.code u <+: tableGet t.code v)) ∧
    (∀ v ∈ tr.values, ∀ rest, tr.follow (tableGet t.code v ++ rest) = some (v, rest))

/-- 41_tree_builder.md R131: a tree of at most 511 nodes gives codes of at most 255 bits. -/
def Obligations.CodeLengthBound : Prop :=
  ∀ (t : HTree) (v : Byte), t.nodeCount ≤ 511 → (tableGet (genCode t) v).length ≤ 255

/-- 41_tree_builder.md R149: CODE_READ v writes the code packed MSB-first, its length to RESULT_LO and its byte count to
OUT_LEN, and nothing else; and its errors, in their order. -/
def Obligations.CodeReadReturnsCode : Prop :=
  ∀ (s : State) (v : Byte),
    (s.codeValid = false → exec (.codeRead v) s = .next (s.raised 0x25 .stateError)) ∧
    (s.codeValid = true → ¬ s.fitsMem s.dstAddr.toNat s.dstCap.toNat →
      exec (.codeRead v) s = .next (s.raised 0x25 .rangeError)) ∧
    (s.codeValid = true → s.fitsMem s.dstAddr.toNat s.dstCap.toNat →
      s.dstCap.toNat < ((tableGet s.code v).length + 7) / 8 →
      exec (.codeRead v) s = .next (s.raised 0x25 .capacityError)) ∧
    (s.codeValid = true → s.fitsMem s.dstAddr.toNat s.dstCap.toNat →
      ((tableGet s.code v).length + 7) / 8 ≤ s.dstCap.toNat →
      ∃ t m pad, exec (.codeRead v) s = .next t ∧ m = ((tableGet s.code v).length + 7) / 8 ∧
        PackedAs (memRead t s.dstAddr.toNat m) (tableGet s.code v) pad ∧ SameOutside s t s.dstAddr.toNat m ∧
        t = { s.completed 0x25 (BitVec.ofNat 32 m) with
          mem := t.mem, resultLo := BitVec.ofNat 32 (tableGet s.code v).length, resultHi := 0 })

/-! ### Tree serializer -/

/-- 42_tree_serializer.md R155: the size of a token stream. -/
def Obligations.SerializedSize : Prop :=
  ∀ t : HTree, (ser t).length = 2 * t.values.length + t.internals ∧ (ser t).length + 1 = 3 * t.values.length ∧
    (t.nodeCount ≤ 511 → (ser t).length ≤ 767)

/-- 42_tree_serializer.md R163: parse and ser are inverse, between trees of at most 511 nodes with weight 0 and the byte
strings parse accepts. -/
def Obligations.ParseInvertsSer : Prop :=
  (∀ t : HTree, t.nodeCount ≤ 511 → parseTree (ser t) = some t.unweighted) ∧
  (∀ (bs : List Byte) (t : HTree), parseTree bs = some t → ser t = bs ∧ t.nodeCount ≤ 511 ∧ t.unweighted = t)

/-- 42_tree_serializer.md R153, R154, 30_encoding.md R89: TREE_SERIALIZE writes the token stream, tags 0x01 and 0x00 in
preorder, and nothing else; and its errors, in their order. -/
def Obligations.TreeSerializeWritesTokens : Prop :=
  (∀ v w, ser (.leaf v w) = [0x01, v]) ∧ (∀ w l r, ser (.node w l r) = 0x00 :: (ser l ++ ser r)) ∧
  ∀ s : State,
    (s.tree = none → exec .treeSerialize s = .next (s.raised 0x30 .stateError)) ∧
    (∀ tr, s.tree = some tr → ¬ s.fitsMem s.dstAddr.toNat s.dstCap.toNat →
      exec .treeSerialize s = .next (s.raised 0x30 .rangeError)) ∧
    (∀ tr, s.tree = some tr → s.fitsMem s.dstAddr.toNat s.dstCap.toNat → s.dstCap.toNat < (ser tr).length →
      exec .treeSerialize s = .next (s.raised 0x30 .capacityError)) ∧
    (∀ tr, s.tree = some tr → s.fitsMem s.dstAddr.toNat s.dstCap.toNat → (ser tr).length ≤ s.dstCap.toNat →
      ∃ t, exec .treeSerialize s = .next t ∧ memRead t s.dstAddr.toNat (ser tr).length = ser tr ∧
        SameOutside s t s.dstAddr.toNat (ser tr).length ∧
        t = { s.completed 0x30 (BitVec.ofNat 32 (ser tr).length) with mem := t.mem })

/-- 42_tree_serializer.md R157: TREE_DESERIALIZE on the bytes of a tree gives the tree with weights 0; on bytes that are no
tree's it raises CORRUPT_TREE with TREE absent; either way CODE_VALID = 0 and nothing else changes. -/
def Obligations.TreeDeserializeParses : Prop :=
  ∀ s : State,
    (¬ s.fitsMem s.srcAddr.toNat s.srcLen.toNat → exec .treeDeserialize s = .next (s.raised 0x31 .rangeError)) ∧
    (∀ tr : HTree, s.fitsMem s.srcAddr.toNat s.srcLen.toNat → tr.nodeCount ≤ 511 →
      memRead s s.srcAddr.toNat s.srcLen.toNat = ser tr →
      ∃ t, exec .treeDeserialize s = .next t ∧
        t = { s.completed 0x31 0 with tree := some tr.unweighted, codeValid := false, code := t.code, draws := t.draws }) ∧
    (s.fitsMem s.srcAddr.toNat s.srcLen.toNat →
      (∀ tr : HTree, tr.nodeCount ≤ 511 → memRead s s.srcAddr.toNat s.srcLen.toNat ≠ ser tr) →
      ∃ t, exec .treeDeserialize s = .next t ∧
        t = { s.raised 0x31 .corruptTree with tree := none, codeValid := false, code := t.code, draws := t.draws })

/-! ### Bit codec: the writer -/

/-- 40_bit_codec.md R101: BW_INIT opens a writer on (DST_ADDR, DST_CAP), discarding pending bits, or raises RANGE_ERROR. -/
def Obligations.BwInitOpensWriter : Prop :=
  ∀ s : State,
    (s.fitsMem s.dstAddr.toNat s.dstCap.toNat → exec .bwInit s = .next { s.completed 0x10 0 with
      bw := { active := true, base := s.dstAddr, cap := s.dstCap, bytes := 0, acc := 0, nbits := 0 } }) ∧
    (¬ s.fitsMem s.dstAddr.toNat s.dstCap.toNat → exec .bwInit s = .next (s.raised 0x10 .rangeError))

/-- 40_bit_codec.md R98, R99, R102: BW_PUT_BIT b. Seven bits or fewer stay pending; the eighth stores the byte at
BW.BASE + BW.BYTES and no other; the errors in their order. The sink lies in MEM, as BW_INIT has checked. -/
def Obligations.BwPutBitAppends : Prop :=
  ∀ (s : State) (imm : Byte),
    (imm ≠ 0 → imm ≠ 1 → exec (.bwPutBit imm) s = .next (s.raised 0x11 .illegalCommand)) ∧
    (imm = 0 ∨ imm = 1 → s.bw.active = false → exec (.bwPutBit imm) s = .next (s.raised 0x11 .stateError)) ∧
    (imm = 0 ∨ imm = 1 → s.bw.active = true → s.bw.cap.toNat < s.bw.bytes.toNat + (s.bw.nbits.val + 1) / 8 →
      exec (.bwPutBit imm) s = .next (s.raised 0x11 .capacityError)) ∧
    (imm = 0 ∨ imm = 1 → s.bw.active = true → s.bw.bytes.toNat + (s.bw.nbits.val + 1) / 8 ≤ s.bw.cap.toNat →
      s.fitsMem s.bw.base.toNat s.bw.cap.toNat →
      ∃ t, exec (.bwPutBit imm) s = .next t ∧
        t = { s.completed 0x11 t.bw.bytes with mem := t.mem, bw := { s.bw with
          bytes := t.bw.bytes, acc := t.bw.acc, nbits := t.bw.nbits } } ∧
        (s.bw.nbits.val < 7 → t.bw.nbits.val = s.bw.nbits.val + 1 ∧
          t.bw.acc.toNat = (2 * s.bw.acc.toNat + imm.toNat) % 256 ∧ t.bw.bytes = s.bw.bytes ∧
          ∀ x, t.readByte x = s.readByte x) ∧
        (s.bw.nbits.val = 7 → t.bw.nbits.val = 0 ∧ t.bw.acc = 0 ∧ t.bw.bytes.toNat = s.bw.bytes.toNat + 1 ∧
          (t.readByte (s.bw.base.toNat + s.bw.bytes.toNat)).toNat = (2 * s.bw.acc.toNat + imm.toNat) % 256 ∧
          SameOutside s t (s.bw.base.toNat + s.bw.bytes.toNat) 1))

/-- 40_bit_codec.md R103: BW_PUT_SYMBOL v appends exactly the bits of CODE[v] to what has been written, storing only the
bytes they complete; and its errors, in their order. -/
def Obligations.BwPutSymbolAppendsCode : Prop :=
  ∀ (s : State) (v : Byte),
    (s.bw.active = false ∨ s.codeValid = false ∨ tableGet s.code v = [] →
      exec (.bwPutSymbol v) s = .next (s.raised 0x12 .stateError)) ∧
    (s.bw.active = true → s.codeValid = true → tableGet s.code v ≠ [] →
      s.bw.cap.toNat < s.bw.bytes.toNat + (s.bw.nbits.val + (tableGet s.code v).length) / 8 →
      exec (.bwPutSymbol v) s = .next (s.raised 0x12 .capacityError)) ∧
    (s.bw.active = true → s.codeValid = true → tableGet s.code v ≠ [] →
      s.bw.bytes.toNat + (s.bw.nbits.val + (tableGet s.code v).length) / 8 ≤ s.bw.cap.toNat →
      s.fitsMem s.bw.base.toNat s.bw.cap.toNat →
      ∃ t, exec (.bwPutSymbol v) s = .next t ∧
        t.writtenBits = s.writtenBits ++ tableGet s.code v ∧
        8 * t.bw.bytes.toNat + t.bw.nbits.val =
          8 * s.bw.bytes.toNat + s.bw.nbits.val + (tableGet s.code v).length ∧
        SameOutside s t (s.bw.base.toNat + s.bw.bytes.toNat) (t.bw.bytes.toNat - s.bw.bytes.toNat) ∧
        t = { s.completed 0x12 t.bw.bytes with mem := t.mem, bw := { s.bw with
          bytes := t.bw.bytes, acc := t.bw.acc, nbits := t.bw.nbits } })

/-- 40_bit_codec.md R104: BW_FINALIZE stores the pending bits, zero-padded on the right, reports the padding and closes the
writer; and its errors, in their order. -/
def Obligations.BwFinalizeFlushes : Prop :=
  ∀ s : State,
    (s.bw.active = false → exec .bwFinalize s = .next (s.raised 0x13 .stateError)) ∧
    (s.bw.active = true → 0 < s.bw.nbits.val → s.bw.cap.toNat ≤ s.bw.bytes.toNat →
      exec .bwFinalize s = .next (s.raised 0x13 .capacityError)) ∧
    (s.bw.active = true → (s.bw.nbits.val = 0 ∨ s.bw.bytes.toNat < s.bw.cap.toNat) →
      s.fitsMem s.bw.base.toNat s.bw.cap.toNat →
      ∃ t, exec .bwFinalize s = .next t ∧
        t = { s.completed 0x13 t.bw.bytes with mem := t.mem, pad := t.pad, bw := { s.bw with
          active := false, acc := 0, nbits := 0, bytes := t.bw.bytes } } ∧
        (s.bw.nbits.val = 0 → t.pad = 0 ∧ t.bw.bytes = s.bw.bytes ∧ ∀ x, t.readByte x = s.readByte x) ∧
        (0 < s.bw.nbits.val → t.pad.toNat = 8 - s.bw.nbits.val ∧ t.bw.bytes.toNat = s.bw.bytes.toNat + 1 ∧
          (t.readByte (s.bw.base.toNat + s.bw.bytes.toNat)).toNat =
            (s.bw.acc.toNat * 2 ^ (8 - s.bw.nbits.val)) % 256 ∧
          SameOutside s t (s.bw.base.toNat + s.bw.bytes.toNat) 1))

/-- 40_bit_codec.md R105, 30_encoding.md R91: after BW_INIT, whatever bits BW_PUT_BIT and BW_PUT_SYMBOL have put, BW_FINALIZE
leaves exactly the packed bit string in the sink and its pad count in PAD, whatever was before and whatever stood between;
and a run of puts alone completes whenever the packed string fits, storing nothing else. -/
def Obligations.WriterPacksItsBits : Prop :=
  ∀ s : State,
    (∀ (t u x : State) (bits : Bits), exec .bwInit s = .next t → t.status.err = false → PutRun t bits u →
      exec .bwFinalize u = .next x → x.status.err = false →
      PackedAs (memRead x s.dstAddr.toNat x.outLen.toNat) bits x.pad.toNat) ∧
    (∀ (puts : List (Bool ⊕ Byte)) (bits : Bits), s.fitsMem s.dstAddr.toNat s.dstCap.toNat →
      (∀ v, .inr v ∈ puts → s.codeValid = true ∧ tableGet s.code v ≠ []) →
      bits = puts.flatMap (Sum.elim (fun b => [b]) (tableGet s.code)) → (bits.length + 7) / 8 ≤ s.dstCap.toNat →
      ∃ t, runCommands (.bwInit :: puts.map (Sum.elim (fun b => .bwPutBit (if b then 1 else 0)) .bwPutSymbol) ++
          [.bwFinalize]) s = .next t ∧
        PackedAs (memRead t s.dstAddr.toNat t.outLen.toNat) bits t.pad.toNat ∧
        SameOutside s t s.dstAddr.toNat t.outLen.toNat ∧ t.status.err = false ∧ t.bw.active = false)

/-! ### Bit codec: the reader -/

/-- 40_bit_codec.md R106: BR_INIT opens a reader on (SRC_ADDR, SRC_LEN), or raises RANGE_ERROR. -/
def Obligations.BrInitOpensReader : Prop :=
  ∀ s : State,
    (s.fitsMem s.srcAddr.toNat s.srcLen.toNat → exec .brInit s = .next { s.completed 0x14 0 with
      br := { active := true, base := s.srcAddr, len := s.srcLen, pos := 0, bit := 0 } }) ∧
    (¬ s.fitsMem s.srcAddr.toNat s.srcLen.toNat → exec .brInit s = .next (s.raised 0x14 .rangeError))

/-- 40_bit_codec.md R100, R107, R59: BR_GET_BIT returns the next bit of the source, MSB-first, and moves the cursor one bit;
at the end it raises EXHAUSTED and changes nothing. The source lies in MEM, as BR_INIT has checked. -/
def Obligations.BrGetBitReadsNextBit : Prop :=
  ∀ s : State,
    (s.br.active = false → exec .brGetBit s = .next (s.raised 0x15 .stateError)) ∧
    (s.br.active = true → s.fitsMem s.br.base.toNat s.br.len.toNat → s.br.pos = s.br.len →
      exec .brGetBit s = .next (s.raised 0x15 .exhausted)) ∧
    (s.br.active = true → s.fitsMem s.br.base.toNat s.br.len.toNat → s.br.pos < s.br.len →
      ∃ t b, exec .brGetBit s = .next t ∧
        (unpackBits (memRead s s.br.base.toNat s.br.len.toNat))[s.br.consumed]? = some b ∧
        t.resultLo = (if b then 1 else 0) ∧ t.br.consumed = s.br.consumed + 1 ∧
        t = { s.completed 0x15 0 with
          resultLo := t.resultLo, resultHi := 0, br := { s.br with pos := t.br.pos, bit := t.br.bit } })

/-! ### Bit codec: whole payloads -/

/-- 40_bit_codec.md R109, R110, R111: ENCODE_PAYLOAD writes the packed concatenation of the codes and the pad-count byte,
closes the writer, and changes nothing else; and its errors, in their order. -/
def Obligations.EncodePayloadWritesBitstream : Prop :=
  ∀ (s : State) (p : List Byte) (bits : Bits), p = memRead s s.srcAddr.toNat s.srcLen.toNat →
    bits = payloadBits s.code p →
    (s.codeValid = false → exec .encodePayload s = .next (s.raised 0x16 .stateError)) ∧
    (s.codeValid = true →
      ¬ (s.fitsMem s.srcAddr.toNat s.srcLen.toNat ∧ s.fitsMem s.dstAddr.toNat s.dstCap.toNat ∧
        apart s.srcAddr.toNat s.srcLen.toNat s.dstAddr.toNat s.dstCap.toNat) →
      exec .encodePayload s = .next (s.raised 0x16 .rangeError)) ∧
    (s.codeValid = true → s.fitsMem s.srcAddr.toNat s.srcLen.toNat → s.fitsMem s.dstAddr.toNat s.dstCap.toNat →
      apart s.srcAddr.toNat s.srcLen.toNat s.dstAddr.toNat s.dstCap.toNat →
      ((∃ v ∈ p, tableGet s.code v = []) → exec .encodePayload s = .next (s.raised 0x16 .stateError)) ∧
      ((∀ v ∈ p, tableGet s.code v ≠ []) → s.dstCap.toNat < (bits.length + 7) / 8 + 1 →
        exec .encodePayload s = .next (s.raised 0x16 .capacityError)) ∧
      ((∀ v ∈ p, tableGet s.code v ≠ []) → (bits.length + 7) / 8 + 1 ≤ s.dstCap.toNat →
        ∃ t, exec .encodePayload s = .next t ∧
          PackedAs (memRead t s.dstAddr.toNat ((bits.length + 7) / 8)) bits t.pad.toNat ∧
          t.readByte (s.dstAddr.toNat + (bits.length + 7) / 8) = t.pad ∧
          SameOutside s t s.dstAddr.toNat ((bits.length + 7) / 8 + 1) ∧
          t = { s.completed 0x16 (BitVec.ofNat 32 ((bits.length + 7) / 8 + 1)) with
            mem := t.mem, pad := t.pad, bw := {
              active := false, base := s.dstAddr, cap := s.dstCap,
              bytes := BitVec.ofNat 32 ((bits.length + 7) / 8), acc := 0, nbits := 0 } }))

/-- 40_bit_codec.md R114: the precheck errors in their order; then DECODE_PAYLOAD emits the leaves of PLEN walks over the
bitstream, reports the last byte in PAD, leaves the reader after the last consumed bit and changes nothing else; when the
bits run out it raises UNEXPECTED_END_OF_DATA, with the destination region and BR unspecified and PAD and every other byte
unchanged. -/
def Obligations.DecodePayloadWalksTree : Prop :=
  ∀ s : State,
    (s.tree = none → exec .decodePayload s = .next (s.raised 0x17 .stateError)) ∧
    (∀ tr, s.tree = some tr →
      (¬ (s.fitsMem s.srcAddr.toNat s.srcLen.toNat ∧ s.fitsMem s.dstAddr.toNat s.dstCap.toNat ∧
          apart s.srcAddr.toNat s.srcLen.toNat s.dstAddr.toNat s.dstCap.toNat) →
        exec .decodePayload s = .next (s.raised 0x17 .rangeError)) ∧
      (s.fitsMem s.srcAddr.toNat s.srcLen.toNat → s.fitsMem s.dstAddr.toNat s.dstCap.toNat →
        apart s.srcAddr.toNat s.srcLen.toNat s.dstAddr.toNat s.dstCap.toNat →
        (s.srcLen = 0 → exec .decodePayload s = .next (s.raised 0x17 .corruptPayload)) ∧
        (s.srcLen ≠ 0 → s.dstCap.toNat < s.plen → exec .decodePayload s = .next (s.raised 0x17 .capacityError))) ∧
      (decodeReady s →
        (∀ vs rest,
          tr.decodeBits s.plen (unpackBits (memRead s s.srcAddr.toNat (s.srcLen.toNat - 1))) = some (vs, rest) →
          ∃ t, exec .decodePayload s = .next t ∧ memRead t s.dstAddr.toNat s.plen = vs ∧
            SameOutside s t s.dstAddr.toNat s.plen ∧
            t.br.consumed + rest.length = 8 * (s.srcLen.toNat - 1) ∧
            t = { s.completed 0x17 s.plenLo with
              mem := t.mem, pad := s.readByte (s.srcAddr.toNat + s.srcLen.toNat - 1),
              br := { active := true, base := s.srcAddr, len := s.srcLen - 1, pos := t.br.pos, bit := t.br.bit } }) ∧
        (tr.decodeBits s.plen (unpackBits (memRead s s.srcAddr.toNat (s.srcLen.toNat - 1))) = none →
          ∃ t, exec .decodePayload s = .next t ∧ SameOutside s t s.dstAddr.toNat s.dstCap.toNat ∧
            t = { s.raised 0x17 .unexpectedEndOfData with mem := t.mem, br := t.br, draws := t.draws })))

/-- 20_memory.md R64, 60_exceptions.md R200 (log 11): a sink or source outside MEM, which only a write of the host's while
BUSY can leave in BW or BR, makes the commands that use it raise RANGE_ERROR when nothing listed before it applies. -/
def Obligations.CursorOutsideMemIsRangeError : Prop :=
  ∀ s : State,
    (∀ imm, ¬ s.fitsMem s.bw.base.toNat s.bw.cap.toNat → s.bw.active = true → imm = 0 ∨ imm = 1 →
      s.bw.bytes.toNat + (s.bw.nbits.val + 1) / 8 ≤ s.bw.cap.toNat →
      exec (.bwPutBit imm) s = .next (s.raised 0x11 .rangeError)) ∧
    (∀ v, ¬ s.fitsMem s.bw.base.toNat s.bw.cap.toNat → s.bw.active = true → s.codeValid = true → tableGet s.code v ≠ [] →
      s.bw.bytes.toNat + (s.bw.nbits.val + (tableGet s.code v).length) / 8 ≤ s.bw.cap.toNat →
      exec (.bwPutSymbol v) s = .next (s.raised 0x12 .rangeError)) ∧
    (¬ s.fitsMem s.bw.base.toNat s.bw.cap.toNat → s.bw.active = true →
      s.bw.nbits.val = 0 ∨ s.bw.bytes.toNat < s.bw.cap.toNat → exec .bwFinalize s = .next (s.raised 0x13 .rangeError)) ∧
    (¬ s.fitsMem s.br.base.toNat s.br.len.toNat → s.br.active = true →
      exec .brGetBit s = .next (s.raised 0x15 .rangeError))

/-- 40_bit_codec.md R116: with the tree and table built from the payload's own frequencies, DECODE_PAYLOAD over
ENCODE_PAYLOAD's output writes the payload. `u` is `t` after the host's writes to the argument registers. -/
def Obligations.EncodeThenDecodeReturnsPayload : Prop :=
  ∀ (s t u : State) (p : List Byte), p = memRead s s.srcAddr.toNat s.srcLen.toNat →
    s.tree = some (buildTree (countBytes clearedFreq p)) → s.code = genCode (buildTree (countBytes clearedFreq p)) →
    exec .encodePayload s = .next t → t.status.err = false →
    u = { t with srcAddr := s.dstAddr, srcLen := t.outLen, dstAddr := u.dstAddr, dstCap := u.dstCap,
                 plenLo := s.srcLen, plenHi := 0 } →
    decodeReady u →
    ∃ x, exec .decodePayload u = .next x ∧ x.status.err = false ∧ memRead x u.dstAddr.toNat p.length = p

/-! ### Container codec -/

/-- 43_container.md R168: CRC32 puts the checksum of the source region in CRC, nothing else; a source outside MEM is a
RANGE_ERROR. The checksum is what R169's loop gives, which the spec marks as general knowledge, not in its source (log 19). -/
def Obligations.Crc32WritesChecksum : Prop :=
  (∀ bs : List Byte, (crc32 bs).toNat = bs.foldl crcTake 0xFFFFFFFF ^^^ 0xFFFFFFFF) ∧
  ∀ s : State,
    (s.fitsMem s.srcAddr.toNat s.srcLen.toNat → exec .crc32 s = .next { s.completed 0x40 0 with
      crc := crc32 (memRead s s.srcAddr.toNat s.srcLen.toNat) }) ∧
    (¬ s.fitsMem s.srcAddr.toNat s.srcLen.toNat → exec .crc32 s = .next (s.raised 0x40 .rangeError))

/-- 43_container.md R178, R179, 30_encoding.md R92: COMPRESS writes the container and nothing outside it, and leaves FREQ,
TREE, CODE, BW, CRC, PAD and PLEN as its rule lists. Integers are big-endian (20_memory.md R58): byte `k` of `n` has weight
256^(n - 1 - k). -/
def Obligations.CompressWritesContainer : Prop :=
  (∀ v n : Nat, (bytesBE v n).length = n ∧
    ∀ k, k < n → (bytesBE v n)[k]? = some (BitVec.ofNat 8 (v / 256 ^ (n - 1 - k)))) ∧
  ∀ (s : State) (p : List Byte) (tr : HTree) (bits : Bits), p = memRead s s.srcAddr.toNat s.srcLen.toNat →
    tr = buildTree (countBytes clearedFreq p) → bits = payloadBits (genCode tr) p → compressReady s →
    29 + s.nameLen.toNat + (ser tr).length + (bits.length + 7) / 8 ≤ s.dstCap.toNat →
    ∃ t stream, exec .compress s = .next t ∧
      memRead t s.dstAddr.toNat (29 + s.nameLen.toNat + (ser tr).length + (bits.length + 7) / 8) =
        containerBytes s.params.magic.toList s.typ.toNat (memRead s s.nameAddr.toNat s.nameLen.toNat) [0x00, 0x01]
          p.length (crc32 p).toNat tr stream t.pad ∧
      PackedAs stream bits t.pad.toNat ∧
      SameOutside s t s.dstAddr.toNat (29 + s.nameLen.toNat + (ser tr).length + (bits.length + 7) / 8) ∧
      t = { s.completed 0x41 (BitVec.ofNat 32 (29 + s.nameLen.toNat + (ser tr).length + (bits.length + 7) / 8)) with
        mem := t.mem, freq := countBytes clearedFreq p, tree := some tr, code := genCode tr, codeValid := true,
        draws := t.draws, crc := crc32 p, pad := t.pad, plenLo := s.srcLen, plenHi := 0,
        bw := { active := false, base := s.dstAddr + BitVec.ofNat 32 (28 + s.nameLen.toNat + (ser tr).length),
                cap := BitVec.ofNat 32 ((bits.length + 7) / 8 + 1), bytes := BitVec.ofNat 32 ((bits.length + 7) / 8),
                acc := 0, nbits := 0 } }

/-- 43_container.md R178, R180: COMPRESS's errors. After CAPACITY_ERROR the tables stand and no MEM byte has changed. -/
def Obligations.CompressErrors : Prop :=
  ∀ (s : State) (p : List Byte) (tr : HTree), p = memRead s s.srcAddr.toNat s.srcLen.toNat →
    tr = buildTree (countBytes clearedFreq p) →
    (compressReady { s with typ := 0 } → s.typ ≠ 0 → s.typ ≠ 1 →
      exec .compress s = .next (s.raised 0x41 .unknownType)) ∧
    (¬ compressReady { s with typ := 0 } → exec .compress s = .next (s.raised 0x41 .rangeError)) ∧
    (compressReady s →
      s.dstCap.toNat <
        29 + s.nameLen.toNat + (ser tr).length + ((payloadBits (genCode tr) p).length + 7) / 8 →
      ∃ t, exec .compress s = .next t ∧ t = { s.raised 0x41 .capacityError with
        freq := countBytes clearedFreq p, tree := some tr, code := genCode tr, codeValid := true, draws := t.draws })

/-- 43_container.md R181: the container depends only on the payload bytes, TYPE, the name bytes and MAGIC. -/
def Obligations.CompressIsDeterministic : Prop :=
  ∀ s₁ s₂ t₁ t₂ : State,
    memRead s₁ s₁.srcAddr.toNat s₁.srcLen.toNat = memRead s₂ s₂.srcAddr.toNat s₂.srcLen.toNat →
    memRead s₁ s₁.nameAddr.toNat s₁.nameLen.toNat = memRead s₂ s₂.nameAddr.toNat s₂.nameLen.toNat →
    s₁.typ = s₂.typ → s₁.params.magic = s₂.params.magic →
    exec .compress s₁ = .next t₁ → exec .compress s₂ = .next t₂ → t₁.status.err = false → t₂.status.err = false →
    t₁.outLen = t₂.outLen ∧
      memRead t₁ s₁.dstAddr.toNat t₁.outLen.toNat = memRead t₂ s₂.dstAddr.toNat t₂.outLen.toNat

/-- 43_container.md R185, R188, R192, R194: DECOMPRESS of a container whose payload decodes to `vs`, whose checksum is
`vs`'s and whose type is 0 or 1 succeeds, writes `vs` and nothing else to MEM, and reports the item; the version is
ignored. BR is left on the bitstream (40_bit_codec.md R112), after the last consumed bit. -/
def Obligations.DecompressRestoresPayload : Prop :=
  ∀ (s : State) (typ : Word) (name version : List Byte) (n : Nat) (tr : HTree) (stream : List Byte) (pad : Byte)
    (vs : List Byte) (rest : Bits),
    ContainerAt s typ name version n (crc32 vs) tr stream pad → (typ = 0 ∨ typ = 1) → n ≤ s.dstCap.toNat →
    tr.decodeBits n (unpackBits stream) = some (vs, rest) →
    ∃ t, exec .decompress s = .next t ∧ memRead t s.dstAddr.toNat n = vs ∧ SameOutside s t s.dstAddr.toNat n ∧
      t.br.consumed + rest.length = 8 * stream.length ∧
      t = { s.completed 0x42 (BitVec.ofNat 32 n) with
        mem := t.mem, tree := some tr.unweighted, codeValid := false, code := t.code, draws := t.draws,
        br := {
          active := true, base := s.srcAddr + BitVec.ofNat 32 (28 + name.length + (ser tr).length),
          len := BitVec.ofNat 32 stream.length, pos := t.br.pos, bit := t.br.bit },
        typ := typ, nameAddr := s.srcAddr + 10, nameLen := BitVec.ofNat 16 name.length, plenLo := BitVec.ofNat 32 n,
        plenHi := BitVec.ofNat 32 (n / 2 ^ 32), crc := crc32 vs, pad := pad }

/-- 43_container.md R190, R191, R193, R185 step 5: DECOMPRESS's errors once the tree is parsed, in their order:
CAPACITY_ERROR with BR and MEM unchanged; UNEXPECTED_END_OF_DATA, INTEGRITY_ERROR (a wrong checksum, whatever the type) and
UNKNOWN_TYPE with BR and the destination region unspecified and every other byte unchanged. -/
def Obligations.DecompressPayloadErrors : Prop :=
  ∀ (s : State) (typ : Word) (name version : List Byte) (n : Nat) (checksum : Word) (tr : HTree) (stream : List Byte)
    (pad : Byte), ContainerAt s typ name version n checksum tr stream pad →
    (s.dstCap.toNat < n → ∃ t, exec .decompress s = .next t ∧ parsedThen s t tr .capacityError ∧
      t.br = s.br ∧ t.mem = s.mem) ∧
    (n ≤ s.dstCap.toNat → tr.decodeBits n (unpackBits stream) = none →
      ∃ t, exec .decompress s = .next t ∧ parsedThen s t tr .unexpectedEndOfData ∧
        SameOutside s t s.dstAddr.toNat s.dstCap.toNat) ∧
    (∀ vs rest, n ≤ s.dstCap.toNat → tr.decodeBits n (unpackBits stream) = some (vs, rest) →
      (crc32 vs ≠ checksum → ∃ t, exec .decompress s = .next t ∧ parsedThen s t tr .integrityError ∧
        SameOutside s t s.dstAddr.toNat s.dstCap.toNat) ∧
      (crc32 vs = checksum → typ ≠ 0 → typ ≠ 1 →
        ∃ t, exec .decompress s = .next t ∧ parsedThen s t tr .unknownType ∧
          SameOutside s t s.dstAddr.toNat s.dstCap.toNat))

/-- 43_container.md R184 step 4, R193, R197: a container that ends after its tree raises CORRUPT_PAYLOAD, with TREE the
parsed tree. -/
def Obligations.MissingPayloadIsCorruptPayload : Prop :=
  ∀ (s : State) (typ : Word) (name version : List Byte) (n : Nat) (checksum : Word) (tr : HTree),
    s.fitsMem s.srcAddr.toNat s.srcLen.toNat → s.fitsMem s.dstAddr.toNat s.dstCap.toNat →
    apart s.srcAddr.toNat s.srcLen.toNat s.dstAddr.toNat s.dstCap.toNat →
    name.length < 2 ^ 16 → version.length = 2 → n < 2 ^ 64 → tr.nodeCount ≤ 511 →
    memRead s s.srcAddr.toNat s.srcLen.toNat =
      containerHead s.params.magic.toList typ.toNat name version n checksum.toNat tr →
    ∃ t, exec .decompress s = .next t ∧ parsedThen s t tr .corruptPayload ∧ t.br = s.br ∧ t.mem = s.mem

/-- 43_container.md R186, R187, R189, R193, 60_exceptions.md R208: RANGE_ERROR first; then a container shorter than 4
bytes or with other magic is FORMAT_ERROR; one that ends before its tree length is IO_ERROR; neither has any other effect;
one that ends inside the tree-length field, or whose tree bytes are cut or are no tree's, is CORRUPT_TREE with TREE
absent. The lengths are read big-endian (20_memory.md R58). -/
def Obligations.DecompressHeaderErrors : Prop :=
  (beNat [] = 0 ∧ ∀ b bs, beNat (b :: bs) = b.toNat * 256 ^ bs.length + beNat bs) ∧
  ∀ (s : State) (a n : Nat), a = s.srcAddr.toNat → n = s.srcLen.toNat →
    (¬ (s.fitsMem a n ∧ s.fitsMem s.dstAddr.toNat s.dstCap.toNat ∧ apart a n s.dstAddr.toNat s.dstCap.toNat) →
      exec .decompress s = .next (s.raised 0x42 .rangeError)) ∧
    (s.fitsMem a n → s.fitsMem s.dstAddr.toNat s.dstCap.toNat → apart a n s.dstAddr.toNat s.dstCap.toNat →
      (n < 4 ∨ memRead s a 4 ≠ s.params.magic.toList → exec .decompress s = .next (s.raised 0x42 .formatError)) ∧
      (4 ≤ n → memRead s a 4 = s.params.magic.toList →
        n < 10 ∨ n < 24 + beNat (memRead s (a + 8) 2) → exec .decompress s = .next (s.raised 0x42 .ioError)) ∧
      (∀ l, 10 ≤ n → memRead s a 4 = s.params.magic.toList → l = beNat (memRead s (a + 8) 2) → 24 + l ≤ n →
        n < 28 + l ∨ n < 28 + l + beNat (memRead s (a + (24 + l)) 4) ∨
          (∀ tr : HTree, tr.nodeCount ≤ 511 →
            memRead s (a + (28 + l)) (beNat (memRead s (a + (24 + l)) 4)) ≠ ser tr) →
        ∃ t, exec .decompress s = .next t ∧
          t = { s.raised 0x42 .corruptTree with tree := none, codeValid := false, code := t.code, draws := t.draws }))

/-- 43_container.md R195: DECOMPRESS over the bytes a successful COMPRESS wrote restores the payload and reports TYPE, the
name and the length. `u` is `t` after the host's writes to the argument registers. -/
def Obligations.CompressThenDecompressReturnsPayload : Prop :=
  ∀ (s t u : State) (p : List Byte), p = memRead s s.srcAddr.toNat s.srcLen.toNat →
    exec .compress s = .next t → t.status.err = false →
    u = { t with srcAddr := s.dstAddr, srcLen := t.outLen, dstAddr := u.dstAddr, dstCap := u.dstCap } →
    u.fitsMem u.dstAddr.toNat u.dstCap.toNat →
    apart u.srcAddr.toNat u.srcLen.toNat u.dstAddr.toNat u.dstCap.toNat → p.length ≤ u.dstCap.toNat →
    ∃ x, exec .decompress u = .next x ∧ x.status.err = false ∧ memRead x u.dstAddr.toNat p.length = p ∧
      x.typ = s.typ ∧ x.nameLen = s.nameLen ∧
      memRead x x.nameAddr.toNat s.nameLen.toNat = memRead s s.nameAddr.toNat s.nameLen.toNat ∧ x.plen = p.length

/-- 43_container.md R196 case (a): with any bit of the stored checksum flipped, DECOMPRESS of that container raises
INTEGRITY_ERROR, always. -/
def Obligations.ChecksumBitFlipIsDetected : Prop :=
  ∀ (s t u : State) (k : Fin 32) (l : Nat), l = s.nameLen.toNat →
    exec .compress s = .next t → t.status.err = false →
    u = { memWrite t (s.dstAddr.toNat + 20 + l)
            (bytesBE ((crc32 (memRead s s.srcAddr.toNat s.srcLen.toNat)) ^^^ (1 <<< k.val)).toNat 4) with
          srcAddr := s.dstAddr, srcLen := t.outLen, dstAddr := u.dstAddr, dstCap := u.dstCap } →
    u.fitsMem u.dstAddr.toNat u.dstCap.toNat →
    apart u.srcAddr.toNat u.srcLen.toNat u.dstAddr.toNat u.dstCap.toNat → s.srcLen.toNat ≤ u.dstCap.toNat →
    ∃ x, exec .decompress u = .next x ∧ x.status.err = true ∧ x.status.errCode = .integrityError
end

