-- ==== Sys2Proof/Laws/State.lean ====
section
/-! SUPPORT. One lemma for each field and each named update of State, so that no later proof unfolds a record update. -/

namespace Sys2Proof.Machine

/-! ### Words made of fields -/

theorem bit1_toNat (b : Bool) : (bit1 b).toNat = b.toNat := by cases b <;> rfl

/-- A word put together of two fields is the sum of the fields at their places. -/
theorem toNat_fields {m n : Nat} (x : BitVec m) (y : BitVec n) : (x ++ y).toNat = x.toNat * 2 ^ n + y.toNat := by
  rw [BitVec.toNat_append, ← Nat.shiftLeft_add_eq_or_of_lt y.isLt, Nat.shiftLeft_eq]

/-! ### State.writeByte -/

@[simp] theorem State.writeByte_params (s : State) (a : Nat) (b : Byte) : (s.writeByte a b).params = s.params := rfl
@[simp] theorem State.writeByte_seq (s : State) (a : Nat) (b : Byte) : (s.writeByte a b).seq = s.seq := rfl
@[simp] theorem State.writeByte_cmd (s : State) (a : Nat) (b : Byte) : (s.writeByte a b).cmd = s.cmd := rfl
@[simp] theorem State.writeByte_status (s : State) (a : Nat) (b : Byte) : (s.writeByte a b).status = s.status := rfl
@[simp] theorem State.writeByte_srcAddr (s : State) (a : Nat) (b : Byte) : (s.writeByte a b).srcAddr = s.srcAddr := rfl
@[simp] theorem State.writeByte_srcLen (s : State) (a : Nat) (b : Byte) : (s.writeByte a b).srcLen = s.srcLen := rfl
@[simp] theorem State.writeByte_dstAddr (s : State) (a : Nat) (b : Byte) : (s.writeByte a b).dstAddr = s.dstAddr := rfl
@[simp] theorem State.writeByte_dstCap (s : State) (a : Nat) (b : Byte) : (s.writeByte a b).dstCap = s.dstCap := rfl
@[simp] theorem State.writeByte_outLen (s : State) (a : Nat) (b : Byte) : (s.writeByte a b).outLen = s.outLen := rfl
@[simp] theorem State.writeByte_nameAddr (s : State) (a : Nat) (b : Byte) : (s.writeByte a b).nameAddr = s.nameAddr := rfl
@[simp] theorem State.writeByte_nameLen (s : State) (a : Nat) (b : Byte) : (s.writeByte a b).nameLen = s.nameLen := rfl
@[simp] theorem State.writeByte_typ (s : State) (a : Nat) (b : Byte) : (s.writeByte a b).typ = s.typ := rfl
@[simp] theorem State.writeByte_plenLo (s : State) (a : Nat) (b : Byte) : (s.writeByte a b).plenLo = s.plenLo := rfl
@[simp] theorem State.writeByte_plenHi (s : State) (a : Nat) (b : Byte) : (s.writeByte a b).plenHi = s.plenHi := rfl
@[simp] theorem State.writeByte_crc (s : State) (a : Nat) (b : Byte) : (s.writeByte a b).crc = s.crc := rfl
@[simp] theorem State.writeByte_pad (s : State) (a : Nat) (b : Byte) : (s.writeByte a b).pad = s.pad := rfl
@[simp] theorem State.writeByte_resultLo (s : State) (a : Nat) (b : Byte) : (s.writeByte a b).resultLo = s.resultLo := rfl
@[simp] theorem State.writeByte_resultHi (s : State) (a : Nat) (b : Byte) : (s.writeByte a b).resultHi = s.resultHi := rfl
@[simp] theorem State.writeByte_freq (s : State) (a : Nat) (b : Byte) : (s.writeByte a b).freq = s.freq := rfl
@[simp] theorem State.writeByte_tree (s : State) (a : Nat) (b : Byte) : (s.writeByte a b).tree = s.tree := rfl
@[simp] theorem State.writeByte_code (s : State) (a : Nat) (b : Byte) : (s.writeByte a b).code = s.code := rfl
@[simp] theorem State.writeByte_codeValid (s : State) (a : Nat) (b : Byte) : (s.writeByte a b).codeValid = s.codeValid := rfl
@[simp] theorem State.writeByte_bw (s : State) (a : Nat) (b : Byte) : (s.writeByte a b).bw = s.bw := rfl
@[simp] theorem State.writeByte_br (s : State) (a : Nat) (b : Byte) : (s.writeByte a b).br = s.br := rfl
@[simp] theorem State.writeByte_mem (s : State) (a : Nat) (b : Byte) : (s.writeByte a b).mem = Memory.insert s.mem a b := rfl
@[simp] theorem State.writeByte_memDraw (s : State) (a : Nat) (b : Byte) : (s.writeByte a b).memDraw = s.memDraw := rfl
@[simp] theorem State.writeByte_draws (s : State) (a : Nat) (b : Byte) : (s.writeByte a b).draws = s.draws := rfl
@[simp] theorem State.writeByte_disturbed (s : State) (a : Nat) (b : Byte) : (s.writeByte a b).disturbed = s.disturbed := rfl
@[simp] theorem State.writeByte_events (s : State) (a : Nat) (b : Byte) : (s.writeByte a b).events = s.events := rfl
@[simp] theorem State.writeByte_seen (s : State) (a : Nat) (b : Byte) : (s.writeByte a b).seen = s.seen := rfl

/-! ### State.dropCode -/

@[simp] theorem State.dropCode_params (s : State) : (s.dropCode).params = s.params := rfl
@[simp] theorem State.dropCode_seq (s : State) : (s.dropCode).seq = s.seq := rfl
@[simp] theorem State.dropCode_cmd (s : State) : (s.dropCode).cmd = s.cmd := rfl
@[simp] theorem State.dropCode_status (s : State) : (s.dropCode).status = s.status := rfl
@[simp] theorem State.dropCode_srcAddr (s : State) : (s.dropCode).srcAddr = s.srcAddr := rfl
@[simp] theorem State.dropCode_srcLen (s : State) : (s.dropCode).srcLen = s.srcLen := rfl
@[simp] theorem State.dropCode_dstAddr (s : State) : (s.dropCode).dstAddr = s.dstAddr := rfl
@[simp] theorem State.dropCode_dstCap (s : State) : (s.dropCode).dstCap = s.dstCap := rfl
@[simp] theorem State.dropCode_outLen (s : State) : (s.dropCode).outLen = s.outLen := rfl
@[simp] theorem State.dropCode_nameAddr (s : State) : (s.dropCode).nameAddr = s.nameAddr := rfl
@[simp] theorem State.dropCode_nameLen (s : State) : (s.dropCode).nameLen = s.nameLen := rfl
@[simp] theorem State.dropCode_typ (s : State) : (s.dropCode).typ = s.typ := rfl
@[simp] theorem State.dropCode_plenLo (s : State) : (s.dropCode).plenLo = s.plenLo := rfl
@[simp] theorem State.dropCode_plenHi (s : State) : (s.dropCode).plenHi = s.plenHi := rfl
@[simp] theorem State.dropCode_crc (s : State) : (s.dropCode).crc = s.crc := rfl
@[simp] theorem State.dropCode_pad (s : State) : (s.dropCode).pad = s.pad := rfl
@[simp] theorem State.dropCode_resultLo (s : State) : (s.dropCode).resultLo = s.resultLo := rfl
@[simp] theorem State.dropCode_resultHi (s : State) : (s.dropCode).resultHi = s.resultHi := rfl
@[simp] theorem State.dropCode_freq (s : State) : (s.dropCode).freq = s.freq := rfl
@[simp] theorem State.dropCode_tree (s : State) : (s.dropCode).tree = s.tree := rfl
@[simp] theorem State.dropCode_code (s : State) : (s.dropCode).code = boundedCode (Config.freeCode s.draws) := rfl
@[simp] theorem State.dropCode_codeValid (s : State) : (s.dropCode).codeValid = false := rfl
@[simp] theorem State.dropCode_bw (s : State) : (s.dropCode).bw = s.bw := rfl
@[simp] theorem State.dropCode_br (s : State) : (s.dropCode).br = s.br := rfl
@[simp] theorem State.dropCode_mem (s : State) : (s.dropCode).mem = s.mem := rfl
@[simp] theorem State.dropCode_memDraw (s : State) : (s.dropCode).memDraw = s.memDraw := rfl
@[simp] theorem State.dropCode_draws (s : State) : (s.dropCode).draws = s.draws + 1 := rfl
@[simp] theorem State.dropCode_disturbed (s : State) : (s.dropCode).disturbed = s.disturbed := rfl
@[simp] theorem State.dropCode_events (s : State) : (s.dropCode).events = s.events := rfl
@[simp] theorem State.dropCode_seen (s : State) : (s.dropCode).seen = s.seen := rfl

/-! ### State.setTree -/

@[simp] theorem State.setTree_params (s : State) (t : Option HTree) : (s.setTree t).params = s.params := rfl
@[simp] theorem State.setTree_seq (s : State) (t : Option HTree) : (s.setTree t).seq = s.seq := rfl
@[simp] theorem State.setTree_cmd (s : State) (t : Option HTree) : (s.setTree t).cmd = s.cmd := rfl
@[simp] theorem State.setTree_status (s : State) (t : Option HTree) : (s.setTree t).status = s.status := rfl
@[simp] theorem State.setTree_srcAddr (s : State) (t : Option HTree) : (s.setTree t).srcAddr = s.srcAddr := rfl
@[simp] theorem State.setTree_srcLen (s : State) (t : Option HTree) : (s.setTree t).srcLen = s.srcLen := rfl
@[simp] theorem State.setTree_dstAddr (s : State) (t : Option HTree) : (s.setTree t).dstAddr = s.dstAddr := rfl
@[simp] theorem State.setTree_dstCap (s : State) (t : Option HTree) : (s.setTree t).dstCap = s.dstCap := rfl
@[simp] theorem State.setTree_outLen (s : State) (t : Option HTree) : (s.setTree t).outLen = s.outLen := rfl
@[simp] theorem State.setTree_nameAddr (s : State) (t : Option HTree) : (s.setTree t).nameAddr = s.nameAddr := rfl
@[simp] theorem State.setTree_nameLen (s : State) (t : Option HTree) : (s.setTree t).nameLen = s.nameLen := rfl
@[simp] theorem State.setTree_typ (s : State) (t : Option HTree) : (s.setTree t).typ = s.typ := rfl
@[simp] theorem State.setTree_plenLo (s : State) (t : Option HTree) : (s.setTree t).plenLo = s.plenLo := rfl
@[simp] theorem State.setTree_plenHi (s : State) (t : Option HTree) : (s.setTree t).plenHi = s.plenHi := rfl
@[simp] theorem State.setTree_crc (s : State) (t : Option HTree) : (s.setTree t).crc = s.crc := rfl
@[simp] theorem State.setTree_pad (s : State) (t : Option HTree) : (s.setTree t).pad = s.pad := rfl
@[simp] theorem State.setTree_resultLo (s : State) (t : Option HTree) : (s.setTree t).resultLo = s.resultLo := rfl
@[simp] theorem State.setTree_resultHi (s : State) (t : Option HTree) : (s.setTree t).resultHi = s.resultHi := rfl
@[simp] theorem State.setTree_freq (s : State) (t : Option HTree) : (s.setTree t).freq = s.freq := rfl
@[simp] theorem State.setTree_tree (s : State) (t : Option HTree) : (s.setTree t).tree = t := rfl
@[simp] theorem State.setTree_code (s : State) (t : Option HTree) : (s.setTree t).code = boundedCode (Config.freeCode s.draws) := rfl
@[simp] theorem State.setTree_codeValid (s : State) (t : Option HTree) : (s.setTree t).codeValid = false := rfl
@[simp] theorem State.setTree_bw (s : State) (t : Option HTree) : (s.setTree t).bw = s.bw := rfl
@[simp] theorem State.setTree_br (s : State) (t : Option HTree) : (s.setTree t).br = s.br := rfl
@[simp] theorem State.setTree_mem (s : State) (t : Option HTree) : (s.setTree t).mem = s.mem := rfl
@[simp] theorem State.setTree_memDraw (s : State) (t : Option HTree) : (s.setTree t).memDraw = s.memDraw := rfl
@[simp] theorem State.setTree_draws (s : State) (t : Option HTree) : (s.setTree t).draws = s.draws + 1 := rfl
@[simp] theorem State.setTree_disturbed (s : State) (t : Option HTree) : (s.setTree t).disturbed = s.disturbed := rfl
@[simp] theorem State.setTree_events (s : State) (t : Option HTree) : (s.setTree t).events = s.events := rfl
@[simp] theorem State.setTree_seen (s : State) (t : Option HTree) : (s.setTree t).seen = s.seen := rfl

/-! ### State.setCode -/

@[simp] theorem State.setCode_params (s : State) (t : HTree) : (s.setCode t).params = s.params := rfl
@[simp] theorem State.setCode_seq (s : State) (t : HTree) : (s.setCode t).seq = s.seq := rfl
@[simp] theorem State.setCode_cmd (s : State) (t : HTree) : (s.setCode t).cmd = s.cmd := rfl
@[simp] theorem State.setCode_status (s : State) (t : HTree) : (s.setCode t).status = s.status := rfl
@[simp] theorem State.setCode_srcAddr (s : State) (t : HTree) : (s.setCode t).srcAddr = s.srcAddr := rfl
@[simp] theorem State.setCode_srcLen (s : State) (t : HTree) : (s.setCode t).srcLen = s.srcLen := rfl
@[simp] theorem State.setCode_dstAddr (s : State) (t : HTree) : (s.setCode t).dstAddr = s.dstAddr := rfl
@[simp] theorem State.setCode_dstCap (s : State) (t : HTree) : (s.setCode t).dstCap = s.dstCap := rfl
@[simp] theorem State.setCode_outLen (s : State) (t : HTree) : (s.setCode t).outLen = s.outLen := rfl
@[simp] theorem State.setCode_nameAddr (s : State) (t : HTree) : (s.setCode t).nameAddr = s.nameAddr := rfl
@[simp] theorem State.setCode_nameLen (s : State) (t : HTree) : (s.setCode t).nameLen = s.nameLen := rfl
@[simp] theorem State.setCode_typ (s : State) (t : HTree) : (s.setCode t).typ = s.typ := rfl
@[simp] theorem State.setCode_plenLo (s : State) (t : HTree) : (s.setCode t).plenLo = s.plenLo := rfl
@[simp] theorem State.setCode_plenHi (s : State) (t : HTree) : (s.setCode t).plenHi = s.plenHi := rfl
@[simp] theorem State.setCode_crc (s : State) (t : HTree) : (s.setCode t).crc = s.crc := rfl
@[simp] theorem State.setCode_pad (s : State) (t : HTree) : (s.setCode t).pad = s.pad := rfl
@[simp] theorem State.setCode_resultLo (s : State) (t : HTree) : (s.setCode t).resultLo = s.resultLo := rfl
@[simp] theorem State.setCode_resultHi (s : State) (t : HTree) : (s.setCode t).resultHi = s.resultHi := rfl
@[simp] theorem State.setCode_freq (s : State) (t : HTree) : (s.setCode t).freq = s.freq := rfl
@[simp] theorem State.setCode_tree (s : State) (t : HTree) : (s.setCode t).tree = s.tree := rfl
@[simp] theorem State.setCode_code (s : State) (t : HTree) : (s.setCode t).code = genCode t := rfl
@[simp] theorem State.setCode_codeValid (s : State) (t : HTree) : (s.setCode t).codeValid = true := rfl
@[simp] theorem State.setCode_bw (s : State) (t : HTree) : (s.setCode t).bw = s.bw := rfl
@[simp] theorem State.setCode_br (s : State) (t : HTree) : (s.setCode t).br = s.br := rfl
@[simp] theorem State.setCode_mem (s : State) (t : HTree) : (s.setCode t).mem = s.mem := rfl
@[simp] theorem State.setCode_memDraw (s : State) (t : HTree) : (s.setCode t).memDraw = s.memDraw := rfl
@[simp] theorem State.setCode_draws (s : State) (t : HTree) : (s.setCode t).draws = s.draws := rfl
@[simp] theorem State.setCode_disturbed (s : State) (t : HTree) : (s.setCode t).disturbed = s.disturbed := rfl
@[simp] theorem State.setCode_events (s : State) (t : HTree) : (s.setCode t).events = s.events := rfl
@[simp] theorem State.setCode_seen (s : State) (t : HTree) : (s.setCode t).seen = s.seen := rfl

/-! ### State.freeBr -/

@[simp] theorem State.freeBr_params (s : State) : (s.freeBr).params = s.params := rfl
@[simp] theorem State.freeBr_seq (s : State) : (s.freeBr).seq = s.seq := rfl
@[simp] theorem State.freeBr_cmd (s : State) : (s.freeBr).cmd = s.cmd := rfl
@[simp] theorem State.freeBr_status (s : State) : (s.freeBr).status = s.status := rfl
@[simp] theorem State.freeBr_srcAddr (s : State) : (s.freeBr).srcAddr = s.srcAddr := rfl
@[simp] theorem State.freeBr_srcLen (s : State) : (s.freeBr).srcLen = s.srcLen := rfl
@[simp] theorem State.freeBr_dstAddr (s : State) : (s.freeBr).dstAddr = s.dstAddr := rfl
@[simp] theorem State.freeBr_dstCap (s : State) : (s.freeBr).dstCap = s.dstCap := rfl
@[simp] theorem State.freeBr_outLen (s : State) : (s.freeBr).outLen = s.outLen := rfl
@[simp] theorem State.freeBr_nameAddr (s : State) : (s.freeBr).nameAddr = s.nameAddr := rfl
@[simp] theorem State.freeBr_nameLen (s : State) : (s.freeBr).nameLen = s.nameLen := rfl
@[simp] theorem State.freeBr_typ (s : State) : (s.freeBr).typ = s.typ := rfl
@[simp] theorem State.freeBr_plenLo (s : State) : (s.freeBr).plenLo = s.plenLo := rfl
@[simp] theorem State.freeBr_plenHi (s : State) : (s.freeBr).plenHi = s.plenHi := rfl
@[simp] theorem State.freeBr_crc (s : State) : (s.freeBr).crc = s.crc := rfl
@[simp] theorem State.freeBr_pad (s : State) : (s.freeBr).pad = s.pad := rfl
@[simp] theorem State.freeBr_resultLo (s : State) : (s.freeBr).resultLo = s.resultLo := rfl
@[simp] theorem State.freeBr_resultHi (s : State) : (s.freeBr).resultHi = s.resultHi := rfl
@[simp] theorem State.freeBr_freq (s : State) : (s.freeBr).freq = s.freq := rfl
@[simp] theorem State.freeBr_tree (s : State) : (s.freeBr).tree = s.tree := rfl
@[simp] theorem State.freeBr_code (s : State) : (s.freeBr).code = s.code := rfl
@[simp] theorem State.freeBr_codeValid (s : State) : (s.freeBr).codeValid = s.codeValid := rfl
@[simp] theorem State.freeBr_bw (s : State) : (s.freeBr).bw = s.bw := rfl
@[simp] theorem State.freeBr_br (s : State) : (s.freeBr).br = boundedReader (Config.freeReader s.draws) := rfl
@[simp] theorem State.freeBr_mem (s : State) : (s.freeBr).mem = s.mem := rfl
@[simp] theorem State.freeBr_memDraw (s : State) : (s.freeBr).memDraw = s.memDraw := rfl
@[simp] theorem State.freeBr_draws (s : State) : (s.freeBr).draws = s.draws + 1 := rfl
@[simp] theorem State.freeBr_disturbed (s : State) : (s.freeBr).disturbed = s.disturbed := rfl
@[simp] theorem State.freeBr_events (s : State) : (s.freeBr).events = s.events := rfl
@[simp] theorem State.freeBr_seen (s : State) : (s.freeBr).seen = s.seen := rfl

/-! ### State.freeRegion -/

@[simp] theorem State.freeRegion_params (s : State) (r : Region) : (s.freeRegion r).params = s.params := rfl
@[simp] theorem State.freeRegion_seq (s : State) (r : Region) : (s.freeRegion r).seq = s.seq := rfl
@[simp] theorem State.freeRegion_cmd (s : State) (r : Region) : (s.freeRegion r).cmd = s.cmd := rfl
@[simp] theorem State.freeRegion_status (s : State) (r : Region) : (s.freeRegion r).status = s.status := rfl
@[simp] theorem State.freeRegion_srcAddr (s : State) (r : Region) : (s.freeRegion r).srcAddr = s.srcAddr := rfl
@[simp] theorem State.freeRegion_srcLen (s : State) (r : Region) : (s.freeRegion r).srcLen = s.srcLen := rfl
@[simp] theorem State.freeRegion_dstAddr (s : State) (r : Region) : (s.freeRegion r).dstAddr = s.dstAddr := rfl
@[simp] theorem State.freeRegion_dstCap (s : State) (r : Region) : (s.freeRegion r).dstCap = s.dstCap := rfl
@[simp] theorem State.freeRegion_outLen (s : State) (r : Region) : (s.freeRegion r).outLen = s.outLen := rfl
@[simp] theorem State.freeRegion_nameAddr (s : State) (r : Region) : (s.freeRegion r).nameAddr = s.nameAddr := rfl
@[simp] theorem State.freeRegion_nameLen (s : State) (r : Region) : (s.freeRegion r).nameLen = s.nameLen := rfl
@[simp] theorem State.freeRegion_typ (s : State) (r : Region) : (s.freeRegion r).typ = s.typ := rfl
@[simp] theorem State.freeRegion_plenLo (s : State) (r : Region) : (s.freeRegion r).plenLo = s.plenLo := rfl
@[simp] theorem State.freeRegion_plenHi (s : State) (r : Region) : (s.freeRegion r).plenHi = s.plenHi := rfl
@[simp] theorem State.freeRegion_crc (s : State) (r : Region) : (s.freeRegion r).crc = s.crc := rfl
@[simp] theorem State.freeRegion_pad (s : State) (r : Region) : (s.freeRegion r).pad = s.pad := rfl
@[simp] theorem State.freeRegion_resultLo (s : State) (r : Region) : (s.freeRegion r).resultLo = s.resultLo := rfl
@[simp] theorem State.freeRegion_resultHi (s : State) (r : Region) : (s.freeRegion r).resultHi = s.resultHi := rfl
@[simp] theorem State.freeRegion_freq (s : State) (r : Region) : (s.freeRegion r).freq = s.freq := rfl
@[simp] theorem State.freeRegion_tree (s : State) (r : Region) : (s.freeRegion r).tree = s.tree := rfl
@[simp] theorem State.freeRegion_code (s : State) (r : Region) : (s.freeRegion r).code = s.code := rfl
@[simp] theorem State.freeRegion_codeValid (s : State) (r : Region) : (s.freeRegion r).codeValid = s.codeValid := rfl
@[simp] theorem State.freeRegion_bw (s : State) (r : Region) : (s.freeRegion r).bw = s.bw := rfl
@[simp] theorem State.freeRegion_br (s : State) (r : Region) : (s.freeRegion r).br = s.br := rfl
@[simp] theorem State.freeRegion_mem (s : State) (r : Region) : (s.freeRegion r).mem = Memory.fillFree s.draws s.mem r.addr (min r.len (s.params.memBytes - r.addr)) := rfl
@[simp] theorem State.freeRegion_memDraw (s : State) (r : Region) : (s.freeRegion r).memDraw = s.memDraw := rfl
@[simp] theorem State.freeRegion_draws (s : State) (r : Region) : (s.freeRegion r).draws = s.draws + 1 := rfl
@[simp] theorem State.freeRegion_disturbed (s : State) (r : Region) : (s.freeRegion r).disturbed = s.disturbed := rfl
@[simp] theorem State.freeRegion_events (s : State) (r : Region) : (s.freeRegion r).events = s.events := rfl
@[simp] theorem State.freeRegion_seen (s : State) (r : Region) : (s.freeRegion r).seen = s.seen := rfl

/-! ### State.startCommand -/

@[simp] theorem State.startCommand_params (s : State) (w : Word) : (s.startCommand w).params = s.params := rfl
@[simp] theorem State.startCommand_seq (s : State) (w : Word) : (s.startCommand w).seq = .busy := rfl
@[simp] theorem State.startCommand_cmd (s : State) (w : Word) : (s.startCommand w).cmd = w := rfl
@[simp] theorem State.startCommand_status (s : State) (w : Word) : (s.startCommand w).status = { done := false, err := false, errCode := .noError, lastOp := opField w } := rfl
@[simp] theorem State.startCommand_srcAddr (s : State) (w : Word) : (s.startCommand w).srcAddr = s.srcAddr := rfl
@[simp] theorem State.startCommand_srcLen (s : State) (w : Word) : (s.startCommand w).srcLen = s.srcLen := rfl
@[simp] theorem State.startCommand_dstAddr (s : State) (w : Word) : (s.startCommand w).dstAddr = s.dstAddr := rfl
@[simp] theorem State.startCommand_dstCap (s : State) (w : Word) : (s.startCommand w).dstCap = s.dstCap := rfl
@[simp] theorem State.startCommand_outLen (s : State) (w : Word) : (s.startCommand w).outLen = s.outLen := rfl
@[simp] theorem State.startCommand_nameAddr (s : State) (w : Word) : (s.startCommand w).nameAddr = s.nameAddr := rfl
@[simp] theorem State.startCommand_nameLen (s : State) (w : Word) : (s.startCommand w).nameLen = s.nameLen := rfl
@[simp] theorem State.startCommand_typ (s : State) (w : Word) : (s.startCommand w).typ = s.typ := rfl
@[simp] theorem State.startCommand_plenLo (s : State) (w : Word) : (s.startCommand w).plenLo = s.plenLo := rfl
@[simp] theorem State.startCommand_plenHi (s : State) (w : Word) : (s.startCommand w).plenHi = s.plenHi := rfl
@[simp] theorem State.startCommand_crc (s : State) (w : Word) : (s.startCommand w).crc = s.crc := rfl
@[simp] theorem State.startCommand_pad (s : State) (w : Word) : (s.startCommand w).pad = s.pad := rfl
@[simp] theorem State.startCommand_resultLo (s : State) (w : Word) : (s.startCommand w).resultLo = s.resultLo := rfl
@[simp] theorem State.startCommand_resultHi (s : State) (w : Word) : (s.startCommand w).resultHi = s.resultHi := rfl
@[simp] theorem State.startCommand_freq (s : State) (w : Word) : (s.startCommand w).freq = s.freq := rfl
@[simp] theorem State.startCommand_tree (s : State) (w : Word) : (s.startCommand w).tree = s.tree := rfl
@[simp] theorem State.startCommand_code (s : State) (w : Word) : (s.startCommand w).code = s.code := rfl
@[simp] theorem State.startCommand_codeValid (s : State) (w : Word) : (s.startCommand w).codeValid = s.codeValid := rfl
@[simp] theorem State.startCommand_bw (s : State) (w : Word) : (s.startCommand w).bw = s.bw := rfl
@[simp] theorem State.startCommand_br (s : State) (w : Word) : (s.startCommand w).br = s.br := rfl
@[simp] theorem State.startCommand_mem (s : State) (w : Word) : (s.startCommand w).mem = s.mem := rfl
@[simp] theorem State.startCommand_memDraw (s : State) (w : Word) : (s.startCommand w).memDraw = s.memDraw := rfl
@[simp] theorem State.startCommand_draws (s : State) (w : Word) : (s.startCommand w).draws = s.draws := rfl
@[simp] theorem State.startCommand_disturbed (s : State) (w : Word) : (s.startCommand w).disturbed = false := rfl
@[simp] theorem State.startCommand_events (s : State) (w : Word) : (s.startCommand w).events = s.events := rfl
@[simp] theorem State.startCommand_seen (s : State) (w : Word) : (s.startCommand w).seen = s.seen := rfl

/-! ### State.completed -/

@[simp] theorem State.completed_params (s : State) (op : Byte) (k : Word) : (s.completed op k).params = s.params := rfl
@[simp] theorem State.completed_seq (s : State) (op : Byte) (k : Word) : (s.completed op k).seq = .idle := rfl
@[simp] theorem State.completed_cmd (s : State) (op : Byte) (k : Word) : (s.completed op k).cmd = s.cmd := rfl
@[simp] theorem State.completed_status (s : State) (op : Byte) (k : Word) : (s.completed op k).status = { done := true, err := false, errCode := .noError, lastOp := op } := rfl
@[simp] theorem State.completed_srcAddr (s : State) (op : Byte) (k : Word) : (s.completed op k).srcAddr = s.srcAddr := rfl
@[simp] theorem State.completed_srcLen (s : State) (op : Byte) (k : Word) : (s.completed op k).srcLen = s.srcLen := rfl
@[simp] theorem State.completed_dstAddr (s : State) (op : Byte) (k : Word) : (s.completed op k).dstAddr = s.dstAddr := rfl
@[simp] theorem State.completed_dstCap (s : State) (op : Byte) (k : Word) : (s.completed op k).dstCap = s.dstCap := rfl
@[simp] theorem State.completed_outLen (s : State) (op : Byte) (k : Word) : (s.completed op k).outLen = k := rfl
@[simp] theorem State.completed_nameAddr (s : State) (op : Byte) (k : Word) : (s.completed op k).nameAddr = s.nameAddr := rfl
@[simp] theorem State.completed_nameLen (s : State) (op : Byte) (k : Word) : (s.completed op k).nameLen = s.nameLen := rfl
@[simp] theorem State.completed_typ (s : State) (op : Byte) (k : Word) : (s.completed op k).typ = s.typ := rfl
@[simp] theorem State.completed_plenLo (s : State) (op : Byte) (k : Word) : (s.completed op k).plenLo = s.plenLo := rfl
@[simp] theorem State.completed_plenHi (s : State) (op : Byte) (k : Word) : (s.completed op k).plenHi = s.plenHi := rfl
@[simp] theorem State.completed_crc (s : State) (op : Byte) (k : Word) : (s.completed op k).crc = s.crc := rfl
@[simp] theorem State.completed_pad (s : State) (op : Byte) (k : Word) : (s.completed op k).pad = s.pad := rfl
@[simp] theorem State.completed_resultLo (s : State) (op : Byte) (k : Word) : (s.completed op k).resultLo = s.resultLo := rfl
@[simp] theorem State.completed_resultHi (s : State) (op : Byte) (k : Word) : (s.completed op k).resultHi = s.resultHi := rfl
@[simp] theorem State.completed_freq (s : State) (op : Byte) (k : Word) : (s.completed op k).freq = s.freq := rfl
@[simp] theorem State.completed_tree (s : State) (op : Byte) (k : Word) : (s.completed op k).tree = s.tree := rfl
@[simp] theorem State.completed_code (s : State) (op : Byte) (k : Word) : (s.completed op k).code = s.code := rfl
@[simp] theorem State.completed_codeValid (s : State) (op : Byte) (k : Word) : (s.completed op k).codeValid = s.codeValid := rfl
@[simp] theorem State.completed_bw (s : State) (op : Byte) (k : Word) : (s.completed op k).bw = s.bw := rfl
@[simp] theorem State.completed_br (s : State) (op : Byte) (k : Word) : (s.completed op k).br = s.br := rfl
@[simp] theorem State.completed_mem (s : State) (op : Byte) (k : Word) : (s.completed op k).mem = s.mem := rfl
@[simp] theorem State.completed_memDraw (s : State) (op : Byte) (k : Word) : (s.completed op k).memDraw = s.memDraw := rfl
@[simp] theorem State.completed_draws (s : State) (op : Byte) (k : Word) : (s.completed op k).draws = s.draws := rfl
@[simp] theorem State.completed_disturbed (s : State) (op : Byte) (k : Word) : (s.completed op k).disturbed = s.disturbed := rfl
@[simp] theorem State.completed_events (s : State) (op : Byte) (k : Word) : (s.completed op k).events = s.events := rfl
@[simp] theorem State.completed_seen (s : State) (op : Byte) (k : Word) : (s.completed op k).seen = s.seen := rfl

/-! ### State.raised -/

@[simp] theorem State.raised_params (s : State) (op : Byte) (e : ErrorCode) : (s.raised op e).params = s.params := rfl
@[simp] theorem State.raised_seq (s : State) (op : Byte) (e : ErrorCode) : (s.raised op e).seq = .idle := rfl
@[simp] theorem State.raised_cmd (s : State) (op : Byte) (e : ErrorCode) : (s.raised op e).cmd = s.cmd := rfl
@[simp] theorem State.raised_status (s : State) (op : Byte) (e : ErrorCode) : (s.raised op e).status = { done := true, err := true, errCode := e, lastOp := op } := rfl
@[simp] theorem State.raised_srcAddr (s : State) (op : Byte) (e : ErrorCode) : (s.raised op e).srcAddr = s.srcAddr := rfl
@[simp] theorem State.raised_srcLen (s : State) (op : Byte) (e : ErrorCode) : (s.raised op e).srcLen = s.srcLen := rfl
@[simp] theorem State.raised_dstAddr (s : State) (op : Byte) (e : ErrorCode) : (s.raised op e).dstAddr = s.dstAddr := rfl
@[simp] theorem State.raised_dstCap (s : State) (op : Byte) (e : ErrorCode) : (s.raised op e).dstCap = s.dstCap := rfl
@[simp] theorem State.raised_outLen (s : State) (op : Byte) (e : ErrorCode) : (s.raised op e).outLen = 0 := rfl
@[simp] theorem State.raised_nameAddr (s : State) (op : Byte) (e : ErrorCode) : (s.raised op e).nameAddr = s.nameAddr := rfl
@[simp] theorem State.raised_nameLen (s : State) (op : Byte) (e : ErrorCode) : (s.raised op e).nameLen = s.nameLen := rfl
@[simp] theorem State.raised_typ (s : State) (op : Byte) (e : ErrorCode) : (s.raised op e).typ = s.typ := rfl
@[simp] theorem State.raised_plenLo (s : State) (op : Byte) (e : ErrorCode) : (s.raised op e).plenLo = s.plenLo := rfl
@[simp] theorem State.raised_plenHi (s : State) (op : Byte) (e : ErrorCode) : (s.raised op e).plenHi = s.plenHi := rfl
@[simp] theorem State.raised_crc (s : State) (op : Byte) (e : ErrorCode) : (s.raised op e).crc = s.crc := rfl
@[simp] theorem State.raised_pad (s : State) (op : Byte) (e : ErrorCode) : (s.raised op e).pad = s.pad := rfl
@[simp] theorem State.raised_resultLo (s : State) (op : Byte) (e : ErrorCode) : (s.raised op e).resultLo = s.resultLo := rfl
@[simp] theorem State.raised_resultHi (s : State) (op : Byte) (e : ErrorCode) : (s.raised op e).resultHi = s.resultHi := rfl
@[simp] theorem State.raised_freq (s : State) (op : Byte) (e : ErrorCode) : (s.raised op e).freq = s.freq := rfl
@[simp] theorem State.raised_tree (s : State) (op : Byte) (e : ErrorCode) : (s.raised op e).tree = s.tree := rfl
@[simp] theorem State.raised_code (s : State) (op : Byte) (e : ErrorCode) : (s.raised op e).code = s.code := rfl
@[simp] theorem State.raised_codeValid (s : State) (op : Byte) (e : ErrorCode) : (s.raised op e).codeValid = s.codeValid := rfl
@[simp] theorem State.raised_bw (s : State) (op : Byte) (e : ErrorCode) : (s.raised op e).bw = s.bw := rfl
@[simp] theorem State.raised_br (s : State) (op : Byte) (e : ErrorCode) : (s.raised op e).br = s.br := rfl
@[simp] theorem State.raised_mem (s : State) (op : Byte) (e : ErrorCode) : (s.raised op e).mem = s.mem := rfl
@[simp] theorem State.raised_memDraw (s : State) (op : Byte) (e : ErrorCode) : (s.raised op e).memDraw = s.memDraw := rfl
@[simp] theorem State.raised_draws (s : State) (op : Byte) (e : ErrorCode) : (s.raised op e).draws = s.draws := rfl
@[simp] theorem State.raised_disturbed (s : State) (op : Byte) (e : ErrorCode) : (s.raised op e).disturbed = s.disturbed := rfl
@[simp] theorem State.raised_events (s : State) (op : Byte) (e : ErrorCode) : (s.raised op e).events = s.events := rfl
@[simp] theorem State.raised_seen (s : State) (op : Byte) (e : ErrorCode) : (s.raised op e).seen = s.seen := rfl

/-! ### State.see -/

@[simp] theorem State.see_params (s : State) (x : Seen) : (s.see x).params = s.params := rfl
@[simp] theorem State.see_seq (s : State) (x : Seen) : (s.see x).seq = s.seq := rfl
@[simp] theorem State.see_cmd (s : State) (x : Seen) : (s.see x).cmd = s.cmd := rfl
@[simp] theorem State.see_status (s : State) (x : Seen) : (s.see x).status = s.status := rfl
@[simp] theorem State.see_srcAddr (s : State) (x : Seen) : (s.see x).srcAddr = s.srcAddr := rfl
@[simp] theorem State.see_srcLen (s : State) (x : Seen) : (s.see x).srcLen = s.srcLen := rfl
@[simp] theorem State.see_dstAddr (s : State) (x : Seen) : (s.see x).dstAddr = s.dstAddr := rfl
@[simp] theorem State.see_dstCap (s : State) (x : Seen) : (s.see x).dstCap = s.dstCap := rfl
@[simp] theorem State.see_outLen (s : State) (x : Seen) : (s.see x).outLen = s.outLen := rfl
@[simp] theorem State.see_nameAddr (s : State) (x : Seen) : (s.see x).nameAddr = s.nameAddr := rfl
@[simp] theorem State.see_nameLen (s : State) (x : Seen) : (s.see x).nameLen = s.nameLen := rfl
@[simp] theorem State.see_typ (s : State) (x : Seen) : (s.see x).typ = s.typ := rfl
@[simp] theorem State.see_plenLo (s : State) (x : Seen) : (s.see x).plenLo = s.plenLo := rfl
@[simp] theorem State.see_plenHi (s : State) (x : Seen) : (s.see x).plenHi = s.plenHi := rfl
@[simp] theorem State.see_crc (s : State) (x : Seen) : (s.see x).crc = s.crc := rfl
@[simp] theorem State.see_pad (s : State) (x : Seen) : (s.see x).pad = s.pad := rfl
@[simp] theorem State.see_resultLo (s : State) (x : Seen) : (s.see x).resultLo = s.resultLo := rfl
@[simp] theorem State.see_resultHi (s : State) (x : Seen) : (s.see x).resultHi = s.resultHi := rfl
@[simp] theorem State.see_freq (s : State) (x : Seen) : (s.see x).freq = s.freq := rfl
@[simp] theorem State.see_tree (s : State) (x : Seen) : (s.see x).tree = s.tree := rfl
@[simp] theorem State.see_code (s : State) (x : Seen) : (s.see x).code = s.code := rfl
@[simp] theorem State.see_codeValid (s : State) (x : Seen) : (s.see x).codeValid = s.codeValid := rfl
@[simp] theorem State.see_bw (s : State) (x : Seen) : (s.see x).bw = s.bw := rfl
@[simp] theorem State.see_br (s : State) (x : Seen) : (s.see x).br = s.br := rfl
@[simp] theorem State.see_mem (s : State) (x : Seen) : (s.see x).mem = s.mem := rfl
@[simp] theorem State.see_memDraw (s : State) (x : Seen) : (s.see x).memDraw = s.memDraw := rfl
@[simp] theorem State.see_draws (s : State) (x : Seen) : (s.see x).draws = s.draws := rfl
@[simp] theorem State.see_disturbed (s : State) (x : Seen) : (s.see x).disturbed = s.disturbed := rfl
@[simp] theorem State.see_events (s : State) (x : Seen) : (s.see x).events = s.events := rfl
@[simp] theorem State.see_seen (s : State) (x : Seen) : (s.see x).seen = x :: s.seen := rfl

end Sys2Proof.Machine
end

