-- ==== Sys2Proof/Laws/Memory.lean ====
section
/-! SUPPORT. What MEM's operations do: a read after a write, what a write leaves alone, and that every operation keeps the
canonical form and writes only bytes that exist. -/

namespace Sys2Proof.Machine

/-! ### One entry -/

theorem Memory.lookup_insert (m : Memory) (a x : Nat) (b : Byte) :
    Memory.lookup (Memory.insert m a b) x = if a = x then some b else Memory.lookup m x := by
  induction m with
  | nil => simp [Memory.insert, Memory.lookup]
  | cons c m ih =>
    obtain ⟨k, c⟩ := c
    unfold Memory.insert
    split
    · simp [Memory.lookup]
    · split
      · rename_i h; subst h; by_cases hx : a = x <;> simp [Memory.lookup, hx]
      · rename_i h1 h2
        simp only [Memory.lookup, ih]
        by_cases hk : k = x
        · have : a ≠ x := by omega
          simp [hk, this]
        · simp [hk]

theorem Memory.risesFrom_mono {lo hi : Nat} (h : lo ≤ hi) {m : Memory} (hm : Memory.risesFrom hi m = true) :
    Memory.risesFrom lo m = true := by
  cases m with
  | nil => rfl
  | cons c m =>
    simp only [Memory.risesFrom, Bool.and_eq_true, decide_eq_true_eq] at hm ⊢
    exact ⟨by omega, hm.2⟩

theorem Memory.risesFrom_insert {lo a : Nat} (b : Byte) (ha : lo ≤ a) :
    ∀ {m : Memory}, Memory.risesFrom lo m = true → Memory.risesFrom lo (Memory.insert m a b) = true := by
  intro m
  induction m generalizing lo with
  | nil => intro _; simp [Memory.insert, Memory.risesFrom, ha]
  | cons c m ih =>
    obtain ⟨k, c⟩ := c
    intro hm
    simp only [Memory.risesFrom, Bool.and_eq_true, decide_eq_true_eq] at hm
    unfold Memory.insert
    split
    · rename_i h
      simp only [Memory.risesFrom, Bool.and_eq_true, decide_eq_true_eq]
      exact ⟨ha, by omega, hm.2⟩
    · split
      · rename_i h; subst h
        simp only [Memory.risesFrom, Bool.and_eq_true, decide_eq_true_eq]
        exact ⟨ha, hm.2⟩
      · simp only [Memory.risesFrom, Bool.and_eq_true, decide_eq_true_eq]
        exact ⟨hm.1, ih (by omega) hm.2⟩

/-- A write keeps the canonical form. -/
theorem Memory.wf_insert {m : Memory} (h : Memory.wf m = true) (a : Nat) (b : Byte) :
    Memory.wf (Memory.insert m a b) = true :=
  Memory.risesFrom_insert b (Nat.zero_le a) h

/-- A write to a byte that exists lists only bytes that exist. -/
theorem Memory.within_insert {n a : Nat} (b : Byte) (ha : a < n) :
    ∀ {m : Memory}, Memory.within n m = true → Memory.within n (Memory.insert m a b) = true := by
  intro m
  induction m with
  | nil => intro _; simp [Memory.insert, Memory.within, ha]
  | cons c m ih =>
    obtain ⟨k, c⟩ := c
    intro hm
    simp only [Memory.within, List.all_cons, Bool.and_eq_true, decide_eq_true_eq] at hm ih
    unfold Memory.insert
    split
    · simp only [Memory.within, List.all_cons, Bool.and_eq_true, decide_eq_true_eq]
      exact ⟨ha, hm⟩
    · split
      · simp only [Memory.within, List.all_cons, Bool.and_eq_true, decide_eq_true_eq]
        exact ⟨ha, hm.2⟩
      · simp only [Memory.within, List.all_cons, Bool.and_eq_true, decide_eq_true_eq]
        exact ⟨hm.1, ih hm.2⟩

/-- Two canonical memories that list the same bytes are equal. -/
theorem Memory.ext_of_lookup {m n : Memory} : ∀ {lo : Nat}, Memory.risesFrom lo m = true → Memory.risesFrom lo n = true →
    (∀ a, Memory.lookup m a = Memory.lookup n a) → m = n := by
  have below : ∀ {m : Memory} {lo a : Nat}, Memory.risesFrom lo m = true → a < lo → Memory.lookup m a = none := by
    intro m
    induction m with
    | nil => intros; rfl
    | cons c m ih =>
      obtain ⟨k, c⟩ := c
      intro lo a hm ha
      simp only [Memory.risesFrom, Bool.and_eq_true, decide_eq_true_eq] at hm
      have : k ≠ a := by omega
      simp [Memory.lookup, this, ih hm.2 (by omega : a < k + 1)]
  induction m generalizing n with
  | nil =>
    intro lo _ hn h
    cases n with
    | nil => rfl
    | cons c n => obtain ⟨k, c⟩ := c; have := h k; simp [Memory.lookup] at this
  | cons c m ih =>
    obtain ⟨k, c⟩ := c
    intro lo hm hn h
    simp only [Memory.risesFrom, Bool.and_eq_true, decide_eq_true_eq] at hm
    cases n with
    | nil => have := h k; simp [Memory.lookup] at this
    | cons d n =>
      obtain ⟨j, d⟩ := d
      simp only [Memory.risesFrom, Bool.and_eq_true, decide_eq_true_eq] at hn
      have hk := h k
      have hj := h j
      simp only [Memory.lookup, if_pos] at hk hj
      have hkj : k = j := by
        by_contra hne
        have hne' : j ≠ k := fun e => hne e.symm
        simp only [hne, hne', if_false] at hk hj
        rcases Nat.lt_or_gt_of_ne hne with hlt | hgt
        · rw [below hn.2 (by omega : k < j + 1)] at hk; simp at hk
        · rw [below hm.2 (by omega : j < k + 1)] at hj; simp at hj
      subst hkj
      simp only [if_pos, Option.some.injEq] at hk
      subst hk
      have : m = n := by
        refine ih hm.2 hn.2 fun a => ?_
        have ha := h a
        simp only [Memory.lookup] at ha
        by_cases he : k = a
        · subst he
          rw [below hm.2 (by omega : k < k + 1), below hn.2 (by omega : k < k + 1)]
        · simpa [he] using ha
      rw [this]

/-! ### Bytes of the state -/

theorem State.readByte_writeByte (s : State) (a x : Nat) (b : Byte) :
    (s.writeByte a b).readByte x = if a = x then b else s.readByte x := by
  simp only [State.readByte, State.writeByte, Memory.lookup_insert]
  split <;> simp

@[simp] theorem State.readByte_writeByte_same (s : State) (a : Nat) (b : Byte) : (s.writeByte a b).readByte a = b := by
  simp [State.readByte_writeByte]

theorem State.readByte_writeByte_other (s : State) {a x : Nat} (b : Byte) (h : a ≠ x) :
    (s.writeByte a b).readByte x = s.readByte x := by
  simp [State.readByte_writeByte, h]

/-- What a byte reads as depends on MEM and the draw its unlisted bytes come from, and on nothing else. -/
theorem State.readByte_congr {s t : State} (hm : s.mem = t.mem) (hd : s.memDraw = t.memDraw) (a : Nat) :
    s.readByte a = t.readByte a := by
  simp [State.readByte, hm, hd]

/-! ### Sequences of bytes -/

@[simp] theorem memRead_length (s : State) (a n : Nat) : (memRead s a n).length = n := by
  induction n generalizing a with
  | zero => rfl
  | succ n ih => simp [memRead, ih]

theorem memRead_congr {s t : State} {a n : Nat} (h : ∀ x, a ≤ x → x < a + n → s.readByte x = t.readByte x) :
    memRead s a n = memRead t a n := by
  induction n generalizing a with
  | zero => rfl
  | succ n ih =>
    simp only [memRead]
    rw [h a (by omega) (by omega), ih fun x h1 h2 => h x (by omega) (by omega)]

/-- Reading depends on MEM and the draw its unlisted bytes come from, and on nothing else. -/
theorem memRead_of_mem {s t : State} (hm : s.mem = t.mem) (hd : s.memDraw = t.memDraw) (a n : Nat) :
    memRead s a n = memRead t a n :=
  memRead_congr fun x _ _ => State.readByte_congr hm hd x

theorem memRead_append (s : State) (a m n : Nat) : memRead s a (m + n) = memRead s a m ++ memRead s (a + m) n := by
  induction m generalizing a with
  | zero => simp [memRead]
  | succ m ih =>
    rw [show m + 1 + n = (m + n) + 1 by omega]
    simp only [memRead, List.cons_append, ih (a + 1)]
    rw [show a + 1 + m = a + (m + 1) by omega]

theorem memRead_getElem (s : State) (a n k : Nat) (h : k < n) :
    (memRead s a n)[k]'(by simpa using h) = s.readByte (a + k) := by
  induction n generalizing a k with
  | zero => omega
  | succ n ih =>
    cases k with
    | zero => simp [memRead]
    | succ k =>
      simp only [memRead, List.getElem_cons_succ]
      rw [ih (a + 1) k (by omega)]
      congr 1
      omega

/-- A MemWrite changes MEM alone. -/
theorem memWrite_eq (s : State) (a : Nat) (bs : List Byte) : memWrite s a bs = { s with mem := (memWrite s a bs).mem } := by
  induction bs generalizing s a with
  | nil => rfl
  | cons b bs ih =>
    simp only [memWrite]
    rw [ih]
    rfl

/-- What a MemWrite makes of MEM depends on MEM alone. -/
theorem memWrite_of_mem {s t : State} (h : s.mem = t.mem) (a : Nat) (bs : List Byte) :
    (memWrite s a bs).mem = (memWrite t a bs).mem := by
  induction bs generalizing s t a with
  | nil => exact h
  | cons b bs ih => exact ih (by simp [h]) (a + 1)

/-- What a MemWrite leaves at an address. -/
theorem memWrite_readByte (s : State) (a : Nat) (bs : List Byte) (x : Nat) :
    (memWrite s a bs).readByte x =
      if h : a ≤ x ∧ x < a + bs.length then bs[x - a]'(by omega) else s.readByte x := by
  induction bs generalizing s a with
  | nil => simp only [memWrite, List.length_nil]; rw [dif_neg (by omega)]
  | cons b bs ih =>
    simp only [memWrite, List.length_cons, ih, State.readByte_writeByte]
    by_cases h0 : a = x
    · subst h0
      rw [dif_neg (by omega), dif_pos (by omega)]
      simp
    · by_cases h1 : a + 1 ≤ x ∧ x < a + 1 + bs.length
      · rw [dif_pos h1, dif_pos (by omega)]
        obtain ⟨d, rfl⟩ : ∃ d, x = a + 1 + d := ⟨x - (a + 1), by omega⟩
        simp only [show a + 1 + d - (a + 1) = d by omega, show a + 1 + d - a = d + 1 by omega, List.getElem_cons_succ]
      · rw [dif_neg h1, dif_neg (by omega), if_neg h0]

/-- Reading back what a MemWrite wrote. -/
theorem memRead_memWrite_same (s : State) (a : Nat) (bs : List Byte) : memRead (memWrite s a bs) a bs.length = bs := by
  apply List.ext_getElem (by simp)
  intro k h1 h2
  rw [memRead_getElem _ _ _ _ h2, memWrite_readByte, dif_pos (by omega)]
  congr 1
  omega

/-- Reading outside what a MemWrite wrote. -/
theorem memRead_memWrite_apart (s : State) {a x n : Nat} {bs : List Byte} (h : x + n ≤ a ∨ a + bs.length ≤ x) :
    memRead (memWrite s a bs) x n = memRead s x n := by
  apply memRead_congr
  intro y h1 h2
  rw [memWrite_readByte, dif_neg (by omega)]

theorem memWrite_append (s : State) (a : Nat) (bs cs : List Byte) :
    memWrite s a (bs ++ cs) = memWrite (memWrite s a bs) (a + bs.length) cs := by
  induction bs generalizing s a with
  | nil => simp [memWrite]
  | cons b bs ih =>
    simp only [List.cons_append, memWrite, ih, List.length_cons]
    rw [show a + 1 + bs.length = a + (bs.length + 1) by omega]

theorem memWrite_wf {s : State} (h : Memory.wf s.mem = true) (a : Nat) (bs : List Byte) :
    Memory.wf (memWrite s a bs).mem = true := by
  induction bs generalizing s a with
  | nil => exact h
  | cons b bs ih => exact ih (Memory.wf_insert h a b) (a + 1)

theorem memWrite_within {n : Nat} {s : State} (h : Memory.within n s.mem = true) {a : Nat} {bs : List Byte}
    (ha : a + bs.length ≤ n) : Memory.within n (memWrite s a bs).mem = true := by
  induction bs generalizing s a with
  | nil => exact h
  | cons b bs ih =>
    simp only [List.length_cons] at ha
    exact ih (s := s.writeByte a b) (Memory.within_insert b (by omega) h) (by omega)

/-! ### Unspecified bytes -/

/-- What a free fill leaves at an address. -/
theorem Memory.lookup_fillFree (draw : Nat) (m : Memory) (a n x : Nat) :
    Memory.lookup (Memory.fillFree draw m a n) x =
      if a ≤ x ∧ x < a + n then some (Config.freeByte draw x) else Memory.lookup m x := by
  induction n generalizing m a with
  | zero => simp only [Memory.fillFree]; rw [if_neg (by omega)]
  | succ n ih =>
    simp only [Memory.fillFree, ih, Memory.lookup_insert]
    by_cases h0 : a = x
    · subst h0; rw [if_neg (by omega), if_pos rfl, if_pos (by omega)]
    · by_cases h1 : a + 1 ≤ x ∧ x < a + 1 + n
      · rw [if_pos h1, if_pos (by omega)]
      · rw [if_neg h1, if_neg h0, if_neg (by omega)]

theorem Memory.wf_fillFree (draw : Nat) {m : Memory} (h : Memory.wf m = true) (a n : Nat) :
    Memory.wf (Memory.fillFree draw m a n) = true := by
  induction n generalizing m a with
  | zero => exact h
  | succ n ih => exact ih (Memory.wf_insert h a _) (a + 1)

theorem Memory.within_fillFree (draw : Nat) {k : Nat} {m : Memory} (h : Memory.within k m = true) {a n : Nat}
    (ha : a + n ≤ k ∨ n = 0) : Memory.within k (Memory.fillFree draw m a n) = true := by
  induction n generalizing m a with
  | zero => exact h
  | succ n ih => exact ih (Memory.within_insert _ (by omega) h) (by omega)

/-- A freed region's bytes are unspecified, every other byte is as before. -/
theorem State.readByte_freeRegion_other (s : State) (r : Region) {x : Nat} (h : r.holds x = false) :
    (s.freeRegion r).readByte x = s.readByte x := by
  simp only [Region.holds, Bool.and_eq_false_iff, decide_eq_false_iff_not] at h
  simp only [State.readByte, State.freeRegion, Memory.lookup_fillFree]
  rw [if_neg (by omega)]

theorem State.memOk_freeRegion {s : State} (r : Region) (hw : Memory.wf s.mem = true)
    (hi : Memory.within s.params.memBytes s.mem = true) :
    Memory.wf (s.freeRegion r).mem = true ∧ Memory.within s.params.memBytes (s.freeRegion r).mem = true := by
  refine ⟨Memory.wf_fillFree _ hw _ _, Memory.within_fillFree _ hi ?_⟩
  omega

/-! ### Regions -/

theorem regionsFit_read {p : Params} {rs : List Region} {w : Option Region} (h : regionsFit p rs w = true) {r : Region}
    (hr : r ∈ rs) : r.addr + r.len ≤ p.memBytes := by
  simp only [regionsFit, Bool.and_eq_true, List.all_eq_true] at h
  simpa [Region.inRange] using h.1 r hr

theorem regionsFit_write {p : Params} {rs : List Region} {w : Region} (h : regionsFit p rs (some w) = true) :
    w.addr + w.len ≤ p.memBytes := by
  simp only [regionsFit, Bool.and_eq_true] at h
  simpa [Region.inRange] using h.2.1

/-- A read region that fits beside the write region holds none of its bytes. -/
theorem regionsFit_apart {p : Params} {rs : List Region} {w r : Region} (h : regionsFit p rs (some w) = true)
    (hr : r ∈ rs) (x : Nat) : r.holds x = true → w.holds x = false := by
  simp only [regionsFit, Bool.and_eq_true, List.all_eq_true] at h
  have := h.2.2 r hr
  simp only [Region.overlaps, Bool.not_eq_true', Bool.and_eq_false_iff, decide_eq_false_iff_not] at this
  simp only [Region.holds, Bool.and_eq_true, decide_eq_true_eq, Bool.and_eq_false_iff, decide_eq_false_iff_not]
  omega

end Sys2Proof.Machine
end

