-- ==== Sys2Proof/Laws/BitCodec.lean ====
section
/-! SUPPORT. What the bit codec's shared functions do: every bit put is the next of the bits written, finalization packs
them, and a walk over the reader follows the bits of the source. -/

namespace Sys2Proof.Machine

/-! ### Bits and bytes -/

@[simp] theorem byteBits_length (b : Byte) : (byteBits b).length = 8 := by simp [byteBits]

@[simp] theorem unpackBits_nil : unpackBits [] = [] := rfl

theorem unpackBits_cons (b : Byte) (bs : List Byte) : unpackBits (b :: bs) = byteBits b ++ unpackBits bs := rfl

theorem unpackBits_append (as bs : List Byte) : unpackBits (as ++ bs) = unpackBits as ++ unpackBits bs := by
  simp [unpackBits]

@[simp] theorem unpackBits_length (bs : List Byte) : (unpackBits bs).length = 8 * bs.length := by
  induction bs with
  | nil => rfl
  | cons b bs ih => simp [unpackBits_cons, ih]; omega

/-- Bit `8 p + k` of a byte stream is position `7 - k` of byte `p`. -/
theorem unpackBits_getElem? (bs : List Byte) (p k : Nat) (hk : k < 8) (hp : p < bs.length) :
    (unpackBits bs)[8 * p + k]? = some (bs[p].getLsbD (7 - k)) := by
  induction bs generalizing p with
  | nil => simp at hp
  | cons b bs ih =>
    rw [unpackBits_cons]
    cases p with
    | zero =>
      rw [List.getElem?_append_left (by simp; omega)]
      simp [byteBits, hk]
    | succ p =>
      rw [List.getElem?_append_right (by simp; omega), byteBits_length,
        show 8 * (p + 1) + k - 8 = 8 * p + k by omega, ih p (by simpa using hp)]
      rfl

theorem shiftIn_getLsbD (acc : Byte) (b : Bool) (k : Nat) :
    (shiftIn acc b).getLsbD k = if k = 0 then b else decide (k < 8) && acc.getLsbD (k - 1) := by
  unfold shiftIn
  by_cases hk : k = 0
  · subst hk; cases b <;> simp
  · rw [if_neg hk]
    have h1 : ¬ k < 1 := by omega
    have h0 : (if b then (1 : Byte) else 0).getLsbD k = false := by cases b <;> simp [BitVec.getLsbD_one, hk]
    rw [BitVec.getLsbD_or, h0, Bool.or_false, BitVec.getLsbD_shiftLeft]
    simp [h1]

/-- Shifting a bit in puts it after the ones that were there. -/
theorem shiftIn_bits (acc : Byte) (b : Bool) (n : Nat) (h : n < 8) :
    (List.range (n + 1)).map (fun j => (shiftIn acc b).getLsbD (n - j)) =
      (List.range n).map (fun j => acc.getLsbD (n - 1 - j)) ++ [b] := by
  rw [List.range_succ, List.map_append]
  congr 1
  · apply List.map_congr_left
    intro j hj
    have hj : j < n := by simpa using hj
    rw [shiftIn_getLsbD, if_neg (by omega)]
    have : n - j < 8 := by omega
    simp [this, show n - j - 1 = n - 1 - j by omega]
  · simp [shiftIn_getLsbD]

/-- The pending bits, zero-padded on the right, as a whole byte. -/
theorem byteBits_shiftLeft (acc : Byte) (n : Nat) (h : n < 8) :
    byteBits (acc <<< (8 - n)) =
      (List.range n).map (fun j => acc.getLsbD (n - 1 - j)) ++ List.replicate (8 - n) false := by
  apply List.ext_getElem (by simp [byteBits]; omega)
  intro j h1 h2
  have hj : j < 8 := by simpa using h1
  by_cases hn : j < n
  · rw [List.getElem_append_left (by simpa using hn)]
    have : ¬ (7 - j < 8 - n) := by omega
    simp [byteBits, this, show 7 - j - (8 - n) = n - 1 - j by omega]
    omega
  · rw [List.getElem_append_right (by simp; omega)]
    have : 7 - j < 8 - n := by omega
    simp [byteBits, this]

theorem shiftIn_toNat (acc : Byte) (b : Bool) :
    (shiftIn acc b).toNat = (2 * acc.toNat + (if b then 1 else 0)) % 256 := by
  revert acc; cases b <;> decide

/-- Adding 1 to a word that is not the last. -/
theorem word_succ {x : Word} (h : x.toNat + 1 < 2 ^ 32) : (x + 1).toNat = x.toNat + 1 := by
  have h1 : (1 : Word).toNat = 1 := rfl
  rw [BitVec.toNat_add, h1, Nat.mod_eq_of_lt h]

/-! ### The writer -/

/-- `put_bit` with room left in the partial byte. -/
theorem putBit_pend (b : Bool) (s : State) (h : s.bw.nbits.val + 1 < 8) :
    putBit b s = { s with bw := { s.bw with acc := shiftIn s.bw.acc b, nbits := ⟨s.bw.nbits.val + 1, h⟩ } } := by
  simp [putBit, h]

/-- `put_bit` of the eighth bit. -/
theorem putBit_store (b : Bool) (s : State) (h : s.bw.nbits.val = 7) :
    putBit b s = { s.writeByte s.bw.next (shiftIn s.bw.acc b) with
      bw := { s.bw with bytes := s.bw.bytes + 1, acc := 0, nbits := 0 } } := by
  simp [putBit, h]

/-- What putting bits may change, and what it does to the bits written: they are appended, in order, and only bytes from
the writer's next one on are stored. -/
structure PutEffect (s t : State) (bits : Bits) : Prop where
  frame : t = { s with mem := t.mem, bw := { s.bw with bytes := t.bw.bytes, acc := t.bw.acc, nbits := t.bw.nbits } }
  count : 8 * t.bw.bytes.toNat + t.bw.nbits.val = 8 * s.bw.bytes.toNat + s.bw.nbits.val + bits.length
  written : t.writtenBits = s.writtenBits ++ bits
  outside : SameOutside s t (s.bw.base.toNat + s.bw.bytes.toNat) (t.bw.bytes.toNat - s.bw.bytes.toNat)
  wf : Memory.wf s.mem = true → Memory.wf t.mem = true
  within : ∀ n, Memory.within n s.mem = true → s.bw.base.toNat + t.bw.bytes.toNat ≤ n → Memory.within n t.mem = true
  writerOk : s.writerOk → t.writerOk

theorem PutEffect.refl (s : State) : PutEffect s s [] :=
  ⟨rfl, rfl, by simp, fun _ _ => rfl, id, fun _ h _ => h, id⟩

theorem PutEffect.base {s t : State} {bits : Bits} (h : PutEffect s t bits) : t.bw.base = s.bw.base := by
  rw [h.frame]

theorem PutEffect.cap {s t : State} {bits : Bits} (h : PutEffect s t bits) : t.bw.cap = s.bw.cap := by
  rw [h.frame]

theorem PutEffect.code {s t : State} {bits : Bits} (h : PutEffect s t bits) : t.code = s.code := by
  rw [h.frame]

theorem PutEffect.bytes_le {s t : State} {bits : Bits} (h : PutEffect s t bits) :
    s.bw.bytes.toNat ≤ t.bw.bytes.toNat := by
  have := h.count
  omega

theorem PutEffect.trans {s t u : State} {as bs : Bits} (h : PutEffect s t as) (k : PutEffect t u bs) :
    PutEffect s u (as ++ bs) := by
  have hle := h.bytes_le
  have kle := k.bytes_le
  refine ⟨?_, ?_, ?_, ?_, fun w => k.wf (h.wf w), fun n w b => ?_, fun w => k.writerOk (h.writerOk w)⟩
  · rw [k.frame, h.frame]
  · have := h.count; have := k.count; simp only [List.length_append]; omega
  · rw [k.written, h.written, List.append_assoc]
  · intro x hx
    rw [k.outside x (by rw [h.base]; omega), h.outside x (by omega)]
  · exact k.within n (h.within n w (by omega)) (by rw [h.base]; exact b)

/-- The bits written depend on BW and on MEM alone. -/
theorem State.writtenBits_congr {s t : State} (hb : t.bw = s.bw) (hm : t.mem = s.mem) (hd : t.memDraw = s.memDraw) :
    t.writtenBits = s.writtenBits := by
  simp only [State.writtenBits, hb]
  rw [memRead_of_mem hm hd]

/-- One bit, when the count of bytes cannot wrap. -/
theorem putBit_effect (b : Bool) (s : State) (hb : s.bw.bytes.toNat + (s.bw.nbits.val + 1) / 8 < 2 ^ 32) :
    PutEffect s (putBit b s) [b] := by
  by_cases h : s.bw.nbits.val + 1 < 8
  · rw [putBit_pend b s h]
    refine ⟨rfl, by simp only [List.length_singleton]; omega, ?_, fun _ _ => rfl, id, fun _ w _ => w, ?_⟩
    · simp only [State.writtenBits, BitWriter.pending, List.append_assoc]
      congr 1
      · exact congrArg unpackBits (memRead_of_mem (by rfl) (by rfl) _ _)
      · exact shiftIn_bits _ _ _ (by omega)
    · intro w
      simp only [State.writerOk, shiftIn_toNat] at w ⊢
      have hp : 2 ^ (s.bw.nbits.val + 1) = 2 * 2 ^ s.bw.nbits.val := by rw [Nat.pow_succ]; omega
      have : (2 * s.bw.acc.toNat + (if b then 1 else 0)) % 256 ≤ 2 * s.bw.acc.toNat + (if b then 1 else 0) :=
        Nat.mod_le _ _
      have : (if b then 1 else 0) ≤ 1 := by cases b <;> simp
      omega
  · have h7 : s.bw.nbits.val = 7 := by have := s.bw.nbits.isLt; omega
    have hbytes : (s.bw.bytes + 1).toNat = s.bw.bytes.toNat + 1 := word_succ (by omega)
    rw [putBit_store b s h7]
    refine ⟨rfl, ?_, ?_, ?_, fun w => Memory.wf_insert w _ _, fun n w k => Memory.within_insert _ ?_ w, fun _ => ?_⟩
    · simp only [hbytes, List.length_singleton]
      have : ((0 : Fin 8) : Nat) = 0 := rfl
      omega
    · simp only [State.writtenBits, hbytes, memRead_append, unpackBits_append, List.append_assoc]
      congr 1
      · congr 1
        apply memRead_congr
        intro x h1 h2
        exact State.readByte_writeByte_other s _ (by simp only [BitWriter.next]; omega)
      · have hr : State.readByte { s.writeByte s.bw.next (shiftIn s.bw.acc b) with
            bw := { s.bw with bytes := s.bw.bytes + 1, acc := 0, nbits := 0 } }
            (s.bw.base.toNat + s.bw.bytes.toNat) = shiftIn s.bw.acc b :=
          State.readByte_writeByte_same s _ _
        simp only [memRead, unpackBits_cons, unpackBits_nil, List.append_nil, BitWriter.pending, h7, hr]
        simpa [byteBits] using shiftIn_bits s.bw.acc b 7 (by omega)
    · intro x hx
      simp only [hbytes] at hx
      exact State.readByte_writeByte_other s _ (by simp only [BitWriter.next]; omega)
    · simp only [hbytes] at k
      simp only [BitWriter.next]
      omega
    · simp [State.writerOk]

/-- A bit string, when the count of bytes cannot wrap. -/
theorem putBits_effect (bits : Bits) (s : State)
    (hb : s.bw.bytes.toNat + (s.bw.nbits.val + bits.length) / 8 < 2 ^ 32) : PutEffect s (putBits bits s) bits := by
  induction bits generalizing s with
  | nil => exact PutEffect.refl s
  | cons b bits ih =>
    simp only [List.length_cons] at hb
    have h1 := putBit_effect b s (by omega)
    have hc := h1.count
    simp only [List.length_singleton] at hc
    exact h1.trans (ih (putBit b s) (by omega))

theorem codeBitCount_eq (c : CodeTable) (p : List Byte) : codeBitCount c p = (payloadBits c p).length := by
  induction p with
  | nil => rfl
  | cons v p ih => simp [codeBitCount, payloadBits, ih] at ih ⊢

theorem payloadBits_cons (c : CodeTable) (v : Byte) (p : List Byte) :
    payloadBits c (v :: p) = tableGet c v ++ payloadBits c p := rfl

/-- The codes of a byte sequence, one after the other. -/
theorem putSymbols_effect (p : List Byte) (s : State)
    (hb : s.bw.bytes.toNat + (s.bw.nbits.val + (payloadBits s.code p).length) / 8 < 2 ^ 32) :
    PutEffect s (putSymbols p s) (payloadBits s.code p) := by
  induction p generalizing s with
  | nil => exact PutEffect.refl s
  | cons v p ih =>
    rw [payloadBits_cons, List.length_append] at hb
    have h1 := putBits_effect (tableGet s.code v) s (by omega)
    have hc := h1.count
    have h2 := ih (putBits (tableGet s.code v) s) (by rw [h1.code]; omega)
    rw [h1.code] at h2
    exact h1.trans h2

/-- A new writer has written nothing. -/
theorem openWriter_writtenBits (base cap : Word) (s : State) : (openWriter base cap s).writtenBits = [] := by
  simp [openWriter, State.writtenBits, BitWriter.pending, memRead]

theorem openWriter_readByte (base cap : Word) (s : State) (x : Nat) :
    (openWriter base cap s).readByte x = s.readByte x := rfl

/-- What finalization leaves: the writer closed, the bits written packed in the sink, nothing else stored. -/
structure FlushEffect (s t : State) : Prop where
  frame : t = { s with mem := t.mem, bw := { s.bw with active := false, bytes := t.bw.bytes, acc := 0, nbits := 0 } }
  bytes : t.bw.bytes.toNat = s.bw.bytes.toNat + (s.bw.nbits.val + 7) / 8
  packed : unpackBits (memRead t s.bw.base.toNat t.bw.bytes.toNat) =
    s.writtenBits ++ List.replicate s.bw.pad false
  outside : SameOutside s t (s.bw.base.toNat + s.bw.bytes.toNat) ((s.bw.nbits.val + 7) / 8)
  wf : Memory.wf s.mem = true → Memory.wf t.mem = true
  within : ∀ n, Memory.within n s.mem = true → s.bw.base.toNat + t.bw.bytes.toNat ≤ n → Memory.within n t.mem = true

theorem flushWriter_effect (s : State) (hb : s.bw.bytes.toNat + (s.bw.nbits.val + 7) / 8 < 2 ^ 32) :
    FlushEffect s (flushWriter s) := by
  unfold flushWriter
  by_cases h0 : s.bw.nbits.val = 0
  · rw [if_pos h0]
    refine ⟨rfl, ?_, ?_, fun _ _ => rfl, id, fun _ w _ => w⟩
    · simp only [h0]; omega
    · simp only [BitWriter.pad, h0, if_true, List.replicate_zero, List.append_nil, State.writtenBits, BitWriter.pending,
        List.range_zero, List.map_nil]
      exact congrArg unpackBits (memRead_of_mem (by rfl) (by rfl) _ _)
  · rw [if_neg h0]
    have hlt := s.bw.nbits.isLt
    have hbytes : (s.bw.bytes + 1).toNat = s.bw.bytes.toNat + 1 := word_succ (by omega)
    refine ⟨rfl, ?_, ?_, ?_, fun w => Memory.wf_insert w _ _, fun n w k => Memory.within_insert _ ?_ w⟩
    · simp only [hbytes]; omega
    · simp only [State.writtenBits, hbytes, memRead_append, unpackBits_append, List.append_assoc]
      congr 1
      · congr 1
        apply memRead_congr
        intro x h1 h2
        exact State.readByte_writeByte_other s _ (by simp only [BitWriter.next]; omega)
      · have hr : State.readByte { s.writeByte s.bw.next (s.bw.acc <<< (8 - s.bw.nbits.val)) with
            bw := { s.bw with active := false, bytes := s.bw.bytes + 1, acc := 0, nbits := 0 } }
            (s.bw.base.toNat + s.bw.bytes.toNat) = s.bw.acc <<< (8 - s.bw.nbits.val) :=
          State.readByte_writeByte_same s _ _
        simp only [memRead, unpackBits_cons, unpackBits_nil, List.append_nil, BitWriter.pending, BitWriter.pad, h0,
          if_false, hr]
        exact byteBits_shiftLeft s.bw.acc _ hlt
    · intro x hx
      exact State.readByte_writeByte_other s _ (by simp only [BitWriter.next]; omega)
    · simp only [hbytes] at k
      simp only [BitWriter.next]
      omega

/-! ### The reader -/

/-- The bits of the reader's source. -/
def State.sourceBits (s : State) : Bits := unpackBits (memRead s s.br.base.toNat s.br.len.toNat)

/-- The bits a reader has left. -/
def State.bitsLeft (s : State) : Bits := s.sourceBits.drop s.br.consumed

theorem BitReader.advance_consumed (r : BitReader) (h : r.pos < r.len) : r.advance.consumed = r.consumed + 1 := by
  unfold BitReader.advance
  split
  · simp [BitReader.consumed]; omega
  · rename_i h8
    have hb : r.bit.val = 7 := by have := r.bit.isLt; omega
    have hl : r.pos.toNat < r.len.toNat := h
    have hp : (r.pos + 1).toNat = r.pos.toNat + 1 := word_succ (by have := r.len.isLt; omega)
    simp only [BitReader.consumed, hp, hb]
    have : ((0 : Fin 8) : Nat) = 0 := rfl
    omega

theorem BitReader.advance_frame (r : BitReader) :
    r.advance = { r with pos := r.advance.pos, bit := r.advance.bit } := by
  unfold BitReader.advance
  split <;> rfl

theorem BitReader.advance_ok (r : BitReader) (h : r.pos < r.len) : r.advance.pos ≤ r.advance.len := by
  unfold BitReader.advance
  split
  · exact BitVec.le_of_lt h
  · have hl : r.pos.toNat < r.len.toNat := h
    have hp : (r.pos + 1).toNat = r.pos.toNat + 1 := word_succ (by have := r.len.isLt; omega)
    show (r.pos + 1).toNat ≤ r.len.toNat
    omega

/-- `get_bit` gives the first of the bits left, if there is one, and moves the cursor past it. -/
theorem getBit_spec (s : State) :
    (getBit s = none ∧ s.bitsLeft = []) ∨
      ∃ b t rest, getBit s = some (b, t) ∧ s.bitsLeft = b :: rest ∧ t.bitsLeft = rest ∧ t.readerOk ∧
        t.br.consumed = s.br.consumed + 1 ∧
        t = { s with br := { s.br with pos := t.br.pos, bit := t.br.bit } } := by
  unfold getBit
  by_cases h : s.br.len ≤ s.br.pos
  · left
    refine ⟨if_pos h, ?_⟩
    have h1 : s.br.len.toNat ≤ s.br.pos.toNat := h
    apply List.drop_eq_nil_of_le
    simp only [State.sourceBits, unpackBits_length, memRead_length, BitReader.consumed]
    omega
  · right
    rw [if_neg h]
    have hlt : s.br.pos < s.br.len := BitVec.not_le.mp h
    have hn : s.br.pos.toNat < s.br.len.toNat := hlt
    refine ⟨_, _, s.sourceBits.drop (s.br.consumed + 1), rfl, ?_, ?_, s.br.advance_ok hlt, s.br.advance_consumed hlt, ?_⟩
    · have hget : s.sourceBits[s.br.consumed]? =
          some ((s.readByte (s.br.base.toNat + s.br.pos.toNat)).getLsbD (7 - s.br.bit.val)) := by
        have := unpackBits_getElem? (memRead s s.br.base.toNat s.br.len.toNat) s.br.pos.toNat s.br.bit.val
          s.br.bit.isLt (by simpa using hn)
        rw [memRead_getElem _ _ _ _ hn] at this
        exact this
      obtain ⟨hlen, hval⟩ := List.getElem?_eq_some_iff.mp hget
      simp only [State.bitsLeft]
      rw [List.drop_eq_getElem_cons hlen, hval]
    · show List.drop s.br.advance.consumed (unpackBits (memRead _ s.br.advance.base.toNat s.br.advance.len.toNat)) = _
      rw [s.br.advance_consumed hlt, s.br.advance_frame]
      exact congrArg (fun l => List.drop _ (unpackBits l)) (memRead_of_mem (by rfl) (by rfl) _ _)
    · show { s with br := s.br.advance } = { s with br := { s.br with pos := s.br.advance.pos, bit := s.br.advance.bit } }
      rw [← s.br.advance_frame]

/-- A walk follows the bits left. -/
theorem walkTree_spec (tr : HTree) : ∀ s : State, s.readerOk →
    (walkTree tr s = none ∧ tr.follow s.bitsLeft = none) ∨
      ∃ v t, walkTree tr s = some (v, t) ∧ tr.follow s.bitsLeft = some (v, t.bitsLeft) ∧ t.readerOk ∧
        t.br.consumed + t.bitsLeft.length = s.br.consumed + s.bitsLeft.length ∧
        t = { s with br := { s.br with pos := t.br.pos, bit := t.br.bit } } := by
  induction tr with
  | leaf v w => intro s hs; exact .inr ⟨v, s, rfl, rfl, hs, rfl, rfl⟩
  | node w l r ihl ihr =>
    intro s hs
    rcases getBit_spec s with ⟨h1, h2⟩ | ⟨b, t, rest, h1, h2, h3, h4, h5, h6⟩
    · left
      simp [walkTree, h1, h2, HTree.follow]
    · simp only [walkTree, h1, h2, HTree.follow]
      have hlen : t.br.consumed + t.bitsLeft.length = s.br.consumed + (b :: rest).length := by
        rw [h5, h3, List.length_cons]; omega
      cases b with
      | false =>
        simp only [Bool.false_eq_true, if_false]
        rcases ihl t h4 with ⟨k1, k2⟩ | ⟨v, u, k1, k2, k3, k4, k5⟩
        · left; exact ⟨k1, by rwa [h3] at k2⟩
        · right; exact ⟨v, u, k1, by rwa [h3] at k2, k3, by omega, by rw [k5, h6]⟩
      | true =>
        simp only [if_true]
        rcases ihr t h4 with ⟨k1, k2⟩ | ⟨v, u, k1, k2, k3, k4, k5⟩
        · left; exact ⟨k1, by rwa [h3] at k2⟩
        · right; exact ⟨v, u, k1, by rwa [h3] at k2, k3, by omega, by rw [k5, h6]⟩

/-- A store outside the reader's source leaves the bits left. -/
theorem bitsLeft_writeByte (s : State) (a : Nat) (v : Byte)
    (h : a < s.br.base.toNat ∨ s.br.base.toNat + s.br.len.toNat ≤ a) : (s.writeByte a v).bitsLeft = s.bitsLeft := by
  unfold State.bitsLeft State.sourceBits
  have : memRead (s.writeByte a v) s.br.base.toNat s.br.len.toNat = memRead s s.br.base.toNat s.br.len.toNat :=
    memRead_congr fun x h1 h2 => State.readByte_writeByte_other s v (by omega)
  simp only [State.writeByte_br, this]

/-- Decoding `n` symbols to a region apart from the source: the leaves of `n` walks over the bits left, at the
destination and nowhere else. -/
theorem decodeSymbols_spec (tr : HTree) : ∀ (n dst : Nat) (s : State), s.readerOk →
    apart s.br.base.toNat s.br.len.toNat dst n →
    (decodeSymbols tr n dst s = none ∧ tr.decodeBits n s.bitsLeft = none) ∨
      ∃ vs t, decodeSymbols tr n dst s = some t ∧ tr.decodeBits n s.bitsLeft = some (vs, t.bitsLeft) ∧
        vs.length = n ∧ t.mem = (memWrite s dst vs).mem ∧ t.readerOk ∧
        t.br.consumed + t.bitsLeft.length = s.br.consumed + s.bitsLeft.length ∧
        t = { s with mem := t.mem, br := { s.br with pos := t.br.pos, bit := t.br.bit } } := by
  intro n
  induction n with
  | zero => intro dst s hs _; exact .inr ⟨[], s, rfl, rfl, rfl, rfl, hs, rfl, rfl⟩
  | succ n ih =>
    intro dst s hs ha
    rcases walkTree_spec tr s hs with ⟨h1, h2⟩ | ⟨v, t, h1, h2, h3, h4, h5⟩
    · left; simp [decodeSymbols, HTree.decodeBits, h1, h2]
    · have hbase : t.br.base = s.br.base := by rw [h5]
      have hlen : t.br.len = s.br.len := by rw [h5]
      have hmem : t.mem = s.mem := by rw [h5]
      by_cases h0 : s.br.len.toNat = 0
      · -- an empty source: nothing to keep apart from
        have hl : (t.writeByte dst v).bitsLeft = t.bitsLeft := by
          simp [State.bitsLeft, State.sourceBits, hlen, h0, memRead]
        rcases ih (dst + 1) (t.writeByte dst v) h3 (by
            simp only [State.writeByte_br, hbase, hlen]; exact .inl h0) with
          ⟨k1, k2⟩ | ⟨vs, u, k1, k2, k3, k4, k5, k6, k7⟩
        · left; simp only [decodeSymbols, HTree.decodeBits, h1, h2, k1, ← hl, k2, and_self]
        · right
          refine ⟨v :: vs, u, ?_, ?_, by simp [k3], ?_, k5, ?_, ?_⟩
          · simp only [decodeSymbols, h1, k1]
          · simp only [HTree.decodeBits, h2, ← hl, k2]
          · rw [k4]
            exact memWrite_of_mem (by simp [hmem]) _ _
          · rw [k6, hl]; simpa using h4
          · rw [k7, h5]; rfl
      · have hd : dst < s.br.base.toNat ∨ s.br.base.toNat + s.br.len.toNat ≤ dst := by
          rcases ha with h | h | h | h <;> omega
        have hl : (t.writeByte dst v).bitsLeft = t.bitsLeft :=
          bitsLeft_writeByte t dst v (by rw [hbase, hlen]; exact hd)
        rcases ih (dst + 1) (t.writeByte dst v) h3 (by
            simp only [State.writeByte_br, hbase, hlen]
            rcases ha with h | h | h | h
            · exact .inl h
            · omega
            · exact .inr (.inr (.inl (by omega)))
            · by_cases hn : n = 0
              · exact .inr (.inl hn)
              · exact .inr (.inr (.inr (by omega)))) with
          ⟨k1, k2⟩ | ⟨vs, u, k1, k2, k3, k4, k5, k6, k7⟩
        · left; simp only [decodeSymbols, HTree.decodeBits, h1, h2, k1, ← hl, k2, and_self]
        · right
          refine ⟨v :: vs, u, ?_, ?_, by simp [k3], ?_, k5, ?_, ?_⟩
          · simp only [decodeSymbols, h1, k1]
          · simp only [HTree.decodeBits, h2, ← hl, k2]
          · rw [k4]
            exact memWrite_of_mem (by simp [hmem]) _ _
          · rw [k6, hl]; simpa using h4
          · rw [k7, h5]; rfl

end Sys2Proof.Machine
end

