-- ==== Sys2Proof/Laws/Tree.lean ====
section
/-! SUPPORT. What the tree builder's and the serializer's functions do: tables, counting, merging, code tables as paths, and
the token stream read back. -/

namespace Sys2Proof.Machine

/-! ### Tables -/

theorem tableGet_tableSet {α : Type} (t : Vector α 256) (v x : Byte) (a : α) :
    tableGet (tableSet t v a) x = if x = v then a else tableGet t x := by
  unfold tableGet tableSet
  by_cases h : x = v
  · subst h; simp
  · have : v.toNat ≠ x.toNat := fun e => h (BitVec.eq_of_toNat_eq e.symm)
    simp [h, this]

@[simp] theorem tableGet_replicate {α : Type} (a : α) (x : Byte) : tableGet (Vector.replicate 256 a) x = a := by
  simp [tableGet]

theorem table_ext {α : Type} {t u : Vector α 256} (h : ∀ v : Byte, tableGet t v = tableGet u v) : t = u := by
  ext i hi
  have := h (BitVec.ofNat 8 i)
  simp only [tableGet, BitVec.toNat_ofNat] at this
  simpa [Nat.mod_eq_of_lt (show i < 256 by omega)] using this

/-- Every byte value is one of the 256. -/
theorem mem_byteValues (v : Byte) : v ∈ byteValues := by
  simp only [byteValues, List.mem_map, List.mem_range]
  exact ⟨v.toNat, v.isLt, by simp⟩

theorem byteValues_nodup : byteValues.Nodup := by
  apply List.Nodup.map_on _ List.nodup_range
  intro a ha b hb h
  have h1 : a < 256 := by simpa using ha
  have h2 : b < 256 := by simpa using hb
  have := congrArg BitVec.toNat h
  simp only [BitVec.toNat_ofNat] at this
  omega

theorem byteValues_length : byteValues.length = 256 := by simp [byteValues]

/-- Each occurrence adds one, modulo 2^64. -/
theorem tableGet_countBytes (f : FreqTable) (p : List Byte) (v : Byte) :
    tableGet (countBytes f p) v = tableGet f v + BitVec.ofNat 64 (p.count v) := by
  induction p generalizing f with
  | nil => simp [countBytes]
  | cons b p ih =>
    have : countBytes f (b :: p) = countBytes (tableSet f b (tableGet f b + 1)) p := rfl
    rw [this, ih, tableGet_tableSet, List.count_cons]
    by_cases h : v = b
    · subst h
      simp only [if_true, beq_self_eq_true, BitVec.ofNat_add]
      rw [BitVec.add_assoc]
      congr 1
      rw [BitVec.add_comm]
      rfl
    · have hb : ¬ (b = v) := fun e => h e.symm
      simp [h, hb]

/-! ### Shapes -/

theorem HTree.values_eq (t : HTree) : t.values = t.leafList.map (·.1) := by
  induction t with
  | leaf v w => rfl
  | node w l r ihl ihr => simp [HTree.values, HTree.leafList, ihl, ihr]

theorem HTree.values_length_pos (t : HTree) : 1 ≤ t.values.length := by
  induction t with
  | leaf v w => simp [HTree.values]
  | node w l r ihl ihr => simp [HTree.values]; omega

/-- A full tree of `k` leaves has `2 k - 1` nodes. -/
theorem HTree.nodeCount_values (t : HTree) : t.nodeCount + 1 = 2 * t.values.length := by
  induction t with
  | leaf v w => rfl
  | node w l r ihl ihr => simp [HTree.nodeCount, HTree.values]; omega

theorem HTree.nodeCount_pos (t : HTree) : 1 ≤ t.nodeCount := by
  cases t
  · simp [HTree.nodeCount]
  · simp [HTree.nodeCount]; omega

/-- A token stream has one byte for each node and one more for each leaf. -/
theorem ser_length (t : HTree) : (ser t).length = t.nodeCount + t.values.length := by
  induction t with
  | leaf v w => rfl
  | node w l r ihl ihr => simp [ser, HTree.nodeCount, HTree.values, ihl, ihr]; omega

theorem ser_unweighted (t : HTree) : ser t.unweighted = ser t := by
  induction t with
  | leaf v w => rfl
  | node w l r ihl ihr => simp [HTree.unweighted, ser, ihl, ihr]

theorem HTree.unweighted_nodeCount (t : HTree) : t.unweighted.nodeCount = t.nodeCount := by
  induction t with
  | leaf v w => rfl
  | node w l r ihl ihr => simp [HTree.unweighted, HTree.nodeCount, ihl, ihr]

theorem HTree.follow_unweighted (t : HTree) (bs : Bits) : t.unweighted.follow bs = t.follow bs := by
  induction t generalizing bs with
  | leaf v w => rfl
  | node w l r ihl ihr => cases bs <;> simp [HTree.unweighted, HTree.follow, ihl, ihr]

theorem HTree.decodeBits_unweighted (t : HTree) (n : Nat) (bs : Bits) :
    t.unweighted.decodeBits n bs = t.decodeBits n bs := by
  induction n generalizing bs with
  | zero => rfl
  | succ n ih => simp only [HTree.decodeBits, HTree.follow_unweighted, ih]

/-! ### Merging -/

/-- `extract_min` loses and invents no entry. -/
theorem extractMin_perm (x : QEntry) (q : List QEntry) :
    ((extractMin x q).1 :: (extractMin x q).2).Perm (x :: q) := by
  induction q generalizing x with
  | nil => exact List.Perm.refl _
  | cons y ys ih =>
    simp only [extractMin]
    split
    · exact List.Perm.refl _
    · exact (List.Perm.swap _ _ _).trans ((ih y).cons x)

theorem extractMin_length (x : QEntry) (q : List QEntry) : (extractMin x q).2.length = q.length := by
  have := (extractMin_perm x q).length_eq
  simpa using this

/-- What merging a queue keeps: the leaves, the sums, and a count of nodes. -/
theorem mergeQueue_spec : ∀ (fuel next : Nat) (x : QEntry) (q : List QEntry), q.length ≤ fuel →
    (mergeQueue fuel next x q).leafList.Perm ((x :: q).flatMap (fun e => e.tree.leafList)) ∧
    ((∀ e ∈ x :: q, e.tree.sums) → (mergeQueue fuel next x q).sums) ∧
    (mergeQueue fuel next x q).nodeCount = ((x :: q).map (fun e => e.tree.nodeCount)).sum + q.length ∧
    (q ≠ [] → (mergeQueue fuel next x q).internal = true) := by
  intro fuel
  induction fuel with
  | zero =>
    intro next x q hq
    have : q = [] := List.length_eq_zero_iff.mp (by omega)
    subst this
    refine ⟨by simp [mergeQueue], fun h => h x (by simp), by simp [mergeQueue], fun h => absurd rfl h⟩
  | succ fuel ih =>
    intro next x q hq
    have p1 := extractMin_perm x q
    have l1 := extractMin_length x q
    simp only [mergeQueue]
    generalize hm : extractMin x q = m at p1 l1 ⊢
    obtain ⟨a, rest⟩ := m
    simp only at p1 l1 ⊢
    cases rest with
    | nil =>
      have hq0 : q = [] := List.length_eq_zero_iff.mp (by simpa using l1.symm)
      subst hq0
      have hax : a = x := by simpa using p1
      subst hax
      refine ⟨by simp, fun h => h a (by simp), by simp, fun h => absurd rfl h⟩
    | cons y ys =>
      have p2 := extractMin_perm y ys
      have l2 := extractMin_length y ys
      simp only
      generalize hn : extractMin y ys = n at p2 l2 ⊢
      obtain ⟨b, rest⟩ := n
      simp only at p2 l2 ⊢
      have hlen : rest.length + 1 = q.length := by simp only [List.length_cons] at l1; omega
      obtain ⟨i1, i2, i3, i4⟩ := ih (next + 1) ⟨combine a.tree b.tree, next⟩ rest (by omega)
      have pq : (a :: b :: rest).Perm (x :: q) := (p2.cons a).trans p1
      refine ⟨i1.trans ?_, fun h => i2 ?_, ?_, fun _ => ?_⟩
      · refine List.Perm.trans ?_ (pq.flatMap_right _)
        simp [combine, HTree.leafList]
      · intro e he
        rcases List.mem_cons.mp he with rfl | he
        · exact ⟨rfl, h a (pq.subset (by simp)), h b (pq.subset (by simp))⟩
        · exact h e (pq.subset (by simp [he]))
      · rw [i3, ← (pq.map _).sum_eq]
        simp [combine, HTree.nodeCount]
        omega
      · cases rest with
        | nil =>
          cases fuel <;> simp [mergeQueue, extractMin, combine, HTree.internal]
        | cons z zs => exact i4 (by simp)

theorem mem_freqSymbols (f : FreqTable) (v : Byte) : v ∈ freqSymbols f ↔ tableGet f v ≠ 0 := by
  simp [freqSymbols, mem_byteValues]

theorem freqSymbols_nodup (f : FreqTable) : (freqSymbols f).Nodup := byteValues_nodup.filter _

theorem freqSymbols_length (f : FreqTable) : (freqSymbols f).length ≤ 256 := by
  rw [← byteValues_length]
  exact List.length_filter_le _ _

theorem numberFrom_trees (k : Nat) (ts : List HTree) : (numberFrom k ts).map (·.tree) = ts := by
  induction ts generalizing k with
  | nil => rfl
  | cons t ts ih => simp [numberFrom, ih]

theorem numberFrom_length (k : Nat) (ts : List HTree) : (numberFrom k ts).length = ts.length := by
  rw [← List.length_map (f := (·.tree)), numberFrom_trees]

/-- The tree of two values or more: a leaf for each, internal, summed, `2 d - 1` nodes. -/
theorem buildTree_many (f : FreqTable) (v u : Byte) (vs : List Byte) (h : freqSymbols f = v :: u :: vs) :
    (buildTree f).leafList.Perm ((freqSymbols f).map (fun x => (x, tableGet f x))) ∧ (buildTree f).sums ∧
    (buildTree f).nodeCount = 2 * (freqSymbols f).length - 1 ∧ (buildTree f).internal = true := by
  have hb : buildTree f = mergeQueue (u :: vs).length ((u :: vs).length + 1) ⟨freqLeaf f v, 0⟩
      (numberFrom 1 ((u :: vs).map (freqLeaf f))) := by
    simp only [buildTree, h]
  obtain ⟨i1, i2, i3, i4⟩ := mergeQueue_spec (u :: vs).length ((u :: vs).length + 1) ⟨freqLeaf f v, 0⟩
    (numberFrom 1 ((u :: vs).map (freqLeaf f))) (by rw [numberFrom_length, List.length_map])
  have ht : (QEntry.mk (freqLeaf f v) 0 :: numberFrom 1 ((u :: vs).map (freqLeaf f))).map (·.tree) =
      (v :: u :: vs).map (freqLeaf f) := by
    simp only [List.map_cons (f := (fun e : QEntry => e.tree)), numberFrom_trees]
    simp
  have hleaf : ∀ l : List QEntry, l.flatMap (fun e => e.tree.leafList) = (l.map (·.tree)).flatMap HTree.leafList := by
    intro l; simp [List.flatMap_map]
  have hcount : ∀ l : List QEntry, l.map (fun e => e.tree.nodeCount) = (l.map (·.tree)).map HTree.nodeCount := by
    intro l; simp
  rw [hb, h]
  refine ⟨i1.trans ?_, i2 ?_, ?_, i4 ?_⟩
  · rw [hleaf, ht]
    have : ∀ l : List Byte, (l.map (freqLeaf f)).flatMap HTree.leafList = l.map (fun x => (x, tableGet f x)) := by
      intro l
      induction l with
      | nil => rfl
      | cons a l ih => simp only [List.map_cons, List.flatMap_cons, ih]; rfl
    rw [this]
  · intro e he
    have he := List.mem_map_of_mem (f := (·.tree)) he
    rw [ht] at he
    obtain ⟨x, -, hx⟩ := List.mem_map.mp he
    rw [← hx]
    trivial
  · rw [i3, hcount, ht]
    have : ∀ l : List Byte, ((l.map (freqLeaf f)).map HTree.nodeCount).sum = l.length := by
      intro l
      induction l with
      | nil => rfl
      | cons a l ih =>
        simp only [List.map_cons, List.sum_cons, ih, List.length_cons]
        show 1 + _ = _
        omega
    rw [this, numberFrom_length]
    simp
    omega
  · intro h0
    have := congrArg List.length h0
    rw [numberFrom_length] at this
    simp at this

/-! ### Code tables -/

/-- A walk overwrites: each value gets its last path below, after the path so far. -/
theorem tableGet_walkCode (t : HTree) (p : Bits) (c : CodeTable) (x : Byte) :
    tableGet (walkCode t p c) x =
      (((t.paths.filter (fun q => q.1 == x)).getLast?).map (fun q => p ++ q.2)).getD (tableGet c x) := by
  induction t generalizing p c with
  | leaf v w =>
    simp only [walkCode, HTree.paths, tableGet_tableSet]
    by_cases h : x = v
    · subst h; simp
    · have : ¬ (v = x) := fun e => h e.symm
      simp [h, this]
  | node w l r ihl ihr =>
    simp only [walkCode, HTree.paths, ihr, ihl, List.filter_append, List.getLast?_append, List.filter_map]
    have hf : ∀ b : Bool, ((fun q : Byte × Bits => q.1 == x) ∘ fun p : Byte × Bits => (p.1, b :: p.2)) =
        fun q => q.1 == x := by intro b; rfl
    rw [hf, hf, List.getLast?_map, List.getLast?_map]
    cases (r.paths.filter (fun q => q.1 == x)).getLast? with
    | some q => simp
    | none => cases (l.paths.filter (fun q => q.1 == x)).getLast? <;> simp

theorem HTree.paths_values (t : HTree) : t.paths.map (·.1) = t.values := by
  induction t with
  | leaf v w => rfl
  | node w l r ihl ihr =>
    simp only [HTree.paths, HTree.values, List.map_append, List.map_map, ← ihl, ← ihr]
    rfl

/-- A path of `k` bits lies in a tree of at least `2 k + 1` nodes. -/
theorem HTree.paths_length (t : HTree) {v : Byte} {p : Bits} (h : (v, p) ∈ t.paths) : 2 * p.length + 1 ≤ t.nodeCount := by
  induction t generalizing p with
  | leaf u w => simp only [HTree.paths, List.mem_singleton, Prod.mk.injEq] at h; simp [h.2, HTree.nodeCount]
  | node w l r ihl ihr =>
    have hl := l.nodeCount_pos
    have hr := r.nodeCount_pos
    simp only [HTree.paths, List.mem_append, List.mem_map, Prod.mk.injEq] at h
    rcases h with ⟨⟨a, q⟩, h1, h2, h3⟩ | ⟨⟨a, q⟩, h1, h2, h3⟩
    · simp only at h2; subst h2; have := ihl h1; simp only [← h3, List.length_cons, HTree.nodeCount]; omega
    · simp only at h2; subst h2; have := ihr h1; simp only [← h3, List.length_cons, HTree.nodeCount]; omega

/-- Following a leaf's path reaches it, whatever bits come after. -/
theorem HTree.follow_path (t : HTree) {v : Byte} {p : Bits} (h : (v, p) ∈ t.paths) (rest : Bits) :
    t.follow (p ++ rest) = some (v, rest) := by
  induction t generalizing p with
  | leaf u w =>
    simp only [HTree.paths, List.mem_singleton, Prod.mk.injEq] at h
    simp [HTree.follow, h.1, h.2]
  | node w l r ihl ihr =>
    simp only [HTree.paths, List.mem_append, List.mem_map, Prod.mk.injEq] at h
    rcases h with ⟨⟨a, q⟩, h1, h2, h3⟩ | ⟨⟨a, q⟩, h1, h2, h3⟩
    · simp only at h2; subst h2; simp [← h3, HTree.follow, ihl h1]
    · simp only at h2; subst h2; simp [← h3, HTree.follow, ihr h1]

/-- The code of a value at some leaf is a path to a leaf of that value. -/
theorem genCode_path (w : Weight) (l r : HTree) {v : Byte} (hv : v ∈ (HTree.node w l r).values) :
    (v, tableGet (genCode (.node w l r)) v) ∈ (HTree.node w l r).paths := by
  have hp : ((HTree.node w l r).paths.filter (fun q => q.1 == v)) ≠ [] := by
    rw [← HTree.paths_values] at hv
    obtain ⟨q, hq, rfl⟩ := List.mem_map.mp hv
    intro h0
    have := List.filter_eq_nil_iff.mp h0 q hq
    simp at this
  have hl := List.getLast?_eq_some_getLast hp
  have hmem := List.getLast_mem hp
  generalize ((HTree.node w l r).paths.filter (fun q => q.1 == v)).getLast hp = q at hl hmem
  have hm := List.mem_filter.mp hmem
  have hv1 : q.1 = v := by simpa using hm.2
  have hc : tableGet (genCode (.node w l r)) v = q.2 := by
    simp only [genCode, tableGet_walkCode, hl, Option.map_some, Option.getD_some, List.nil_append]
  rw [hc, ← hv1]
  exact hm.1

/-- Decoding the codes of a byte sequence gives it back, whatever bits come after. -/
theorem decodeBits_payloadBits (w : Weight) (l r : HTree) (p : List Byte)
    (hp : ∀ v ∈ p, v ∈ (HTree.node w l r).values) (rest : Bits) :
    (HTree.node w l r).decodeBits p.length (payloadBits (genCode (.node w l r)) p ++ rest) = some (p, rest) := by
  induction p with
  | nil => rfl
  | cons v p ih =>
    have h1 := HTree.follow_path (.node w l r) (genCode_path w l r (hp v (by simp)))
      (payloadBits (genCode (.node w l r)) p ++ rest)
    have hb : payloadBits (genCode (.node w l r)) (v :: p) ++ rest =
        tableGet (genCode (.node w l r)) v ++ (payloadBits (genCode (.node w l r)) p ++ rest) := by
      simp [payloadBits]
    simp only [List.length_cons, HTree.decodeBits, hb, h1, ih fun u hu => hp u (by simp [hu])]

/-! ### Token streams -/

/-- `node()` reads one tree's tokens and leaves the rest. -/
theorem parseNode_ser (t : HTree) : ∀ (depth count : Nat) (rest : List Byte), t.nodeCount ≤ depth →
    count + t.nodeCount ≤ maxNodes →
    parseNode depth (ser t ++ rest) count = some (t.unweighted, rest, count + t.nodeCount) := by
  induction t with
  | leaf v w =>
    intro depth count rest hd hc
    simp only [HTree.nodeCount] at hd hc
    obtain ⟨d, rfl⟩ : ∃ d, depth = d + 1 := ⟨depth - 1, by omega⟩
    have : ¬ (maxNodes < count + 1) := by omega
    simp [ser, parseNode, this, HTree.unweighted, HTree.nodeCount]
  | node w l r ihl ihr =>
    intro depth count rest hd hc
    simp only [HTree.nodeCount] at hd hc
    have hl := l.nodeCount_pos
    have hr := r.nodeCount_pos
    obtain ⟨d, rfl⟩ : ∃ d, depth = d + 1 := ⟨depth - 1, by omega⟩
    have h1 : ¬ (maxNodes < count + 1) := by omega
    have h2 : branchTag ≠ leafTag := by decide
    simp only [ser, List.cons_append, parseNode, h1, if_false, h2, if_true, List.append_assoc]
    rw [ihl d (count + 1) (ser r ++ rest) (by omega) (by omega)]
    simp only
    rw [ihr d (count + 1 + l.nodeCount) rest (by omega) (by omega)]
    simp [HTree.unweighted, HTree.nodeCount]
    omega

/-- What `node()` accepts is a tree's tokens. -/
theorem parseNode_sound : ∀ (depth : Nat) (bs : List Byte) (count : Nat) (t : HTree) (rest : List Byte) (c : Nat),
    parseNode depth bs count = some (t, rest, c) →
    bs = ser t ++ rest ∧ c = count + t.nodeCount ∧ c ≤ maxNodes ∧ t.unweighted = t := by
  intro depth
  induction depth with
  | zero => intro bs count t rest c h; simp [parseNode] at h
  | succ depth ih =>
    intro bs count t rest c h
    cases bs with
    | nil => simp [parseNode] at h
    | cons tag bs =>
      simp only [parseNode] at h
      split at h
      · simp at h
      · rename_i hc
        split at h
        · rename_i ht
          cases bs with
          | nil => simp at h
          | cons v bs =>
            simp only [Option.some.injEq, Prod.mk.injEq] at h
            obtain ⟨rfl, rfl, rfl⟩ := h
            refine ⟨by simp [ser, ht], by simp [HTree.nodeCount], by omega, rfl⟩
        · split at h
          · rename_i ht
            split at h
            · simp at h
            · rename_i l bs1 c1 hl
              split at h
              · simp at h
              · rename_i r bs2 c2 hr
                simp only [Option.some.injEq, Prod.mk.injEq] at h
                obtain ⟨rfl, rfl, rfl⟩ := h
                obtain ⟨l1, l2, l3, l4⟩ := ih _ _ _ _ _ hl
                obtain ⟨r1, r2, r3, r4⟩ := ih _ _ _ _ _ hr
                refine ⟨by simp [ser, ht, l1, r1], ?_, r3, by simp [HTree.unweighted, l4, r4]⟩
                simp only [HTree.nodeCount]
                omega
          · simp at h

end Sys2Proof.Machine
end

