-- ==== Sys2Proof/Laws/Container.lean ====
section
/-! SUPPORT. What the whole-payload functions and the container's reading and writing do: encode_into, decode_into,
big-endian integers, take, and the header and tree of a container. -/

namespace Sys2Proof.Machine

/-! ### Big-endian integers -/

@[simp] theorem bytesBE_length (v n : Nat) : (bytesBE v n).length = n := by
  induction n with
  | zero => rfl
  | succ n ih => simp [bytesBE, ih]

theorem beNat_foldl (bs : List Byte) (acc : Nat) :
    bs.foldl (fun acc b => acc * 256 + b.toNat) acc = acc * 256 ^ bs.length + beNat bs := by
  induction bs generalizing acc with
  | nil => simp [beNat]
  | cons b bs ih =>
    simp only [beNat, List.foldl_cons, List.length_cons]
    rw [ih, ih (0 * 256 + b.toNat)]
    ring

theorem beNat_cons (b : Byte) (bs : List Byte) : beNat (b :: bs) = b.toNat * 256 ^ bs.length + beNat bs := by
  rw [beNat, List.foldl_cons, beNat_foldl]
  simp

/-- Reading back a big-endian integer. -/
theorem beNat_bytesBE (v n : Nat) : beNat (bytesBE v n) = v % 256 ^ n := by
  induction n with
  | zero => simp [bytesBE, beNat, Nat.mod_one]
  | succ n ih =>
    have h := Nat.mod_mul (a := 256 ^ n) (b := 256) (x := v)
    rw [bytesBE, beNat_cons, ih, bytesBE_length, BitVec.toNat_ofNat, show (2 : Nat) ^ 8 = 256 from rfl,
      show (256 : Nat) ^ (n + 1) = 256 ^ n * 256 from rfl, h, Nat.mul_comm, Nat.add_comm]

theorem beNat_lt (bs : List Byte) : beNat bs < 256 ^ bs.length := by
  induction bs with
  | nil => simp [beNat]
  | cons b bs ih =>
    rw [beNat_cons, List.length_cons, Nat.pow_succ]
    have hb : b.toNat ≤ 255 := by have := b.isLt; omega
    have := Nat.mul_le_mul_right (256 ^ bs.length) hb
    omega

/-! ### Checksum, on words and on unbounded integers -/

theorem crcSteps_toNat (n : Nat) (c : Word) : (crcSteps n c).toNat = crcRound^[n] c.toNat := by
  induction n generalizing c with
  | zero => rfl
  | succ n ih =>
    have h : c.getLsbD 0 = decide (c.toNat % 2 = 1) := by simp [BitVec.getLsbD, Nat.testBit_zero]
    have hs : (c >>> 1).toNat = c.toNat / 2 := by simp [BitVec.toNat_ushiftRight, Nat.shiftRight_succ]
    rw [crcSteps, ih, Function.iterate_succ_apply]
    congr 1
    rw [crcRound, h]
    by_cases hc : c.toNat % 2 = 1
    · rw [if_pos (decide_eq_true hc), if_pos hc, BitVec.toNat_xor, hs]; rfl
    · rw [if_neg (by rw [decide_eq_true_eq]; exact hc), if_neg hc, hs]

/-! ### Regions, as the checks and as the rules word them -/

theorem inRange_iff (s : State) (a n : Nat) : Region.inRange s.params ⟨a, n⟩ = true ↔ s.fitsMem a n := by
  simp [Region.inRange, State.fitsMem]

theorem overlaps_iff (a m b n : Nat) : Region.overlaps ⟨a, m⟩ ⟨b, n⟩ = false ↔ apart a m b n := by
  simp only [Region.overlaps, apart, Bool.and_eq_false_iff, decide_eq_false_iff_not]
  omega

/-- The check of a command with one read region and one write region. -/
theorem regionsFit_one (s : State) (r w : Region) :
    regionsFit s.params [r] (some w) = true ↔
      s.fitsMem r.addr r.len ∧ s.fitsMem w.addr w.len ∧ apart r.addr r.len w.addr w.len := by
  have h1 := inRange_iff s r.addr r.len
  have h2 := inRange_iff s w.addr w.len
  have h3 := overlaps_iff r.addr r.len w.addr w.len
  simp only [regionsFit, List.all_cons, List.all_nil, Bool.and_true, Bool.and_eq_true, Bool.not_eq_true']
  rw [← h1, ← h2, ← h3]

/-- The check of a command with two read regions and one write region. -/
theorem regionsFit_two (s : State) (r q w : Region) :
    regionsFit s.params [r, q] (some w) = true ↔
      s.fitsMem r.addr r.len ∧ s.fitsMem q.addr q.len ∧ s.fitsMem w.addr w.len ∧
      apart r.addr r.len w.addr w.len ∧ apart q.addr q.len w.addr w.len := by
  have h1 := inRange_iff s r.addr r.len
  have h2 := inRange_iff s w.addr w.len
  have h3 := overlaps_iff r.addr r.len w.addr w.len
  have h4 := inRange_iff s q.addr q.len
  have h5 := overlaps_iff q.addr q.len w.addr w.len
  simp only [regionsFit, List.all_cons, List.all_nil, Bool.and_true, Bool.and_eq_true, Bool.not_eq_true']
  rw [← h1, ← h2, ← h3, ← h4, ← h5]
  tauto

/-- Regions apart stay apart when the second shrinks. -/
theorem apart_shrink {a m b n k : Nat} (h : apart a m b n) (hk : k ≤ n) : apart a m b k := by
  rcases h with h | h | h | h
  · exact .inl h
  · exact .inr (.inl (by omega))
  · exact .inr (.inr (.inl h))
  · exact .inr (.inr (.inr (by omega)))

/-! ### encode_into -/

/-- What encode_into leaves: the packed codes and the pad-count byte at the destination, the writer closed, and nothing
else. -/
structure EncodeEffect (s t : State) (dst cap : Nat) (bits : Bits) : Prop where
  frame : t = { s with mem := t.mem, pad := t.pad, bw := {
    active := false, base := BitVec.ofNat 32 dst, cap := BitVec.ofNat 32 cap,
    bytes := BitVec.ofNat 32 (ceil8 bits.length), acc := 0, nbits := 0 } }
  packed : PackedAs (memRead t dst (ceil8 bits.length)) bits t.pad.toNat
  padByte : t.readByte (dst + ceil8 bits.length) = t.pad
  outside : SameOutside s t dst (ceil8 bits.length + 1)
  wf : Memory.wf s.mem = true → Memory.wf t.mem = true
  within : ∀ n, Memory.within n s.mem = true → dst + (ceil8 bits.length + 1) ≤ n → Memory.within n t.mem = true

theorem encodeInto_effect (src n dst cap : Nat) (s : State) (bits : Bits)
    (hbits : bits = payloadBits s.code (memRead s src n)) (hdst : dst < 2 ^ 32)
    (hcap : ceil8 bits.length + 1 ≤ cap) (hcap32 : cap < 2 ^ 32) :
    (encodeInto src n dst cap s).1 = ceil8 bits.length + 1 ∧
      EncodeEffect s (encodeInto src n dst cap s).2 dst cap bits := by
  have hp : memRead (openWriter (BitVec.ofNat 32 dst) (BitVec.ofNat 32 cap) s) src n = memRead s src n :=
    memRead_of_mem (by rfl) (by rfl) _ _
  simp only [encodeInto, hp]
  generalize hs1 : openWriter (BitVec.ofNat 32 dst) (BitVec.ofNat 32 cap) s = s1
  have hcode : s1.code = s.code := by rw [← hs1]; rfl
  have hb1 : s1.bw = { active := true, base := BitVec.ofNat 32 dst, cap := BitVec.ofNat 32 cap, bytes := 0, acc := 0, nbits := 0 } := by
    rw [← hs1]; rfl
  have hn1 : s1.bw.nbits.val = 0 := by rw [hb1]; rfl
  have hy1 : s1.bw.bytes.toNat = 0 := by rw [hb1]; rfl
  have hbase1 : s1.bw.base.toNat = dst := by rw [hb1]; simp only [BitVec.toNat_ofNat]; omega
  have hw1 : s1.writtenBits = [] := by rw [← hs1]; exact openWriter_writtenBits _ _ _
  have hbs : payloadBits s1.code (memRead s src n) = bits := by rw [hcode, hbits]
  have hc8 : ceil8 bits.length = (bits.length + 7) / 8 := rfl
  have put := putSymbols_effect (memRead s src n) s1 (by rw [hbs, hn1, hy1]; omega)
  rw [hbs] at put
  generalize putSymbols (memRead s src n) s1 = s2 at put ⊢
  have hbase2 : s2.bw.base.toNat = dst := by rw [put.base]; exact hbase1
  have hcount := put.count
  rw [hy1, hn1] at hcount
  have hn2 := s2.bw.nbits.isLt
  have hw2 : s2.writtenBits = bits := by rw [put.written, hw1, List.nil_append]
  have flush := flushWriter_effect s2 (by omega)
  generalize flushWriter s2 = s3 at flush ⊢
  have hy3 : s3.bw.bytes.toNat = ceil8 bits.length := by rw [flush.bytes]; omega
  have hpad : s2.bw.pad = (8 - bits.length % 8) % 8 := by
    unfold BitWriter.pad
    split
    · omega
    · omega
  have hpadlt : s2.bw.pad < 8 := by rw [hpad]; omega
  have hpadb : (BitVec.ofNat 8 s2.bw.pad).toNat = s2.bw.pad := by simp only [BitVec.toNat_ofNat]; omega
  have hbytes3 : s3.bw.bytes = BitVec.ofNat 32 (ceil8 bits.length) := by
    apply BitVec.eq_of_toNat_eq; rw [hy3, BitVec.toNat_ofNat]; omega
  refine ⟨by rw [State.writeByte_bw, hy3], ?_, ?_, ?_, ?_, fun w => ?_, fun k w hk => ?_⟩
  · rw [flush.frame, put.frame, ← hs1]
    simp only [openWriter, State.writeByte, hbytes3]
  · refine ⟨by simp [hc8], ?_, ?_⟩
    · exact hpadb.trans hpad
    · have h3 : unpackBits (memRead s3 dst (ceil8 bits.length)) = bits ++ List.replicate s2.bw.pad false := by
        rw [← hw2, ← flush.packed, hbase2, hy3, hw2]
      simp only [hpadb]
      rw [← h3]
      congr 1
      rw [memRead_congr (s := _) (t := s3)]
      intro x h1 h2
      rw [hy3]
      exact State.readByte_writeByte_other s3 _ (by omega)
  · rw [hy3]
    exact State.readByte_writeByte_same s3 _ _
  · intro x hx
    have e1 : ({ s3.writeByte (dst + s3.bw.bytes.toNat) (BitVec.ofNat 8 s2.bw.pad) with
        pad := BitVec.ofNat 8 s2.bw.pad } : State).readByte x = s3.readByte x := by
      rw [hy3]; exact State.readByte_writeByte_other s3 _ (by omega)
    have hle := flush.bytes
    rw [e1, flush.outside x (by rw [hbase2]; omega), put.outside x (by rw [hbase1, hy1]; omega), ← hs1]
    rfl
  · exact Memory.wf_insert (flush.wf (put.wf (by rw [← hs1]; exact w))) _ _
  · refine Memory.within_insert _ (by rw [hy3]; omega) (flush.within k (put.within k (by rw [← hs1]; exact w) ?_) ?_)
    · rw [hbase1]; have := flush.bytes; omega
    · rw [hbase2, hy3]; omega

/-! ### decode_into -/

/-- decode_into to a region apart from the source: the leaves of `n` walks at the destination and nothing else in MEM, and
the source's last byte; or the bits run out, in the rules' words and in the command's. -/
theorem decodeInto_spec (tr : HTree) (src len dst n : Nat) (s : State) (hlen : 1 ≤ len) (hsrc : src + len ≤ 2 ^ 32)
    (ha : apart src len dst n) :
    (decodeInto tr src len dst n s = none ∧
      tr.decodeBits n (unpackBits (memRead s src (len - 1))) = none) ∨
    ∃ vs rest t, decodeInto tr src len dst n s = some (s.readByte (src + len - 1), t) ∧
      tr.decodeBits n (unpackBits (memRead s src (len - 1))) = some (vs, rest) ∧ vs.length = n ∧
      t.mem = (memWrite s dst vs).mem ∧ t.readerOk ∧ t.br.consumed + rest.length = 8 * (len - 1) ∧
      t = { s with mem := t.mem, br := {
        active := true, base := BitVec.ofNat 32 src, len := BitVec.ofNat 32 (len - 1), pos := t.br.pos,
        bit := t.br.bit } } := by
  have h1 : (BitVec.ofNat 32 src).toNat = src := by simp only [BitVec.toNat_ofNat]; omega
  have h2 : (BitVec.ofNat 32 (len - 1)).toNat = len - 1 := by simp only [BitVec.toNat_ofNat]; omega
  have hleft : (openReader (BitVec.ofNat 32 src) (BitVec.ofNat 32 (len - 1)) s).bitsLeft =
      unpackBits (memRead s src (len - 1)) := by
    simp only [State.bitsLeft, State.sourceBits, openReader, h1, h2, BitReader.consumed]
    exact congrArg unpackBits (memRead_of_mem (by rfl) (by rfl) _ _)
  have hap : apart (openReader (BitVec.ofNat 32 src) (BitVec.ofNat 32 (len - 1)) s).br.base.toNat
      (openReader (BitVec.ofNat 32 src) (BitVec.ofNat 32 (len - 1)) s).br.len.toNat dst n := by
    simp only [openReader, h1, h2]
    unfold apart at ha ⊢
    omega
  have hok : (openReader (BitVec.ofNat 32 src) (BitVec.ofNat 32 (len - 1)) s).readerOk := by
    simp [State.readerOk, openReader]
  unfold decodeInto
  rcases decodeSymbols_spec tr n dst _ hok hap with ⟨k1, k2⟩ | ⟨vs, t, k1, k2, k3, k4, k5, k6, k7⟩
  · left
    rw [hleft] at k2
    simp [k1, k2]
  · right
    rw [hleft] at k2 k6
    have hm : t.mem = (memWrite s dst vs).mem := by
      rw [k4]; exact memWrite_of_mem (by rfl) _ _
    refine ⟨vs, t.bitsLeft, t, ?_, k2, k3, hm, k5, ?_, ?_⟩
    · rw [k1]
      simp only [Option.some.injEq, Prod.mk.injEq, and_true]
      have e : t.readByte (src + len - 1) = (memWrite s dst vs).readByte (src + len - 1) := by
        apply State.readByte_congr hm
        rw [k7, memWrite_eq]; rfl
      rw [e, memWrite_readByte, dif_neg]
      rw [k3]
      unfold apart at ha
      omega
    · rw [k6]
      simp [openReader, BitReader.consumed]
    · rw [k7]; rfl

/-! ### Reading a container -/

theorem takeBytes_ok (s : State) {a n pos k : Nat} (e : ErrorCode) (h : pos + k ≤ n) :
    takeBytes s a n pos k e = .ok (memRead s (a + pos) k) := by
  have : ¬ (n < pos + k) := by omega
  simp [takeBytes, this]

theorem takeBytes_error (s : State) {a n pos k : Nat} (e : ErrorCode) (h : n < pos + k) :
    takeBytes s a n pos k e = .error e := by
  simp [takeBytes, h]

/-- The part of a byte list read from MEM. -/
theorem memRead_part (s : State) (a n : Nat) (pre mid post : List Byte)
    (h : memRead s a n = pre ++ (mid ++ post)) : memRead s (a + pre.length) mid.length = mid := by
  have hl := congrArg List.length h
  simp only [memRead_length, List.length_append] at hl
  obtain ⟨k, hk⟩ : ∃ k, n = pre.length + (mid.length + k) := ⟨post.length, by omega⟩
  subst hk
  rw [memRead_append, memRead_append] at h
  have h1 := (List.append_inj h (by simp)).2
  exact (List.append_inj h1 (by simp)).1

/-- Steps 1 and 2 over a container whose first `24 + L` bytes are a header's. -/
theorem readHeader_ok (s : State) (a n : Nat) (typ : Nat) (name version : List Byte) (plen checksum : Nat)
    (post : List Byte) (hname : name.length < 2 ^ 16) (hver : version.length = 2)
    (h : memRead s a n = s.params.magic.toList ++ (bytesBE typ 4 ++ (bytesBE name.length 2 ++ (name ++ (version ++
      (bytesBE plen 8 ++ (bytesBE checksum 4 ++ post))))))) :
    readHeader s a n = .ok ⟨typ % 2 ^ 32, name.length, plen % 2 ^ 64, checksum % 2 ^ 32⟩ := by
  have hl := congrArg List.length h
  simp only [memRead_length, List.length_append, bytesBE_length, hver, Vector.length_toList] at hl
  have part : ∀ (pre mid post : List Byte) (k m : Nat), memRead s a n = pre ++ (mid ++ post) → pre.length = k →
      mid.length = m → memRead s (a + k) m = mid := by
    intro pre mid post k m h1 h2 h3
    rw [← h2, ← h3]
    exact memRead_part s a n pre mid post h1
  have p0 := part [] _ _ 0 4 h rfl (by simp)
  have p4 := part s.params.magic.toList _ _ 4 4 h (by simp) (by simp)
  have p8 := part (s.params.magic.toList ++ bytesBE typ 4) (bytesBE name.length 2)
    (name ++ (version ++ (bytesBE plen 8 ++ (bytesBE checksum 4 ++ post)))) 8 2 (by rw [h]; simp) (by simp)
    (bytesBE_length _ _)
  have p12 := part (s.params.magic.toList ++ bytesBE typ 4 ++ bytesBE name.length 2 ++ name ++ version)
    (bytesBE plen 8) (bytesBE checksum 4 ++ post) (12 + name.length) 8 (by rw [h]; simp) (by simp [hver]; omega)
    (bytesBE_length _ _)
  have p20 := part (s.params.magic.toList ++ bytesBE typ 4 ++ bytesBE name.length 2 ++ name ++ version ++
    bytesBE plen 8) (bytesBE checksum 4) post (20 + name.length) 4 (by rw [h]; simp) (by simp [hver]; omega)
    (bytesBE_length _ _)
  have hbe : beNat (bytesBE name.length 2) = name.length := by
    rw [beNat_bytesBE]; exact Nat.mod_eq_of_lt hname
  have t0 := takeBytes_ok s (a := a) (n := n) (pos := 0) (k := 4) .formatError (by omega)
  have t4 := takeBytes_ok s (a := a) (n := n) (pos := 4) (k := 4) .ioError (by omega)
  have t8 := takeBytes_ok s (a := a) (n := n) (pos := 8) (k := 2) .ioError (by omega)
  have t10 := takeBytes_ok s (a := a) (n := n) (pos := nameOffset) (k := name.length) .ioError
    (by simp only [nameOffset]; omega)
  have tv := takeBytes_ok s (a := a) (n := n) (pos := 10 + name.length) (k := 2) .ioError (by omega)
  have t12 := takeBytes_ok s (a := a) (n := n) (pos := 12 + name.length) (k := 8) .ioError (by omega)
  have t20 := takeBytes_ok s (a := a) (n := n) (pos := 20 + name.length) (k := 4) .ioError (by omega)
  unfold readHeader
  simp only [t0, p0, Params.magicBytes, ne_eq, not_true_eq_false, if_false, t4, p4, t8, p8, hbe, t10, tv, t12, p12, t20,
    p20, beNat_bytesBE]
  norm_num

/-- Step 3 over a length-prefixed tree at `pos`. -/
theorem readTree_ok (s : State) (a n : Nat) (tr : HTree) (pre post : List Byte) (hn : tr.nodeCount ≤ maxNodes)
    (h : memRead s a n = pre ++ (bytesBE (ser tr).length 4 ++ (ser tr ++ post))) :
    readTree s a n pre.length = some (tr.unweighted, pre.length + 4 + (ser tr).length) := by
  have hl := congrArg List.length h
  simp only [memRead_length, List.length_append, bytesBE_length] at hl
  have hsz : (ser tr).length < 256 ^ 4 := by
    have h1 := ser_length tr
    have h2 := tr.nodeCount_values
    have h3 : maxNodes = 511 := rfl
    omega
  have p1 := memRead_part s a n pre _ _ h
  have p2 := memRead_part s a n (pre ++ bytesBE (ser tr).length 4) (ser tr) post (by rw [h]; simp)
  rw [bytesBE_length] at p1
  rw [List.length_append, bytesBE_length] at p2
  have hbe : beNat (bytesBE (ser tr).length 4) = (ser tr).length := by
    rw [beNat_bytesBE]; exact Nat.mod_eq_of_lt hsz
  have hlt : ¬ (n < pre.length + 4 + (ser tr).length) := by omega
  unfold readTree
  rw [takeBytes_ok s .corruptTree (show pre.length + 4 ≤ n by omega)]
  simp only [p1, hbe, hlt, if_false, p2]
  have hparse : parseTree (ser tr) = some tr.unweighted := by
    have := parseNode_ser tr (maxNodes + 1) 0 [] (by omega) (by omega)
    rw [List.append_nil] at this
    simp [parseTree, this]
  rw [hparse]

/-! ### Writing a container -/

/-- Steps 3 and 4 of COMPRESS write everything of the container before its bitstream, when the name lies apart from the
first ten bytes of the destination. -/
theorem writeHeader_eq (d n l : Nat) (tree : HTree) (c : Word) (s : State)
    (ha : apart s.nameAddr.toNat l d 10) :
    writeHeader d n l tree c s = memWrite s d (containerHead s.params.magic.toList s.typ.toNat
      (memRead s s.nameAddr.toNat l) [0x00, 0x01] n c.toNat tree) := by
  have hv : bytesBE formatVersion 2 = [0x00, 0x01] := by decide
  have keep : ∀ (bs : List Byte) (a : Nat), (memWrite s a bs).typ = s.typ ∧ (memWrite s a bs).params = s.params ∧
      (memWrite s a bs).nameAddr = s.nameAddr := by
    intro bs a; rw [memWrite_eq]; exact ⟨rfl, rfl, rfl⟩
  have hname : memRead (memWrite s d (s.params.magic.toList ++ bytesBE s.typ.toNat 4 ++ bytesBE l 2))
      s.nameAddr.toNat l = memRead s s.nameAddr.toNat l := by
    by_cases hl : l = 0
    · subst hl; rfl
    · apply memRead_memWrite_apart
      simp only [List.length_append, bytesBE_length, Vector.length_toList]
      unfold apart at ha
      omega
  have app : ∀ (bs cs : List Byte) (a : Nat), a = d + bs.length →
      memWrite (memWrite s d bs) a cs = memWrite s d (bs ++ cs) := by
    intro bs cs a h; rw [memWrite_append, h]
  have ln : (memRead s s.nameAddr.toNat l).length = l := memRead_length _ _ _
  have lm : s.params.magic.toList.length = 4 := by simp
  simp only [writeHeader, Params.magicBytes, treeSize]
  rw [(keep s.params.magic.toList d).1, app _ _ (d + 4) (by simp), app _ _ (d + 8) (by simp), (keep _ d).2.2, hname, hv]
  simp only [containerHead, ln]
  rw [app _ _ (d + 10) (by simp)]
  rw [app _ _ (d + 10 + l) (by simp only [List.length_append, bytesBE_length, lm, ln]; omega)]
  rw [app _ _ (d + 12 + l) (by
    simp only [List.length_append, List.length_cons, List.length_nil, bytesBE_length, lm, ln]; omega)]
  rw [app _ _ (d + 20 + l) (by
    simp only [List.length_append, List.length_cons, List.length_nil, bytesBE_length, lm, ln]; omega)]
  rw [app _ _ (d + 24 + l) (by
    simp only [List.length_append, List.length_cons, List.length_nil, bytesBE_length, lm, ln]; omega)]
  rw [app _ _ (d + 28 + l) (by
    simp only [List.length_append, List.length_cons, List.length_nil, bytesBE_length, lm, ln]; omega)]

end Sys2Proof.Machine
end

