-- ==== Sys2Proof/Laws/Decode.lean ====
section
/-! SUPPORT. The fields of an encoded word, and a word from its fields (30_encoding.md R80, R93). -/

namespace Sys2Proof

theorem opField_encode (i : Instr) : opField (encode i) = i.opcode := by
  apply BitVec.eq_of_getLsbD_eq
  intro k hk
  have h1 : k < 32 := by omega
  simp [opField, encode, hk, h1]

theorem immField_encode (i : Instr) : immField (encode i) = i.imm8 := by
  apply BitVec.eq_of_getLsbD_eq
  intro k hk
  have h1 : 8 + k < 32 := by omega
  simp [immField, encode, hk, h1]

theorem rsvField_encode (i : Instr) : rsvField (encode i) = 0 := by
  apply BitVec.eq_of_getLsbD_eq
  intro k hk
  have h1 : 16 + k < 32 := by omega
  have h2 : i.opcode.getLsbD (16 + k) = false := BitVec.getLsbD_of_ge _ _ (by omega)
  have h4 : i.imm8.getLsbD (16 + k - 8) = false := BitVec.getLsbD_of_ge _ _ (by omega)
  simp [rsvField, encode, hk, h1, h2, h4]

/-- A word is its three fields. -/
theorem word_of_fields (w : Word) :
    w = (opField w).setWidth 32 ||| ((immField w).setWidth 32 <<< 8) ||| ((rsvField w).setWidth 32 <<< 16) := by
  apply BitVec.eq_of_getLsbD_eq
  intro k hk
  simp only [BitVec.getLsbD_or, BitVec.getLsbD_setWidth, BitVec.getLsbD_shiftLeft, opField, immField, rsvField,
    BitVec.getLsbD_extractLsb']
  by_cases h8 : k < 8
  · have : k < 16 := by omega
    simp [h8, this, hk]
  · by_cases h16 : k < 16
    · have e : 8 + (k - 8) = k := by omega
      have : k - 8 < 8 := by omega
      have : k - 8 < 32 := by omega
      simp [*]
    · have e : 16 + (k - 16) = k := by omega
      have : ¬ (k - 8 < 8) := by omega
      have : k - 16 < 16 := by omega
      have : k - 16 < 32 := by omega
      simp [*]

end Sys2Proof
end

