-- ==== Sys2Proof/Laws/PerInstr.lean ====
section
/-! SUPPORT. The round trip of each command's encoding: decoding an encoded well-formed command gives it back
(30_encoding.md R80 to R84, R93). -/

namespace Sys2Proof.Laws.RoundTrip

/-- A well-formed command decodes from its own word. -/
def Statement (i : Instr) : Prop := i.wf = true → decode (encode i) = .ok i

/-- Decoding an encoded command is reading the opcode map at its opcode and IMM8. -/
theorem decode_encode_eq (i : Instr) : decode (encode i) = decodeOp i.opcode i.imm8 := by
  simp [decode, rsvField_encode, opField_encode, immField_encode]

theorem nop : Statement .nop := fun _ => by rw [decode_encode_eq]; rfl
theorem bwInit : Statement .bwInit := fun _ => by rw [decode_encode_eq]; rfl
theorem bwPutBit (imm : Byte) : Statement (.bwPutBit imm) := fun h => by
  simp only [Instr.wf, Bool.or_eq_true, beq_iff_eq] at h
  rw [decode_encode_eq]
  rcases h with rfl | rfl <;> rfl
theorem bwPutSymbol (imm : Byte) : Statement (.bwPutSymbol imm) := fun _ => by rw [decode_encode_eq]; rfl
theorem bwFinalize : Statement .bwFinalize := fun _ => by rw [decode_encode_eq]; rfl
theorem brInit : Statement .brInit := fun _ => by rw [decode_encode_eq]; rfl
theorem brGetBit : Statement .brGetBit := fun _ => by rw [decode_encode_eq]; rfl
theorem encodePayload : Statement .encodePayload := fun _ => by rw [decode_encode_eq]; rfl
theorem decodePayload : Statement .decodePayload := fun _ => by rw [decode_encode_eq]; rfl
theorem freqClear : Statement .freqClear := fun _ => by rw [decode_encode_eq]; rfl
theorem freqCount : Statement .freqCount := fun _ => by rw [decode_encode_eq]; rfl
theorem freqRead (imm : Byte) : Statement (.freqRead imm) := fun _ => by rw [decode_encode_eq]; rfl
theorem treeBuild : Statement .treeBuild := fun _ => by rw [decode_encode_eq]; rfl
theorem codeGen : Statement .codeGen := fun _ => by rw [decode_encode_eq]; rfl
theorem codeRead (imm : Byte) : Statement (.codeRead imm) := fun _ => by rw [decode_encode_eq]; rfl
theorem treeSerialize : Statement .treeSerialize := fun _ => by rw [decode_encode_eq]; rfl
theorem treeDeserialize : Statement .treeDeserialize := fun _ => by rw [decode_encode_eq]; rfl
theorem crc32 : Statement .crc32 := fun _ => by rw [decode_encode_eq]; rfl
theorem compress : Statement .compress := fun _ => by rw [decode_encode_eq]; rfl
theorem decompress : Statement .decompress := fun _ => by rw [decode_encode_eq]; rfl

end Sys2Proof.Laws.RoundTrip
end

