-- ==== Sys2Proof/Tests/Slice0.lean ====
section
/-! SUPPORT. Tests: the decoder on words written out from 30_encoding.md, commands on the vectors of 95_test_vectors.md, and
for each obligation with hypotheses a state and operands that meet them all (`wit_…`). Expected values are the spec's. -/

namespace Sys2Proof.Tests

open Sys2Proof Sys2Proof.Machine

set_option Elab.async false

/-! ### Helpers -/

/-- Bytes listed from an address on. -/
def bytesAt (a : Nat) : List Byte → Memory
  | [] => []
  | b :: bs => (a, b) :: bytesAt (a + 1) bs

/-- An instance with 0x400 bytes of MEM and the magic "HZL1", at rest. -/
def base : State :=
  { State.reset with params := ⟨0x3FF, #v[0x48, 0x5A, 0x4C, 0x31]⟩, code := emptyCode }

/-- The state after a command that ends, else the state itself. -/
def after (i : Instr) (s : State) : State :=
  match exec i s with
  | .next t => t
  | _ => s

/-- A next state with a property, as a check. -/
def nextIs (r : Result) (p : State → Bool) : Bool :=
  match r with
  | .next t => p t
  | _ => false

theorem next_of_check {r : Result} {p : State → Bool} (h : nextIs r p = true) : ∃ t, r = .next t ∧ p t = true := by
  cases r with
  | next t => exact ⟨t, rfl, h⟩
  | fault f => simp [nextIs] at h
  | refused f => simp [nextIs] at h

/-- "AAAAABBBCCD" (95_test_vectors.md V-TB-1). -/
def payload : List Byte := [0x41, 0x41, 0x41, 0x41, 0x41, 0x42, 0x42, 0x42, 0x43, 0x43, 0x44]

/-- The tree of V-TB-1. -/
def tree1 : HTree := .node 11 (.leaf 0x41 5) (.node 6 (.leaf 0x42 3) (.node 3 (.leaf 0x44 1) (.leaf 0x43 2)))

/-- The payload at 0, the tree and table of V-TB-1, destination (0x100, 8). -/
def coded : State :=
  { base with
    mem := bytesAt 0 payload, srcLen := 11, dstAddr := 0x100, dstCap := 8, tree := some tree1, code := genCode tree1,
    codeValid := true }

/-- The bitstream of V-BC-9 at 0x100, the tree of V-TB-1, destination (0x200, 16). -/
def encoded (n : Word) : State :=
  { base with
    mem := bytesAt 0x100 [0x05, 0x5F, 0xE0, 0x04], srcAddr := 0x100, srcLen := 4, dstAddr := 0x200, dstCap := 16,
    tree := some tree1, plenLo := n }

/-- The inputs of V-CC-4: "ab" at 0, the name "x" at 0x20. -/
def toCompress : State :=
  { base with
    mem := bytesAt 0 [0x61, 0x62] ++ bytesAt 0x20 [0x78], srcLen := 2, nameAddr := 0x20, nameLen := 1, dstAddr := 0x100,
    dstCap := 0x100 }

/-- The container of V-CC-4 with the given type byte, magic "HZL1". -/
def container4 (typ : Byte) : List Byte :=
  [0x48, 0x5A, 0x4C, 0x31, 0x00, 0x00, 0x00, typ, 0x00, 0x01, 0x78, 0x00, 0x01, 0x00, 0x00, 0x00, 0x00, 0x00, 0x00, 0x00,
   0x02] ++ [0x9E, 0x83, 0x48, 0x6D, 0x00, 0x00, 0x00, 0x05, 0x00, 0x01, 0x61, 0x01, 0x62, 0x40, 0x06]

/-- Bytes at 0x100 as a container, destination (0x200, 0x10). -/
def toDecompress (bs : List Byte) : State :=
  { base with
    mem := bytesAt 0x100 bs, srcAddr := 0x100, srcLen := BitVec.ofNat 32 bs.length, dstAddr := 0x200, dstCap := 0x10 }

/-- The tree of V-CC-4. -/
def tree4 : HTree := .node 0 (.leaf 0x61 0) (.leaf 0x62 0)

/-- A writer on (0x100, 4) with the given pending bits. -/
def writing (acc : Byte) (nbits : Fin 8) : State :=
  { base with bw := { active := true, base := 0x100, cap := 4, bytes := 0, acc := acc, nbits := nbits } }

/-- A reader on the byte A0 at 0x200. -/
def reading (pos : Word) (bit : Fin 8) : State :=
  { base with mem := [(0x200, 0xA0)], br := { active := true, base := 0x200, len := 1, pos := pos, bit := bit } }

/-! ### WellFormed: an ill-formed term for each check -/

theorem test_wf_refuses_bit_operand_2 : Instr.wf (.bwPutBit 2) = false := by decide
theorem test_wf_accepts_bit_operands : Instr.wf (.bwPutBit 0) = true ∧ Instr.wf (.bwPutBit 1) = true := by decide

/-! ### Decode: OP in bits 7..0, IMM8 in bits 15..8 (30_encoding.md R80, R84) -/

theorem test_decode_nop : decode 0b00000000000000000000000000000000 = .ok .nop := by rfl
theorem test_decode_bwInit : decode 0b00000000000000000000000000010000 = .ok .bwInit := by rfl
theorem test_decode_bwPutBit : decode 0b00000000000000000000000100010001 = .ok (.bwPutBit 1) := by rfl
theorem test_decode_bwPutSymbol : decode 0b00000000000000000100000100010010 = .ok (.bwPutSymbol 0x41) := by rfl
theorem test_decode_bwFinalize : decode 0b00000000000000000000000000010011 = .ok .bwFinalize := by rfl
theorem test_decode_brInit : decode 0b00000000000000000000000000010100 = .ok .brInit := by rfl
theorem test_decode_brGetBit : decode 0b00000000000000000000000000010101 = .ok .brGetBit := by rfl
theorem test_decode_encodePayload : decode 0b00000000000000000000000000010110 = .ok .encodePayload := by rfl
theorem test_decode_decodePayload : decode 0b00000000000000000000000000010111 = .ok .decodePayload := by rfl
theorem test_decode_freqClear : decode 0b00000000000000000000000000100000 = .ok .freqClear := by rfl
theorem test_decode_freqCount : decode 0b00000000000000000000000000100001 = .ok .freqCount := by rfl
theorem test_decode_freqRead : decode 0b00000000000000001111111100100010 = .ok (.freqRead 0xFF) := by rfl
theorem test_decode_treeBuild : decode 0b00000000000000000000000000100011 = .ok .treeBuild := by rfl
theorem test_decode_codeGen : decode 0b00000000000000000000000000100100 = .ok .codeGen := by rfl
theorem test_decode_codeRead : decode 0b00000000000000000100010000100101 = .ok (.codeRead 0x44) := by rfl
theorem test_decode_treeSerialize : decode 0b00000000000000000000000000110000 = .ok .treeSerialize := by rfl
theorem test_decode_treeDeserialize : decode 0b00000000000000000000000000110001 = .ok .treeDeserialize := by rfl
theorem test_decode_crc32 : decode 0b00000000000000000000000001000000 = .ok .crc32 := by rfl
theorem test_decode_compress : decode 0b00000000000000000000000001000001 = .ok .compress := by rfl
theorem test_decode_decompress : decode 0b00000000000000000000000001000010 = .ok .decompress := by rfl

/-- V-CC-0, V-BC-6: the four ways a word is illegal. -/
theorem test_decode_illegal :
    decode 0x000000FF = .error .unknownOpcode ∧ decode 0x00010000 = .error .reservedNotZero ∧
      decode 0x00000100 = .error .operandNotZero ∧ decode 0x00000211 = .error .operandNotBit :=
  ⟨by rfl, by rfl, by rfl, by rfl⟩

/-- The opcode map's rows do not overlap (30_encoding.md R87). -/
theorem test_rows_do_not_overlap :
    opcodeRows.Pairwise (fun r q => (r.pattern &&& q.mask) != (q.pattern &&& r.mask)) := by decide +kernel

/-- The first instruction after reset: DECODE_PAYLOAD without a tree (V-RS-1, V-BC-10). -/
theorem test_first_step_after_reset :
    nextIs (step (State.reset.withFetchWord 32 0x17)) (fun t => statusWord t == 0x00170C06) = true := by decide +kernel

/-! ### Commands, on the spec's vectors -/

/-- V-CC-0. -/
theorem test_nop : statusWord (after .nop (base.raised 0x24 .stateError)) = 0x00000002 := by decide +kernel

/-- V-BC-1. -/
theorem test_bwInit :
    let t := after .bwInit { base with dstAddr := 0x100, dstCap := 4 }
    statusWord t = 0x00100002 ∧ readReg t .bwState = 0x80000000 ∧ t.bw.base = 0x100 := by decide +kernel

/-- V-BC-2. -/
theorem test_bwPutBit_pends : readReg (after (.bwPutBit 1) (writing 0b10 2)) .bwState = 0x80000503 := by decide +kernel

/-- V-BC-4: the eighth bit stores CA. -/
theorem test_bwPutBit_stores :
    let t := after (.bwPutBit 0) (writing 0x65 7)
    t.mem = [(0x100, 0xCA)] ∧ readReg t .bwState = 0x80000000 ∧ t.outLen = 1 := by decide +kernel

/-- V-BC-7: B = "10" after 111110 completes FA. -/
theorem test_bwPutSymbol :
    let t := after (.bwPutSymbol 0x42) { writing 0x3E 6 with code := genCode tree1, codeValid := true }
    t.mem = [(0x100, 0xFA)] ∧ readReg t .bwState = 0x80000000 ∧ t.bw.bytes = 1 := by decide +kernel

/-- V-BC-3. -/
theorem test_bwFinalize :
    let t := after .bwFinalize (writing 0b101 3)
    t.mem = [(0x100, 0xA0)] ∧ t.pad = 5 ∧ t.outLen = 1 ∧ readReg t .bwState = 0 := by decide +kernel

/-- V-BC-5: no room for the pending bits. -/
theorem test_bwFinalize_capacity :
    statusWord (after .bwFinalize
      { base with bw := { active := true, base := 0x100, cap := 0, bytes := 0, acc := 0x7F, nbits := 7 } }) =
      0x00130906 := by decide +kernel

/-- V-BC-10: the sum does not wrap. -/
theorem test_brInit_range :
    statusWord (after .brInit { base with srcAddr := 0xFFFFFFFF, srcLen := 2 }) = 0x00140A06 := by decide +kernel

/-- V-BC-8. -/
theorem test_brInit : readReg (after .brInit { base with srcAddr := 0x200, srcLen := 1 }) .brState = 0x80000000 := by
  decide +kernel

/-- V-BC-8, read 3. -/
theorem test_brGetBit :
    let t := after .brGetBit (reading 0 2)
    t.resultLo = 1 ∧ readReg t .brState = 0x80000003 ∧ t.br.pos = 0 := by decide +kernel

/-- V-BC-8, read 9. -/
theorem test_brGetBit_exhausted : statusWord (after .brGetBit (reading 1 0)) = 0x00150806 := by decide +kernel

/-- V-BC-9. -/
theorem test_encodePayload :
    let t := after .encodePayload coded
    memRead t 0x100 4 = [0x05, 0x5F, 0xE0, 0x04] ∧ t.outLen = 4 ∧ t.pad = 4 ∧ t.bw.bytes = 3 := by decide +kernel

/-- V-BC-10: E has no code. -/
theorem test_encodePayload_no_code :
    statusWord (after .encodePayload { coded with mem := bytesAt 0 [0x41, 0x45], srcLen := 2 }) = 0x00160C06 := by
  decide +kernel

/-- V-BC-9, N = 12: the walk goes on into the padding. -/
theorem test_decodePayload :
    let t := after .decodePayload (encoded 12)
    memRead t 0x200 12 = payload ++ [0x41] ∧ t.pad = 4 ∧ readReg t .brState = 0x80000005 ∧ t.br.pos = 2 := by
  decide +kernel

/-- V-BC-9, N = 16. -/
theorem test_decodePayload_end_of_data : statusWord (after .decodePayload (encoded 16)) = 0x00170406 := by decide +kernel

/-- V-TB-9: clearing the counts leaves the tree and the table. -/
theorem test_freqClear : readReg (after .freqClear coded) .treeState = 0x00070003 := by decide +kernel

/-- V-TB-9: counting adds up. -/
theorem test_freqCount :
    let s := { base with mem := bytesAt 0 [0x41, 0x42], srcLen := 2 }
    tableGet (after .freqCount (after .freqCount s)).freq 0x41 = 2 := by decide +kernel

/-- V-TB-1. -/
theorem test_freqRead : (after (.freqRead 0x41) (after .freqCount coded)).resultLo = 5 := by decide +kernel

/-- V-TB-6, "AABC": the leaf comes before the node of equal weight. -/
theorem test_treeBuild_ties :
    (after .treeBuild { base with freq := countBytes clearedFreq [0x41, 0x41, 0x42, 0x43] }).tree =
      some (.node 4 (.leaf 0x41 2) (.node 2 (.leaf 0x42 1) (.leaf 0x43 1))) := by decide +kernel

/-- V-TB-4: the dummy's value wraps. -/
theorem test_treeBuild_one_value :
    (after .treeBuild { base with freq := countBytes clearedFreq [0xFF, 0xFF] }).tree =
      some (.node 2 (.leaf 0xFF 2) (.leaf 0x00 0)) := by decide +kernel

/-- The worked trace of 41_tree_builder.md R136. -/
theorem test_treeBuild_worked : buildTree (countBytes clearedFreq payload) = tree1 := by decide +kernel

/-- V-TB-1: A = "0", D = "110", E has none. -/
theorem test_codeGen :
    let t := after .codeGen coded
    tableGet t.code 0x41 = [false] ∧ tableGet t.code 0x44 = [true, true, false] ∧ tableGet t.code 0x45 = [] := by
  decide +kernel

/-- V-TS-2: of two leaves with one value the later counts. -/
theorem test_codeGen_duplicate :
    tableGet (after .codeGen { base with tree := some (.node 0 (.leaf 0x41 0) (.leaf 0x41 0)) }).code 0x41 = [true] := by
  decide +kernel

/-- V-TB-1. -/
theorem test_codeRead :
    let t := after (.codeRead 0x44) coded
    memRead t 0x100 1 = [0xC0] ∧ t.resultLo = 3 ∧ t.outLen = 1 := by decide +kernel

/-- V-TS-1. -/
theorem test_treeSerialize :
    let t := after .treeSerialize { coded with dstCap := 16 }
    memRead t 0x100 11 = [0x00, 0x01, 0x41, 0x00, 0x01, 0x42, 0x00, 0x01, 0x44, 0x01, 0x43] ∧ t.outLen = 11 := by
  decide +kernel

/-- V-TS-1, DST_CAP = 10. -/
theorem test_treeSerialize_capacity : statusWord (after .treeSerialize { coded with dstCap := 10 }) = 0x00300906 := by
  decide +kernel

/-- V-TS-2. -/
theorem test_treeDeserialize :
    (after .treeDeserialize { base with mem := bytesAt 0 [0x00, 0x01, 0x61, 0x01, 0x62], srcLen := 5 }).tree =
      some tree4 := by decide +kernel

/-- V-TS-2: a trailing byte. -/
theorem test_treeDeserialize_trailing :
    let t := after .treeDeserialize { coded with mem := bytesAt 0 [0x01, 0x41, 0x00], srcLen := 3 }
    statusWord t = 0x00310206 ∧ readReg t .treeState = 0 := by decide +kernel

/-- V-CC-0. -/
theorem test_crc32 : (after .crc32 coded).crc = 0x4A1C2A89 := by decide +kernel

/-- V-CC-0, "123456789". -/
theorem test_crc32_check_value :
    crc32 [0x31, 0x32, 0x33, 0x34, 0x35, 0x36, 0x37, 0x38, 0x39] = 0xCBF43926 := by decide +kernel

/-- V-CC-4. -/
theorem test_compress :
    let t := after .compress toCompress
    memRead t 0x100 36 = container4 0 ∧ t.outLen = 36 ∧ t.pad = 6 ∧ t.crc = 0x9E83486D := by decide +kernel

/-- V-CC-12: one byte too few. -/
theorem test_compress_capacity :
    let t := after .compress { toCompress with dstCap := 35 }
    statusWord t = 0x00410906 ∧ t.mem = toCompress.mem ∧ readReg t .treeState = 0x00030003 := by decide +kernel

/-- P4, its end. -/
theorem test_decompress :
    let t := after .decompress (toDecompress (container4 0))
    memRead t 0x200 2 = [0x61, 0x62] ∧ statusWord t = 0x00420002 ∧ t.nameAddr = 0x10A ∧ t.pad = 6 ∧
      readReg t .brState = 0x80000002 := by decide +kernel

/-- V-CC-9: the type is looked at last. -/
theorem test_decompress_unknown_type :
    statusWord (after .decompress (toDecompress (container4 2))) = 0x00420606 := by decide +kernel

/-! ### Witnesses: the command word -/

theorem wit_DecodeOfEncode : Instr.wf (.bwPutSymbol 0xFF) = true := by decide
theorem wit_DecodedWordEncodesBack : decode 0x00004425 = .ok (.codeRead 0x44) := by rfl
theorem wit_OneRowOrIllegal : decode 0x00000111 = .ok (.bwPutBit 1) ∧ decode 0x00000311 = .error .operandNotBit :=
  ⟨by rfl, by rfl⟩

/-- A running command. -/
def running (w : Word) : State := base.startCommand w

theorem wit_IllegalWordsRaise :
    (∃ s : State, s.seq = .idle ∧ s.events = [.regWrite 4 0x00 0x00000100]) ∧ ∃ e, decode 0x00000100 = .error e :=
  ⟨⟨{ base with events := [.regWrite 4 0x00 0x00000100] }, by rfl, by rfl⟩, .operandNotZero, by rfl⟩

/-- A word for each of (a) to (d). -/
theorem wit_IllegalWordsRaise_cases :
    (opField 0x43 ∉ formatNOps ∧ opField 0x43 ∉ formatIOps ∧ opField 0x43 ∉ formatBOps) ∧ rsvField 0x80000000 ≠ 0 ∧
      (opField 0x0123 ∈ formatNOps ∧ immField 0x0123 ≠ 0) ∧
      (opField 0x0211 ∈ formatBOps ∧ immField 0x0211 ≠ 0 ∧ immField 0x0211 ≠ 1) := by decide

/-! ### Witnesses: steps -/

theorem wit_StepRunsTheDecodedCommand_used_up :
    (running 0x24).seq = .busy ∧ (running 0x24).disturbed = false ∧ decode (running 0x24).cmd = .ok .codeGen ∧
      (running 0x24).events = [] := ⟨by rfl, by rfl, by rfl, by rfl⟩

theorem wit_StepRunsTheDecodedCommand_sequencer :
    ∃ s : State, s.seq = .busy ∧ s.disturbed = false ∧ decode s.cmd = .ok .codeGen ∧
      s.events = .sequencer :: [.regRead 4 0x04] :=
  ⟨{ running 0x24 with events := [.sequencer, .regRead 4 0x04] }, by rfl, by rfl, by rfl, by rfl⟩

theorem wit_StepRunsTheDecodedCommand_wait :
    ∃ s : State, s.seq = .busy ∧ s.disturbed = false ∧ decode s.cmd = .ok .codeGen ∧ s.events = .wait :: [.stop] :=
  ⟨{ running 0x24 with events := [.wait, .stop] }, by rfl, by rfl, by rfl, by rfl⟩

theorem wit_StepRunsTheDecodedCommand_fetch : decodeTableWord 32 0x4112 = some (.bwPutSymbol 0x41) := by rfl

theorem wit_CommandWriteStartsCommand :
    ∃ s : State, s.seq = .idle ∧ s.events = .regWrite 4 0x00 0x41 :: [.wait] :=
  ⟨{ base with events := [.regWrite 4 0x00 0x41, .wait] }, by rfl, by rfl⟩

theorem wit_RegisterWritesWhileBusyIgnored :
    Reg.atOffset 0x00 = some .cmd ∧ ∃ s : State, s.seq = .busy ∧ s.events = .regWrite 4 0x00 0x20 :: [] :=
  ⟨by rfl, { running 0x41 with events := [.regWrite 4 0x00 0x20] }, by rfl, by rfl⟩

theorem wit_ArgumentRegistersStore :
    Reg.atOffset 0x20 = some .nameLen ∧ Reg.nameLen ≠ .cmd ∧
      ∃ s : State, s.seq = .idle ∧ s.events = .regWrite 4 0x20 0xFFFFFFFF :: [] :=
  ⟨by rfl, by decide, { base with events := [.regWrite 4 0x20 0xFFFFFFFF] }, by rfl, by rfl⟩

theorem wit_ArgumentRegistersStore_ignored :
    Reg.atOffset 0x7C = some (.reserved 9) ∧ Reg.reserved 9 ≠ .cmd ∧
      ∃ s : State, s.seq = .idle ∧ s.events = .regWrite 4 0x7C 1 :: [] :=
  ⟨by rfl, by decide, { base with events := [.regWrite 4 0x7C 1] }, by rfl, by rfl⟩

/-- The first offset past the window, a misaligned one, a narrow access; and the last one inside. -/
theorem wit_RegisterAccessFormRefused :
    ¬ (4 = 4 ∧ 0x80 % 4 = 0 ∧ 0x80 ≤ 0x7C) ∧ ¬ (4 = 4 ∧ 0x7E % 4 = 0 ∧ 0x7E ≤ 0x7C) ∧
      ¬ (2 = 4 ∧ 0x04 % 4 = 0 ∧ 0x04 ≤ 0x7C) ∧ (4 = 4 ∧ 0x7C % 4 = 0 ∧ 0x7C ≤ 0x7C) ∧
      (∃ s : State, s.events = .regWrite 4 0x80 0 :: []) ∧ (∃ s : State, s.events = .regRead 2 0x04 :: []) ∧
      (∃ s : State, s.events = .regWrite 4 0x7C 0 :: []) ∧ ∃ s : State, s.events = .regRead 4 0x7C :: [] :=
  ⟨by decide, by decide, by decide, by decide, ⟨{ base with events := [.regWrite 4 0x80 0] }, by rfl⟩,
    ⟨{ base with events := [.regRead 2 0x04] }, by rfl⟩, ⟨{ base with events := [.regWrite 4 0x7C 0] }, by rfl⟩,
    { base with events := [.regRead 4 0x7C] }, by rfl⟩

theorem wit_HostReadsHaveNoEffect_map :
    (0x54, Reg.version) ∈ registerMap ∧ coded.tree = some tree1 := ⟨by decide, by rfl⟩

theorem wit_CompletionAndErrorEnds : (ErrorCode.stateError, 0x0C) ∈ errorCodes := by decide

theorem wit_HostReadsHaveNoEffect :
    Reg.atOffset 0x18 = some .outLen ∧
      (∃ s : State, s.events = .regRead 4 0x18 :: [] ∧ s.seq = .idle) ∧
      (∃ s : State, 0x3FF < s.params.memBytes ∧ s.events = .memRead 0x3FF :: [] ∧ s.seq = .idle) :=
  ⟨by rfl, ⟨{ base with events := [.regRead 4 0x18] }, by rfl, by rfl⟩,
    { base with events := [.memRead 0x3FF] }, by decide +kernel, by rfl, by rfl⟩

theorem wit_HostMemWriteStores :
    ∃ s : State, 0x3FF < s.params.memBytes ∧ s.events = .memWrite 0x3FF 0xAA :: [] :=
  ⟨{ running 0x41 with events := [.memWrite 0x3FF 0xAA] }, by decide +kernel, by rfl⟩

theorem wit_DisturbedCommandEnds :
    ∃ s : State, s.seq = .busy ∧ s.disturbed = true ∧ decode s.cmd = .ok .compress ∧ s.events = [] :=
  ⟨{ running 0x41 with disturbed := true }, by rfl, by rfl, by rfl, by rfl⟩

theorem wit_ResetInputGivesResetState : ∃ s : State, s.events = .reset :: [.stop] :=
  ⟨{ running 0x41 with events := [.reset, .stop] }, by rfl⟩

/-! ### Witnesses: the whole machine -/

theorem base_codeOk : base.codeOk := by intro v; simp [base, emptyCode, tableGet]

theorem base_statusOk : base.statusOk where
  busyClears := by decide
  errAgrees := by decide
  errEnds := by decide
  lastOpIsCmd := by decide
  disturbedBusy := by decide

theorem base_inv : base.Inv where
  mem := by unfold State.memOk; decide +kernel
  tree := by unfold State.treeOk; decide
  code := base_codeOk
  writer := by unfold State.writerOk; decide
  reader := by unfold State.readerOk; decide
  status := base_statusOk

theorem wit_StepKeepsInvariant : base.Inv ∧ step base = .next base := ⟨base_inv, by rfl⟩

theorem wit_BuildParametersFixed : ∃ s t : State, step s = .next t ∧ t.params = s.params :=
  ⟨base, base, by rfl, by rfl⟩

/-- A command that derives the table, run by a step. -/
theorem wit_CodeValidSaysDerived :
    ∃ s t : State, s.disturbed = false ∧ s.codeDerived ∧ step s = .next t ∧ t.codeValid = true := by
  let s : State := { running 0x24 with tree := some tree1 }
  obtain ⟨t, h1, h2⟩ := next_of_check (r := step s) (p := fun t => t.codeValid) (by decide +kernel)
  exact ⟨s, t, by rfl, (fun h => by simp [s, running, base, State.startCommand, State.reset] at h), h1, h2⟩

theorem wit_WritesConfinedToRegion :
    ∃ t, exec .codeGen coded = .next t ∧ (0x24 : Byte) ∉ [(0x11 : Byte), 0x12, 0x13, 0x16, 0x17, 0x30, 0x25, 0x41, 0x42] := by
  obtain ⟨t, h, _⟩ := next_of_check (r := exec .codeGen coded) (p := fun _ => true) (by decide +kernel)
  exact ⟨t, h, by decide⟩

theorem wit_WritesConfinedToRegion_outside :
    writeRegion .encodePayload coded = some ⟨0x100, 8⟩ ∧ Region.holds ⟨0x100, 8⟩ 0x108 = false ∧
      ∃ t, exec .encodePayload coded = .next t ∧ (t.status.err == false) = true :=
  ⟨by rfl, by decide, next_of_check (by decide +kernel)⟩

theorem wit_PrecheckErrorsLeaveNoTrace :
    ∃ t, exec .codeGen base = .next t ∧ (t.status.err && precheckError .codeGen t.status.errCode) = true :=
  next_of_check (by decide +kernel)

theorem wit_EachErrorOnlyWhereListed :
    ∃ t, exec .decompress (toDecompress (container4 2)) = .next t ∧ t.status.err = true :=
  next_of_check (by decide +kernel)

/-! ### Witnesses: tables and trees -/

theorem wit_FreqCountAddsOccurrences :
    coded.fitsMem coded.srcAddr.toNat coded.srcLen.toNat ∧ ¬ base.fitsMem 0x3FF 2 := by
  unfold State.fitsMem; decide +kernel

theorem wit_FreqCountAddsOccurrences_outside :
    ∃ s : State, ¬ s.fitsMem s.srcAddr.toNat s.srcLen.toNat := by
  refine ⟨{ base with srcAddr := 0x3FF, srcLen := 2 }, ?_⟩
  unfold State.fitsMem; decide +kernel

/-- No value, one value, and two values. -/
theorem wit_TreeBuildFollowsTheLoop :
    leafQueue base.freq = [] ∧
      (∃ s : State, ∃ v w k, leafQueue s.freq = [⟨.leaf v w, k⟩]) ∧ ∃ s : State, 2 ≤ (leafQueue s.freq).length :=
  ⟨by decide +kernel, ⟨{ base with freq := countBytes clearedFreq [0xFF, 0xFF] }, 0xFF, 2, 0, by decide +kernel⟩,
    { base with freq := countBytes clearedFreq [0x61, 0x62] }, by decide +kernel⟩

theorem wit_TreeBuildBuildsFromFreq_none : ∀ v, tableGet base.freq v = 0 := by
  intro v; simp [base, State.reset, tableGet]

theorem wit_TreeBuildBuildsFromFreq_one :
    ∃ s : State, tableGet s.freq 0xFF ≠ 0 ∧ ∀ u, u ≠ 0xFF → tableGet s.freq u = 0 := by
  refine ⟨{ base with freq := tableSet clearedFreq 0xFF 2 }, by decide +kernel, ?_⟩
  decide +kernel

theorem wit_TreeBuildBuildsFromFreq_many :
    ∃ s : State, (0x41 : Byte) ≠ 0x42 ∧ tableGet s.freq 0x41 ≠ 0 ∧ tableGet s.freq 0x42 ≠ 0 :=
  ⟨{ base with freq := countBytes clearedFreq payload }, by decide, by decide +kernel, by decide +kernel⟩

theorem wit_CodeGenDerivesTable_none : base.tree = none := by rfl
theorem wit_CodeGenDerivesTable_some : coded.tree = some tree1 ∧ tree1.internal = true := ⟨by rfl, by rfl⟩
theorem wit_CodeGenDerivesTable_leaf : ∃ s : State, s.tree = some (.leaf 0x00 0) :=
  ⟨{ base with tree := some (.leaf 0x00 0) }, by rfl⟩

theorem wit_DerivedCodeIsPrefixCode :
    coded.tree = some tree1 ∧ tree1.internal = true ∧ tree1.values.Nodup ∧ (0x41 : Byte) ∈ tree1.values ∧
      (0x43 : Byte) ∈ tree1.values ∧ (0x41 : Byte) ≠ 0x43 ∧ ∃ t, exec .codeGen coded = .next t := by
  obtain ⟨t, h, _⟩ := next_of_check (r := exec .codeGen coded) (p := fun _ => true) (by decide +kernel)
  exact ⟨by rfl, by rfl, by decide, by decide, by decide, by decide, t, h⟩

theorem wit_CodeLengthBound : tree1.nodeCount ≤ 511 := by decide

theorem wit_CodeReadReturnsCode_invalid : base.codeValid = false := by rfl

theorem wit_CodeReadReturnsCode :
    coded.codeValid = true ∧ coded.fitsMem coded.dstAddr.toNat coded.dstCap.toNat ∧
      ((tableGet coded.code 0x44).length + 7) / 8 ≤ coded.dstCap.toNat := by
  unfold State.fitsMem; decide +kernel

theorem wit_CodeReadReturnsCode_errors :
    (∃ s : State, s.codeValid = true ∧ ¬ s.fitsMem s.dstAddr.toNat s.dstCap.toNat) ∧
      ∃ s : State, s.codeValid = true ∧ s.fitsMem s.dstAddr.toNat s.dstCap.toNat ∧
        s.dstCap.toNat < ((tableGet s.code 0x44).length + 7) / 8 := by
  unfold State.fitsMem
  exact ⟨⟨{ coded with dstAddr := 0x400 }, by decide +kernel⟩, { coded with dstCap := 0 }, by decide +kernel⟩

/-! ### Witnesses: the serializer -/

theorem wit_SerializedSize : tree1.nodeCount ≤ 511 := by decide
theorem wit_ParseInvertsSer : tree1.nodeCount ≤ 511 ∧ parseTree [0x00, 0x01, 0x61, 0x01, 0x62] = some tree4 :=
  ⟨by decide, by decide +kernel⟩

theorem wit_TreeSerializeWritesTokens :
    base.tree = none ∧
      (∃ s : State, s.tree = some tree1 ∧ ¬ s.fitsMem s.dstAddr.toNat s.dstCap.toNat) ∧
      (∃ s : State, s.tree = some tree1 ∧ s.fitsMem s.dstAddr.toNat s.dstCap.toNat ∧ s.dstCap.toNat < (ser tree1).length) ∧
      ∃ s : State, s.tree = some tree1 ∧ s.fitsMem s.dstAddr.toNat s.dstCap.toNat ∧
        (ser tree1).length ≤ s.dstCap.toNat := by
  unfold State.fitsMem
  exact ⟨by rfl, ⟨{ coded with dstAddr := 0x400 }, by decide +kernel⟩, ⟨{ coded with dstCap := 10 }, by decide +kernel⟩,
    { coded with dstCap := 11 }, by decide +kernel⟩

/-- Tree bytes at 0x100. -/
def parsing (bs : List Byte) : State :=
  { base with mem := bytesAt 0x100 bs, srcAddr := 0x100, srcLen := BitVec.ofNat 32 bs.length }

theorem wit_TreeDeserializeParses :
    (∃ s : State, ¬ s.fitsMem s.srcAddr.toNat s.srcLen.toNat) ∧
      ∃ s : State, s.fitsMem s.srcAddr.toNat s.srcLen.toNat ∧ tree4.nodeCount ≤ 511 ∧
        memRead s s.srcAddr.toNat s.srcLen.toNat = ser tree4 := by
  unfold State.fitsMem
  exact ⟨⟨{ base with srcAddr := 0x400, srcLen := 1 }, by decide +kernel⟩, parsing [0x00, 0x01, 0x61, 0x01, 0x62],
    by decide +kernel⟩

/-- No tree's tokens begin with 02. -/
theorem ser_head (tr : HTree) (bs : List Byte) : ser tr ≠ 0x02 :: bs := by
  cases tr <;> simp [ser, leafTag, branchTag]

theorem wit_TreeDeserializeParses_corrupt :
    ∃ s : State, s.fitsMem s.srcAddr.toNat s.srcLen.toNat ∧
      ∀ tr : HTree, tr.nodeCount ≤ 511 → memRead s s.srcAddr.toNat s.srcLen.toNat ≠ ser tr := by
  refine ⟨parsing [0x02], by unfold State.fitsMem; decide +kernel, fun tr _ h => ser_head tr [] ?_⟩
  rw [← h]; decide +kernel

/-! ### Witnesses: the bit codec -/

theorem wit_BwInitOpensWriter :
    coded.fitsMem coded.dstAddr.toNat coded.dstCap.toNat ∧
      ∃ s : State, ¬ s.fitsMem s.dstAddr.toNat s.dstCap.toNat := by
  unfold State.fitsMem
  exact ⟨by decide +kernel, { base with dstAddr := 0x3FD, dstCap := 4 }, by decide +kernel⟩

theorem wit_BwPutBitAppends_errors :
    ((2 : Byte) ≠ 0 ∧ (2 : Byte) ≠ 1) ∧ base.bw.active = false ∧
      ∃ s : State, s.bw.active = true ∧ s.bw.cap.toNat < s.bw.bytes.toNat + (s.bw.nbits.val + 1) / 8 :=
  ⟨by decide, by rfl,
    { base with bw := { active := true, base := 0x100, cap := 0, bytes := 0, acc := 0x7F, nbits := 7 } },
    by decide +kernel⟩

/-- The seventh pending bit, and the last of a byte. -/
theorem wit_BwPutBitAppends :
    (writing 0x3F 6).bw.active = true ∧
      (writing 0x3F 6).bw.bytes.toNat + ((writing 0x3F 6).bw.nbits.val + 1) / 8 ≤ (writing 0x3F 6).bw.cap.toNat ∧
      (writing 0x3F 6).fitsMem (writing 0x3F 6).bw.base.toNat (writing 0x3F 6).bw.cap.toNat ∧
      (writing 0x7F 7).bw.active = true ∧
      (writing 0x7F 7).bw.bytes.toNat + ((writing 0x7F 7).bw.nbits.val + 1) / 8 ≤ (writing 0x7F 7).bw.cap.toNat ∧
      (writing 0x7F 7).fitsMem (writing 0x7F 7).bw.base.toNat (writing 0x7F 7).bw.cap.toNat := by
  unfold State.fitsMem; decide +kernel

theorem wit_BwPutSymbolAppendsCode :
    ∃ s : State, s.bw.active = true ∧ s.codeValid = true ∧ tableGet s.code 0x43 ≠ [] ∧
      s.bw.bytes.toNat + (s.bw.nbits.val + (tableGet s.code 0x43).length) / 8 ≤ s.bw.cap.toNat ∧
      s.fitsMem s.bw.base.toNat s.bw.cap.toNat := by
  unfold State.fitsMem
  exact ⟨{ coded with bw := (writing 0x3E 6).bw }, by decide +kernel⟩

theorem wit_BwPutSymbolAppendsCode_errors :
    base.bw.active = false ∧ (writing 0 0).codeValid = false ∧ tableGet coded.code 0x45 = [] ∧
      ∃ s : State, s.bw.active = true ∧ s.codeValid = true ∧ tableGet s.code 0x43 ≠ [] ∧
        s.bw.cap.toNat < s.bw.bytes.toNat + (s.bw.nbits.val + (tableGet s.code 0x43).length) / 8 :=
  ⟨by rfl, by rfl, by decide +kernel,
    { coded with bw := { active := true, base := 0x100, cap := 0, bytes := 0, acc := 0, nbits := 5 } }, by decide +kernel⟩

/-- A sink and a source past the end of MEM. -/
def astray : State :=
  { coded with
    bw := { active := true, base := 0xFFFFFFFF, cap := 4, bytes := 0, acc := 0, nbits := 1 },
    br := { active := true, base := 0xFFFFFFFF, len := 4, pos := 0, bit := 0 } }

theorem wit_CursorOutsideMemIsRangeError :
    ¬ astray.fitsMem astray.bw.base.toNat astray.bw.cap.toNat ∧ astray.bw.active = true ∧ astray.codeValid = true ∧
      tableGet astray.code 0x43 ≠ [] ∧ astray.bw.bytes.toNat + (astray.bw.nbits.val + 1) / 8 ≤ astray.bw.cap.toNat ∧
      astray.bw.bytes.toNat + (astray.bw.nbits.val + (tableGet astray.code 0x43).length) / 8 ≤ astray.bw.cap.toNat ∧
      astray.bw.bytes.toNat < astray.bw.cap.toNat ∧ ¬ astray.fitsMem astray.br.base.toNat astray.br.len.toNat ∧
      astray.br.active = true := by
  unfold State.fitsMem; decide +kernel

theorem wit_BwFinalizeFlushes :
    base.bw.active = false ∧
      (∃ s : State, s.bw.active = true ∧ 0 < s.bw.nbits.val ∧ s.bw.cap.toNat ≤ s.bw.bytes.toNat) ∧
      (∃ s : State, s.bw.active = true ∧ s.bw.nbits.val = 0 ∧ s.fitsMem s.bw.base.toNat s.bw.cap.toNat) ∧
      ∃ s : State, s.bw.active = true ∧ 0 < s.bw.nbits.val ∧ s.bw.bytes.toNat < s.bw.cap.toNat ∧
        s.fitsMem s.bw.base.toNat s.bw.cap.toNat := by
  unfold State.fitsMem
  exact ⟨by rfl,
    ⟨{ base with bw := { active := true, base := 0x100, cap := 0, bytes := 0, acc := 1, nbits := 1 } }, by decide +kernel⟩,
    ⟨writing 0 0, by decide +kernel⟩, writing 0x7F 7, by decide +kernel⟩

/-- Two bits, then the code of 'A', "0": three bits, one byte. -/
theorem wit_WriterPacksItsBits_completes :
    coded.fitsMem coded.dstAddr.toNat coded.dstCap.toNat ∧ coded.codeValid = true ∧ tableGet coded.code 0x41 ≠ [] ∧
      [true, false, false] = ([.inl true, .inl false, .inr 0x41] : List (Bool ⊕ Byte)).flatMap
        (Sum.elim (fun b => [b]) (tableGet coded.code)) ∧
      (3 + 7) / 8 ≤ coded.dstCap.toNat := by
  unfold State.fitsMem; decide +kernel

/-- BW_INIT, BW_PUT_BIT 1, another command, BW_PUT_SYMBOL 'A', BW_FINALIZE. -/
theorem wit_WriterPacksItsBits :
    ∃ (s t u x : State) (bits : Bits), exec .bwInit s = .next t ∧ t.status.err = false ∧ PutRun t bits u ∧
      exec .bwFinalize u = .next x ∧ x.status.err = false ∧ bits.length = 2 := by
  have h1 : exec .bwInit coded = .next (after .bwInit coded) := by rfl
  let t := after .bwInit coded
  obtain ⟨a, k1, k2⟩ := next_of_check (r := exec (.bwPutBit 1) t)
    (p := fun a => !a.status.err && nextIs (exec .nop a) (fun b => nextIs (exec (.bwPutSymbol 0x41) b)
      (fun c => !c.status.err && nextIs (exec .bwFinalize c) (fun x => !x.status.err)) &&
        (tableGet b.code 0x41).length == 1)) (by decide +kernel)
  simp only [Bool.and_eq_true, Bool.not_eq_true'] at k2
  obtain ⟨b, l1, l2⟩ := next_of_check k2.2
  simp only [Bool.and_eq_true, beq_iff_eq] at l2
  obtain ⟨c, m1, m2⟩ := next_of_check l2.1
  simp only [Bool.and_eq_true, Bool.not_eq_true'] at m2
  obtain ⟨x, n1, n2⟩ := next_of_check m2.2
  have hb : b = a.completed 0x00 0 := by cases l1; rfl
  refine ⟨coded, t, c, x, _, h1, by rfl, .symbol _ b c 0x41 (.between _ a b (.bit _ t a 1 .opened k1 k2.1) ?_ ?_) m1 m2.1,
    n1, by simpa using n2, ?_⟩
  · rw [hb]; rfl
  · intro y _ _; rw [hb]; rfl
  · simpa using l2.2

theorem wit_BrInitOpensReader :
    coded.fitsMem coded.srcAddr.toNat coded.srcLen.toNat ∧
      ∃ s : State, ¬ s.fitsMem s.srcAddr.toNat s.srcLen.toNat := by
  unfold State.fitsMem
  exact ⟨by decide +kernel, { base with srcAddr := 0x3FF, srcLen := 2 }, by decide +kernel⟩

theorem wit_BrGetBitReadsNextBit :
    base.br.active = false ∧
      ((reading 1 0).br.active = true ∧ (reading 1 0).fitsMem 0x200 1 ∧ (reading 1 0).br.pos = (reading 1 0).br.len) ∧
      ((reading 0 7).br.active = true ∧ (reading 0 7).fitsMem 0x200 1 ∧ (reading 0 7).br.pos < (reading 0 7).br.len) := by
  unfold State.fitsMem; decide +kernel

theorem wit_EncodePayloadWritesBitstream :
    coded.codeValid = true ∧ coded.fitsMem coded.srcAddr.toNat coded.srcLen.toNat ∧
      coded.fitsMem coded.dstAddr.toNat coded.dstCap.toNat ∧
      apart coded.srcAddr.toNat coded.srcLen.toNat coded.dstAddr.toNat coded.dstCap.toNat ∧
      (∀ v ∈ memRead coded coded.srcAddr.toNat coded.srcLen.toNat, tableGet coded.code v ≠ []) ∧
      ((payloadBits coded.code (memRead coded coded.srcAddr.toNat coded.srcLen.toNat)).length + 7) / 8 + 1 ≤
        coded.dstCap.toNat := by
  unfold State.fitsMem apart; decide +kernel

/-- "AE" has a byte without a code; "AAAAABBBCCD" needs 4 bytes and has 3; an overlap; no table. -/
theorem wit_EncodePayloadWritesBitstream_errors :
    base.codeValid = false ∧
      (∃ s : State, s.codeValid = true ∧
        ¬ apart s.srcAddr.toNat s.srcLen.toNat s.dstAddr.toNat s.dstCap.toNat) ∧
      (∃ s : State, s.codeValid = true ∧ s.fitsMem s.srcAddr.toNat s.srcLen.toNat ∧
        s.fitsMem s.dstAddr.toNat s.dstCap.toNat ∧
        apart s.srcAddr.toNat s.srcLen.toNat s.dstAddr.toNat s.dstCap.toNat ∧
        ∃ v ∈ memRead s s.srcAddr.toNat s.srcLen.toNat, tableGet s.code v = []) ∧
      ∃ s : State, s.codeValid = true ∧ s.fitsMem s.srcAddr.toNat s.srcLen.toNat ∧
        s.fitsMem s.dstAddr.toNat s.dstCap.toNat ∧
        apart s.srcAddr.toNat s.srcLen.toNat s.dstAddr.toNat s.dstCap.toNat ∧
        (∀ v ∈ memRead s s.srcAddr.toNat s.srcLen.toNat, tableGet s.code v ≠ []) ∧
        s.dstCap.toNat < ((payloadBits s.code (memRead s s.srcAddr.toNat s.srcLen.toNat)).length + 7) / 8 + 1 := by
  unfold State.fitsMem apart
  exact ⟨by rfl, ⟨{ coded with dstAddr := 10 }, by decide +kernel⟩,
    ⟨{ coded with mem := bytesAt 0 [0x41, 0x45], srcLen := 2 }, by decide +kernel⟩, { coded with dstCap := 3 },
    by decide +kernel⟩

theorem encoded_ready (n : Word) (h : n = 11 ∨ n = 16) : decodeReady (encoded n) := by
  unfold decodeReady State.fitsMem apart
  rcases h with rfl | rfl <;> decide +kernel

theorem wit_DecodePayloadWalksTree :
    (encoded 11).tree = some tree1 ∧ decodeReady (encoded 11) ∧
      ∃ vs rest, tree1.decodeBits (encoded 11).plen
        (unpackBits (memRead (encoded 11) (encoded 11).srcAddr.toNat ((encoded 11).srcLen.toNat - 1))) = some (vs, rest) :=
  ⟨by rfl, encoded_ready 11 (.inl rfl), payload, [false, false, false, false], by decide +kernel⟩

theorem wit_DecodePayloadWalksTree_end :
    (encoded 16).tree = some tree1 ∧ decodeReady (encoded 16) ∧
      tree1.decodeBits (encoded 16).plen
        (unpackBits (memRead (encoded 16) (encoded 16).srcAddr.toNat ((encoded 16).srcLen.toNat - 1))) = none :=
  ⟨by rfl, encoded_ready 16 (.inr rfl), by decide +kernel⟩

theorem wit_DecodePayloadWalksTree_prechecks :
    base.tree = none ∧
      (∃ s : State, s.tree = some tree1 ∧
        ¬ apart s.srcAddr.toNat s.srcLen.toNat s.dstAddr.toNat s.dstCap.toNat) ∧
      (∃ s : State, s.tree = some tree1 ∧ s.fitsMem s.srcAddr.toNat s.srcLen.toNat ∧
        s.fitsMem s.dstAddr.toNat s.dstCap.toNat ∧
        apart s.srcAddr.toNat s.srcLen.toNat s.dstAddr.toNat s.dstCap.toNat ∧ s.srcLen = 0) ∧
      ∃ s : State, s.tree = some tree1 ∧ s.fitsMem s.srcAddr.toNat s.srcLen.toNat ∧
        s.fitsMem s.dstAddr.toNat s.dstCap.toNat ∧
        apart s.srcAddr.toNat s.srcLen.toNat s.dstAddr.toNat s.dstCap.toNat ∧ s.srcLen ≠ 0 ∧ s.dstCap.toNat < s.plen := by
  unfold State.fitsMem apart
  exact ⟨by rfl, ⟨{ encoded 11 with dstAddr := 0x102 }, by decide +kernel⟩, ⟨{ encoded 11 with srcLen := 0 }, by decide +kernel⟩,
    encoded 17, by decide +kernel⟩

/-- A command's end and the registers the host then writes. -/
theorem wit_EncodeThenDecodeReturnsPayload :
    ∃ (s t u : State) (p : List Byte), p = memRead s s.srcAddr.toNat s.srcLen.toNat ∧
      s.tree = some (buildTree (countBytes clearedFreq p)) ∧ s.code = genCode (buildTree (countBytes clearedFreq p)) ∧
      exec .encodePayload s = .next t ∧ t.status.err = false ∧
      u = { t with srcAddr := s.dstAddr, srcLen := t.outLen, dstAddr := u.dstAddr, dstCap := u.dstCap,
                   plenLo := s.srcLen, plenHi := 0 } ∧
      decodeReady u := by
  let f : State → State := fun t =>
    { t with srcAddr := coded.dstAddr, srcLen := t.outLen, dstAddr := 0x200, dstCap := 16, plenLo := coded.srcLen, plenHi := 0 }
  obtain ⟨t, h1, h2⟩ := next_of_check (r := exec .encodePayload coded) (p := fun t =>
    !t.status.err && decide (let u := f t
      (u.srcAddr.toNat + u.srcLen.toNat ≤ u.params.memBytes ∧ u.dstAddr.toNat + u.dstCap.toNat ≤ u.params.memBytes ∧
      (u.srcLen.toNat = 0 ∨ u.dstCap.toNat = 0 ∨ u.srcAddr.toNat + u.srcLen.toNat ≤ u.dstAddr.toNat ∨
        u.dstAddr.toNat + u.dstCap.toNat ≤ u.srcAddr.toNat) ∧ 1 ≤ u.srcLen.toNat ∧ u.plen ≤ u.dstCap.toNat))) (by decide +kernel)
  simp only [Bool.and_eq_true, Bool.not_eq_true', decide_eq_true_eq] at h2
  exact ⟨coded, t, f t, payload, by decide +kernel, by decide +kernel, by decide +kernel, h1, h2.1, by rfl, h2.2⟩

/-! ### Witnesses: the container codec -/

theorem wit_Crc32WritesChecksum :
    coded.fitsMem coded.srcAddr.toNat coded.srcLen.toNat ∧
      ∃ s : State, ¬ s.fitsMem s.srcAddr.toNat s.srcLen.toNat := by
  unfold State.fitsMem
  exact ⟨by decide +kernel, { base with srcAddr := 0x400, srcLen := 1 }, by decide +kernel⟩

theorem toCompress_ready : compressReady toCompress := by
  unfold compressReady State.fitsMem apart; decide +kernel

/-- DST_CAP = 36 is just enough for V-CC-4. -/
theorem wit_CompressWritesContainer :
    ∃ (s : State) (p : List Byte) (tr : HTree), p = memRead s s.srcAddr.toNat s.srcLen.toNat ∧
      tr = buildTree (countBytes clearedFreq p) ∧ compressReady s ∧
      29 + s.nameLen.toNat + (ser tr).length + ((payloadBits (genCode tr) p).length + 7) / 8 ≤ s.dstCap.toNat := by
  refine ⟨{ toCompress with dstCap := 36 }, _, _, rfl, rfl, ?_, by decide +kernel⟩
  unfold compressReady State.fitsMem apart; decide +kernel

theorem wit_CompressErrors :
    (∃ s : State, compressReady { s with typ := 0 } ∧ s.typ ≠ 0 ∧ s.typ ≠ 1) ∧
      (∃ s : State, ¬ compressReady { s with typ := 0 }) ∧
      ∃ (s : State) (p : List Byte) (tr : HTree), p = memRead s s.srcAddr.toNat s.srcLen.toNat ∧
        tr = buildTree (countBytes clearedFreq p) ∧ compressReady s ∧
        s.dstCap.toNat < 29 + s.nameLen.toNat + (ser tr).length + ((payloadBits (genCode tr) p).length + 7) / 8 := by
  unfold compressReady State.fitsMem apart
  exact ⟨⟨{ toCompress with typ := 2 }, by decide +kernel⟩, ⟨{ toCompress with dstAddr := 1 }, by decide +kernel⟩,
    { toCompress with dstCap := 35 }, _, _, rfl, rfl, by decide +kernel, by decide +kernel⟩

/-- Two states that agree on what the container depends on and on nothing else. -/
theorem wit_CompressIsDeterministic :
    ∃ s₁ s₂ t₁ t₂ : State,
      memRead s₁ s₁.srcAddr.toNat s₁.srcLen.toNat = memRead s₂ s₂.srcAddr.toNat s₂.srcLen.toNat ∧
      memRead s₁ s₁.nameAddr.toNat s₁.nameLen.toNat = memRead s₂ s₂.nameAddr.toNat s₂.nameLen.toNat ∧
      s₁.typ = s₂.typ ∧ s₁.params.magic = s₂.params.magic ∧
      exec .compress s₁ = .next t₁ ∧ exec .compress s₂ = .next t₂ ∧ t₁.status.err = false ∧ t₂.status.err = false := by
  let s₂ : State :=
    { toCompress with mem := bytesAt 0x40 [0x61, 0x62, 0x78], srcAddr := 0x40, nameAddr := 0x42, tree := some tree1 }
  obtain ⟨t₁, h1, k1⟩ := next_of_check (r := exec .compress toCompress) (p := fun t => !t.status.err) (by decide +kernel)
  obtain ⟨t₂, h2, k2⟩ := next_of_check (r := exec .compress s₂) (p := fun t => !t.status.err) (by decide +kernel)
  exact ⟨toCompress, s₂, t₁, t₂, by decide +kernel, by decide +kernel, by rfl, by rfl, h1, h2, by simpa using k1,
    by simpa using k2⟩

/-- V-CC-4 as parts. -/
theorem container4_at (typ : Byte) (h : typ = 0 ∨ typ = 2) :
    ContainerAt (toDecompress (container4 typ)) (typ.setWidth 32) [0x78] [0x00, 0x01] 2 0x9E83486D tree4 [0x40] 6 where
  source := by unfold State.fitsMem; rcases h with rfl | rfl <;> decide +kernel
  dest := by unfold State.fitsMem; rcases h with rfl | rfl <;> decide +kernel
  disjoint := by unfold apart; rcases h with rfl | rfl <;> decide +kernel
  nameFits := by decide
  versionFits := by decide
  plenFits := by decide
  treeFits := by decide
  bytes := by rcases h with rfl | rfl <;> decide +kernel

theorem tree4_decodes : tree4.decodeBits 2 (unpackBits [0x40]) =
    some ([0x61, 0x62], [false, false, false, false, false, false]) := by decide +kernel

theorem wit_DecompressRestoresPayload :
    ContainerAt (toDecompress (container4 0)) 0 [0x78] [0x00, 0x01] 2 (crc32 [0x61, 0x62]) tree4 [0x40] 6 ∧
      2 ≤ (toDecompress (container4 0)).dstCap.toNat ∧
      tree4.decodeBits 2 (unpackBits [0x40]) = some ([0x61, 0x62], [false, false, false, false, false, false]) := by
  refine ⟨?_, by decide +kernel, tree4_decodes⟩
  have h : crc32 [0x61, 0x62] = 0x9E83486D := by decide +kernel
  rw [h]
  exact container4_at 0 (.inl rfl)

theorem wit_DecompressPayloadErrors_type :
    ContainerAt (toDecompress (container4 2)) 2 [0x78] [0x00, 0x01] 2 0x9E83486D tree4 [0x40] 6 ∧
      2 ≤ (toDecompress (container4 2)).dstCap.toNat ∧ crc32 [0x61, 0x62] = 0x9E83486D ∧ (2 : Word) ≠ 0 ∧ (2 : Word) ≠ 1 :=
  ⟨container4_at 2 (.inr rfl), by decide +kernel, by decide +kernel, by decide, by decide⟩

/-- P4's first container: the stored checksum is wrong. -/
theorem wit_DecompressPayloadErrors_integrity :
    ∃ s : State, ContainerAt s 0 [0x78] [0x00, 0x01] 2 0x9F83486D tree4 [0x40] 6 ∧ 2 ≤ s.dstCap.toNat ∧
      crc32 [0x61, 0x62] ≠ 0x9F83486D := by
  refine ⟨toDecompress ((container4 0).set 21 0x9F), ⟨?_, ?_, ?_, by decide, by decide, by decide, by decide, by decide +kernel⟩,
    by decide +kernel, by decide +kernel⟩ <;> (first | unfold State.fitsMem | unfold apart) <;> decide +kernel

/-- The payload length raised to 9: one bit too few; and a destination of one byte. -/
theorem wit_DecompressPayloadErrors_bits :
    (∃ s : State, ContainerAt s 0 [0x78] [0x00, 0x01] 9 0x9E83486D tree4 [0x40] 6 ∧ 9 ≤ s.dstCap.toNat ∧
      tree4.decodeBits 9 (unpackBits [0x40]) = none) ∧
    ∃ s : State, ContainerAt s 0 [0x78] [0x00, 0x01] 2 0x9E83486D tree4 [0x40] 6 ∧ s.dstCap.toNat < 2 := by
  refine ⟨⟨toDecompress ((container4 0).set 20 9),
    ⟨?_, ?_, ?_, by decide, by decide, by decide, by decide, by decide +kernel⟩, by decide +kernel, by decide +kernel⟩,
    { toDecompress (container4 0) with dstCap := 1 },
    ⟨?_, ?_, ?_, by decide, by decide, by decide, by decide, by decide +kernel⟩, by decide +kernel⟩ <;>
    (first | unfold State.fitsMem | unfold apart) <;> decide +kernel

/-- V-CC-4 cut after its tree. -/
theorem wit_MissingPayloadIsCorruptPayload :
    ∃ s : State, s.fitsMem s.srcAddr.toNat s.srcLen.toNat ∧ s.fitsMem s.dstAddr.toNat s.dstCap.toNat ∧
      apart s.srcAddr.toNat s.srcLen.toNat s.dstAddr.toNat s.dstCap.toNat ∧
      memRead s s.srcAddr.toNat s.srcLen.toNat =
        containerHead s.params.magic.toList 0 [0x78] [0x00, 0x01] 2 0x9E83486D tree4 := by
  unfold State.fitsMem apart
  exact ⟨toDecompress ((container4 0).take 34), by decide +kernel⟩

/-- What the container's length and bytes meet, clause by clause: 3 bytes; the magic changed; 9 bytes; 24 bytes of a header
of 25; 28 bytes; one byte of the tree cut off; a first tree tag of 02. -/
theorem wit_DecompressHeaderErrors :
    (3 < 4) ∧
      memRead (toDecompress ((container4 0).set 0 0)) 0x100 4 ≠ (toDecompress ((container4 0).set 0 0)).params.magic.toList ∧
      memRead (toDecompress ((container4 0).take 9)) 0x100 4 = (toDecompress ((container4 0).take 9)).params.magic.toList ∧
      (24 < 24 + beNat (memRead (toDecompress ((container4 0).take 24)) (0x100 + 8) 2)) ∧
      (28 < 28 + beNat (memRead (toDecompress ((container4 0).take 28)) (0x100 + 8) 2)) ∧
      (33 < 28 + 1 + beNat (memRead (toDecompress ((container4 0).take 33)) (0x100 + (24 + 1)) 4)) := by
  decide +kernel

theorem wit_DecompressHeaderErrors_tree :
    ∀ tr : HTree, tr.nodeCount ≤ 511 →
      memRead (toDecompress ((container4 0).set 29 2)) (0x100 + (28 + 1))
        (beNat (memRead (toDecompress ((container4 0).set 29 2)) (0x100 + (24 + 1)) 4)) ≠ ser tr := by
  intro tr _ h
  apply ser_head tr [0x01, 0x61, 0x01, 0x62]
  rw [← h]; decide +kernel

/-- The registers the host writes between COMPRESS and DECOMPRESS. -/
def thenDecompress (t : State) : State :=
  { t with srcAddr := toCompress.dstAddr, srcLen := t.outLen, dstAddr := 0x300, dstCap := 2 }

theorem wit_CompressThenDecompressReturnsPayload :
    ∃ (s t u : State) (p : List Byte), p = memRead s s.srcAddr.toNat s.srcLen.toNat ∧
      exec .compress s = .next t ∧ t.status.err = false ∧
      u = { t with srcAddr := s.dstAddr, srcLen := t.outLen, dstAddr := u.dstAddr, dstCap := u.dstCap } ∧
      u.fitsMem u.dstAddr.toNat u.dstCap.toNat ∧
      apart u.srcAddr.toNat u.srcLen.toNat u.dstAddr.toNat u.dstCap.toNat ∧ p.length ≤ u.dstCap.toNat := by
  obtain ⟨t, h1, h2⟩ := next_of_check (r := exec .compress toCompress)
    (p := fun t => !t.status.err && (t.outLen == 36) && (t.params.memTop == 0x3FF)) (by decide +kernel)
  simp only [Bool.and_eq_true, Bool.not_eq_true', beq_iff_eq] at h2
  refine ⟨toCompress, t, thenDecompress t, [0x61, 0x62], by decide +kernel, h1, h2.1.1, by rfl, ?_, ?_, Nat.le_refl 2⟩
  · simp only [State.fitsMem, thenDecompress, Params.memBytes, h2.2]; decide
  · simp only [apart, thenDecompress, h2.1.2]; decide

theorem wit_ChecksumBitFlipIsDetected :
    ∃ (s t u : State) (k : Fin 32) (l : Nat), l = s.nameLen.toNat ∧
      exec .compress s = .next t ∧ t.status.err = false ∧
      u = { memWrite t (s.dstAddr.toNat + 20 + l)
              (bytesBE ((crc32 (memRead s s.srcAddr.toNat s.srcLen.toNat)) ^^^ (1 <<< k.val)).toNat 4) with
            srcAddr := s.dstAddr, srcLen := t.outLen, dstAddr := u.dstAddr, dstCap := u.dstCap } ∧
      u.fitsMem u.dstAddr.toNat u.dstCap.toNat ∧
      apart u.srcAddr.toNat u.srcLen.toNat u.dstAddr.toNat u.dstCap.toNat ∧ s.srcLen.toNat ≤ u.dstCap.toNat := by
  obtain ⟨t, h1, h2⟩ := next_of_check (r := exec .compress toCompress)
    (p := fun t => !t.status.err && (t.outLen == 36) && (t.params.memTop == 0x3FF)) (by decide +kernel)
  simp only [Bool.and_eq_true, Bool.not_eq_true', beq_iff_eq] at h2
  refine ⟨toCompress, t, { memWrite t (0x100 + 20 + 1)
      (bytesBE ((crc32 (memRead toCompress toCompress.srcAddr.toNat toCompress.srcLen.toNat)) ^^^ (1 <<< 31)).toNat 4) with
      srcAddr := toCompress.dstAddr, srcLen := t.outLen, dstAddr := 0x300, dstCap := 2 }, 31, 1, by decide +kernel, h1,
    h2.1.1, by rfl, ?_, ?_, Nat.le_refl 2⟩
  · simp only [State.fitsMem, memWrite, bytesBE, State.writeByte, Params.memBytes, h2.2]; decide
  · simp only [apart, h2.1.2]; decide

end Sys2Proof.Tests
end

section
/-! PROOFS. The register window and the host's port: what each word holds, what a register write, a register read and a
MEM read do while IDLE and while BUSY, and when the sequencer runs the word in CMD (10_state.md §3). -/

namespace Sys2Proof.Machine

/-! ### Words made of fields -/

/-- STATUS as the sum of its fields (10_state.md R23). -/
theorem statusWord_toNat (s : State) :
    (statusWord s).toNat = (decide (s.seq = .busy)).toNat + 2 * s.status.done.toNat + 4 * s.status.err.toNat +
      2 ^ 8 * s.status.errCode.code.toNat + 2 ^ 16 * s.status.lastOp.toNat := by
  have hbusy : s.busy.toNat = (decide (s.seq = .busy)).toNat := by unfold State.busy; cases s.seq <;> rfl
  simp only [statusWord, toNat_fields, bit1_toNat, BitVec.ofNat_eq_ofNat, BitVec.toNat_ofNat, Nat.zero_mod, hbusy]
  omega

/-- BW_STATE as the sum of its fields (10_state.md R23). -/
theorem bwStateWord_toNat (w : BitWriter) :
    (bwStateWord w).toNat = w.nbits.val + 2 ^ 8 * w.acc.toNat + 2 ^ 31 * w.active.toNat := by
  simp only [bwStateWord, toNat_fields, bit1_toNat, BitVec.ofNat_eq_ofNat, BitVec.toNat_ofNat, Nat.zero_mod]
  omega

/-- BR_STATE as the sum of its fields (10_state.md R23). -/
theorem brStateWord_toNat (r : BitReader) : (brStateWord r).toNat = r.bit.val + 2 ^ 31 * r.active.toNat := by
  simp only [brStateWord, toNat_fields, bit1_toNat, BitVec.ofNat_eq_ofNat, BitVec.toNat_ofNat, Nat.zero_mod]
  omega

/-- TREE_STATE as the sum of its fields (10_state.md R23). -/
theorem treeStateWord_toNat (s : State) :
    (treeStateWord s).toNat = s.treeValid.toNat + 2 * s.codeValid.toNat + 2 ^ 16 * (s.treeNodes % 2 ^ 9) := by
  simp only [treeStateWord, toNat_fields, bit1_toNat, BitVec.ofNat_eq_ofNat, BitVec.toNat_ofNat, Nat.zero_mod]
  omega

/-- A byte at bit 16 beside a value below it. -/
theorem toNat_shiftLeft_or (b : Byte) (k : Word) (hk : k.toNat < 2 ^ 16) :
    ((b.setWidth 32 <<< 16) ||| k).toNat = 2 ^ 16 * b.toNat + k.toNat := by
  have hshift : (b.setWidth 32 <<< 16).toNat = b.toNat <<< 16 := by
    simp only [BitVec.toNat_shiftLeft, BitVec.toNat_setWidth, Nat.shiftLeft_eq]
    omega
  rw [BitVec.toNat_or, hshift, ← Nat.shiftLeft_add_eq_or_of_lt hk, Nat.shiftLeft_eq, Nat.mul_comm]

/-- The low half of a word, stored in 16 bits and read back in 32. -/
theorem setWidth_setWidth_low (v : Word) : (v.setWidth 16).setWidth 32 = v &&& 0xFFFF := by
  apply BitVec.eq_of_toNat_eq
  have hmask : v.toNat &&& 0xFFFF = v.toNat % 2 ^ 16 := Nat.and_two_pow_sub_one_eq_mod v.toNat 16
  rw [BitVec.toNat_and, BitVec.toNat_setWidth, BitVec.toNat_setWidth, show (0xFFFF : Word).toNat = 0xFFFF from rfl, hmask]
  omega

/-- Every word of the window holds what 10_state.md R23 says, in every state. -/
theorem registersHold (s : State) : s.RegistersHold where
  cmd := rfl
  status := statusWord_toNat s
  srcAddr := rfl
  srcLen := rfl
  dstAddr := rfl
  dstCap := rfl
  outLen := rfl
  nameAddr := rfl
  nameLen := BitVec.toNat_setWidth_of_le (by decide)
  typ := rfl
  plenLo := rfl
  plenHi := rfl
  crc := rfl
  pad := BitVec.toNat_setWidth_of_le (by decide)
  resultLo := rfl
  resultHi := rfl
  bwState := bwStateWord_toNat s.bw
  bwBytes := rfl
  brState := brStateWord_toNat s.br
  brPos := rfl
  treeAbsent h := by simp [readReg, treeStateWord_toNat, State.treeValid, State.treeNodes, h]
  treePresent t h := by simp [readReg, treeStateWord_toNat, State.treeValid, State.treeNodes, h]
  version := rfl
  reserved _ := rfl

/-! ### Register writes -/

/-- A write to a register other than CMD changes the argument registers alone (10_state.md R24, R25). -/
theorem writeReg_frame (s : State) (r : Reg) (v : Word) (hr : r ≠ .cmd) :
    writeReg s r v = { s with
      srcAddr := (writeReg s r v).srcAddr, srcLen := (writeReg s r v).srcLen, dstAddr := (writeReg s r v).dstAddr
      dstCap := (writeReg s r v).dstCap, nameAddr := (writeReg s r v).nameAddr, nameLen := (writeReg s r v).nameLen
      typ := (writeReg s r v).typ, plenLo := (writeReg s r v).plenLo, plenHi := (writeReg s r v).plenHi } := by
  cases r with
  | cmd => exact absurd rfl hr
  | _ => rfl

theorem readReg_writeReg_same (s : State) (r : Reg) (v : Word) (hr : r ≠ .cmd) :
    readReg (writeReg s r v) r =
      (if r ∈ [.srcAddr, .srcLen, .dstAddr, .dstCap, .nameAddr, .typ, .plenLo, .plenHi] then v
       else if r = .nameLen then v &&& 0xFFFF
       else readReg s r) := by
  cases r with
  | cmd => exact absurd rfl hr
  | nameLen => exact setWidth_setWidth_low v
  | _ => rfl

theorem readReg_writeReg_other (s : State) {r q : Reg} (v : Word) (hr : r ≠ .cmd) (hq : q ≠ r) :
    readReg (writeReg s r v) q = readReg s q := by
  have key : readReg (writeReg s r v) q = if q = r then readReg (writeReg s r v) r else readReg s q := by
    cases r with
    | cmd => exact absurd rfl hr
    | srcAddr | srcLen | dstAddr | dstCap | nameAddr | nameLen | typ | plenLo | plenHi => cases q <;> rfl
    | _ => exact (if_neg hq).symm
  rw [key, if_neg hq]

/-- The event list is no register's. -/
@[simp] theorem readReg_events (s : State) (es : List Event) (q : Reg) :
    readReg { s with events := es } q = readReg s q := by
  cases q <;> rfl

/-! ### BUSY -/

theorem State.busy_of_seq {s : State} (h : s.seq = .busy) : s.busy = true := by rw [State.busy, h]; rfl

theorem State.not_busy_of_seq {s : State} (h : s.seq = .idle) : s.busy = false := by rw [State.busy, h]; rfl

/-! ### One step on each of the host's accesses -/

section
variable {s : State} {r : Reg} {offset a : Nat} {v : Word} {rest : List Event}

theorem step_regWrite (hr : Reg.atOffset offset = some r) (he : s.events = .regWrite 4 offset v :: rest) :
    step s = if s.busy then .next { s with events := rest } else .next (writeReg { s with events := rest } r v) := by
  simp only [step, he, takeEvent, hostRegWrite, Reg.reached, if_pos, hr]
  rfl

theorem step_regRead (hr : Reg.atOffset offset = some r) (he : s.events = .regRead 4 offset :: rest) :
    step s =
      if s.busy && !r.readsWhileBusy then
        .next { s with events := rest, seen := .reg r (Config.freeWord s.draws r) :: s.seen, draws := s.draws + 1 }
      else .next { s with events := rest, seen := .reg r (readReg s r) :: s.seen } := by
  simp only [step, he, takeEvent, hostRegRead, Reg.reached, if_pos, hr, readReg_events]
  rfl

theorem step_memRead (ha : a < s.params.memBytes) (he : s.events = .memRead a :: rest) :
    step s =
      if s.busy then
        .next { s with events := rest, seen := .mem a (Config.freeByte s.draws a) :: s.seen, draws := s.draws + 1 }
      else .next { s with events := rest, seen := .mem a (s.readByte a) :: s.seen } := by
  simp only [step, he, takeEvent, hostMemRead, if_pos ha]
  rfl

end

/-! ### The sequencer's move -/

/-- While BUSY and undisturbed the sequencer's move is the decoded command (10_state.md R21). -/
theorem advance_eq_exec {s : State} {i : Instr} (hb : s.seq = .busy) (hd : s.disturbed = false)
    (hi : decode s.cmd = .ok i) : advance s = exec i s := by
  simp [advance, State.busy_of_seq hb, runCommand, hi, hd]

/-- The host's `wait` while BUSY lets the sequencer move and stays on the list (30_encoding.md R94). -/
theorem step_wait_busy {s : State} {rest : List Event} (hb : s.seq = .busy) (he : s.events = .wait :: rest) :
    step s = advance s := by
  have hs : ({ s with events := .wait :: rest } : State) = s := by rw [← he]
  have hbusy : State.busy { s with events := rest } = true := State.busy_of_seq hb
  simp only [step, he, takeEvent, hbusy, if_true, hs]

/-- A table's word that decodes is a command word as it stands (30_encoding.md R80). -/
theorem decodeTableWord_some {nbits w : Nat} {i : Instr} (h : decodeTableWord nbits w = some i) :
    w % 2 ^ nbits = w ∧ decode (BitVec.ofNat 32 w) = .ok i := by
  unfold decodeTableWord at h
  split at h
  · rename_i hfit
    refine ⟨Nat.mod_eq_of_lt hfit.2, ?_⟩
    cases hd : decode (BitVec.ofNat 32 w) with
    | ok j => rw [hd] at h; simpa [Except.toOption] using h
    | error e => rw [hd] at h; simp [Except.toOption] at h
  · simp at h

/-! ### The obligations on host accesses -/

/-- Settles O6: each of the events named hands the move to the sequencer, which runs what CMD decodes to. -/
theorem stepRunsTheDecodedCommand : Obligations.StepRunsTheDecodedCommand := by
  intro s i rest
  refine ⟨fun hb hd hi => ⟨fun he => ?_, fun he => ?_, fun he => ?_⟩, fun nbits w hw => ?_⟩
  · rw [← advance_eq_exec hb hd hi, step, he]
  · rw [step, he]
    exact advance_eq_exec hb hd hi
  · rw [step_wait_busy hb he, advance_eq_exec hb hd hi]
  · obtain ⟨hmod, hi⟩ := decodeTableWord_some hw
    rw [State.withFetchWord, hmod]
    exact advance_eq_exec (s := s.startCommand (BitVec.ofNat 32 w)) (State.startCommand_seq s _)
      (State.startCommand_disturbed s _) hi

/-- Settles O7: CMD stands at offset 0, and a write to it while IDLE is `startCommand`. -/
theorem commandWriteStartsCommand : Obligations.CommandWriteStartsCommand := by
  intro s w rest hs he
  have hstep := step_regWrite (r := .cmd) rfl he
  rw [State.not_busy_of_seq hs] at hstep
  refine ⟨_, hstep, rfl, BitVec.eq_of_toNat_eq ?_⟩
  rw [statusWord_toNat, toNat_shiftLeft_or _ _ (by decide)]
  simp [writeReg, ErrorCode.code]
  omega

/-- Settles O8: while BUSY no register write reaches the window. -/
theorem registerWritesWhileBusyIgnored : Obligations.RegisterWritesWhileBusyIgnored := by
  intro s r offset v rest hs hr he
  rw [step_regWrite hr he, State.busy_of_seq hs, if_pos rfl]

/-- Settles O9: a register write while IDLE is `writeReg`, whose value, frame and effect on the other registers are
known for each register but CMD. -/
theorem argumentRegistersStore : Obligations.ArgumentRegistersStore := by
  intro s r offset v rest hs hr hcmd he
  have hstep := step_regWrite hr he
  rw [State.not_busy_of_seq hs] at hstep
  refine ⟨_, hstep, fun q hq => ?_, ?_, writeReg_frame { s with events := rest } r v hcmd⟩
  · rw [readReg_writeReg_other _ v hcmd hq, readReg_events]
  · rw [readReg_writeReg_same _ r v hcmd, readReg_events]

/-- Settles O11: the map and the words by evaluation and `registersHold`, the reads by what a read's step is. -/
theorem hostReadsHaveNoEffect : Obligations.HostReadsHaveNoEffect := by
  intro s rest
  refine ⟨by decide, by decide, registersHold s, fun r offset hr he => ?_, fun a ha he => ?_⟩
  · have hstep := step_regRead hr he
    split at hstep
    · rename_i hfree
      obtain ⟨hb, hr⟩ : s.seq = .busy ∧ r.readsWhileBusy = false := by simpa [State.busy] using hfree
      refine ⟨_, _, hstep, rfl, ?_⟩
      rintro (h | rfl | rfl)
      · simp [hb] at h
      · simp [Reg.readsWhileBusy] at hr
      · simp [Reg.readsWhileBusy] at hr
    · exact ⟨_, _, hstep, rfl, fun _ => ⟨rfl, rfl⟩⟩
  · have hstep := step_memRead ha he
    split at hstep
    · rename_i hb
      exact ⟨_, _, hstep, rfl, fun h => by simp [State.busy, h] at hb⟩
    · exact ⟨_, _, hstep, rfl, fun _ => ⟨rfl, rfl⟩⟩

/-- Settles O14: every field of the reset state but CODE is written out, and every word of the window is made of them. -/
theorem resetStateValues : Obligations.ResetStateValues := by
  refine ⟨rfl, fun r => ?_, tableGet_replicate 0, rfl, rfl, rfl, rfl⟩
  cases r <;> rfl

end Sys2Proof.Machine
end

section
/-! PROOFS. The limits of the machine's data: what the drawn values, the tree builder, the parser and the code table keep
of 10_state.md R32, R34, R36, R37. -/

namespace Sys2Proof.Machine

/-! ### Drawn values -/

theorem boundedCode_length (c : CodeTable) (v : Byte) : (tableGet (boundedCode c) v).length ≤ maxCodeLen := by
  simp [tableGet, boundedCode]

theorem boundedTree_nodeCount {o : Option HTree} {t : HTree} (h : boundedTree o = some t) : t.nodeCount ≤ maxNodes := by
  cases o with
  | none => simp [boundedTree] at h
  | some u =>
    simp only [boundedTree] at h
    split at h
    · rename_i hn
      cases h
      exact hn
    · simp at h

theorem boundedWriter_acc (w : BitWriter) : (boundedWriter w).acc.toNat < 2 ^ (boundedWriter w).nbits.val := by
  have hmod : w.acc.toNat % 2 ^ w.nbits.val < 2 ^ w.nbits.val := Nat.mod_lt _ (Nat.two_pow_pos _)
  exact Nat.lt_of_le_of_lt (Nat.mod_le _ _) hmod

theorem boundedReader_pos (r : BitReader) : (boundedReader r).pos ≤ (boundedReader r).len := by
  unfold boundedReader
  split
  · assumption
  · exact BitVec.le_refl _

/-! ### Trees and code tables -/

theorem treeOk_iff (s : State) : s.treeOk ↔ ∀ t, s.tree = some t → t.nodeCount ≤ maxNodes := by
  unfold State.treeOk State.treeNodes
  cases s.tree <;> simp

/-- The tree of any frequency table has at most 511 nodes (41_tree_builder.md R131, R137). -/
theorem buildTree_nodeCount (f : FreqTable) : (buildTree f).nodeCount ≤ maxNodes := by
  match h : freqSymbols f with
  | [] => simp [buildTree, h, HTree.nodeCount, maxNodes]
  | [v] => simp [buildTree, h, HTree.nodeCount, freqLeaf, dummyLeaf, maxNodes]
  | v :: u :: vs =>
    have hcount := (buildTree_many f v u vs h).2.2.1
    have hlen := freqSymbols_length f
    unfold maxNodes
    omega

/-- A parsed tree has at most 511 nodes (42_tree_serializer.md R160). -/
theorem parseTree_nodeCount {bs : List Byte} {t : HTree} (h : parseTree bs = some t) : t.nodeCount ≤ maxNodes := by
  unfold parseTree at h
  split at h
  · rename_i u c hu
    cases h
    obtain ⟨-, hc, hmax, -⟩ := parseNode_sound _ _ _ _ _ _ hu
    omega
  · simp at h

/-- The tree step 3 of DECOMPRESS reads has at most 511 nodes. -/
theorem readTree_nodeCount {s : State} {a n pos k : Nat} {t : HTree} (h : readTree s a n pos = some (t, k)) :
    t.nodeCount ≤ maxNodes := by
  unfold readTree at h
  split at h
  · simp at h
  · simp only at h
    split at h
    · simp at h
    · split at h
      · simp at h
      · rename_i u hu
        cases h
        exact parseTree_nodeCount hu

/-- The codes of a tree of at most 511 nodes are at most 255 bits long (41_tree_builder.md R131). -/
theorem genCode_length {t : HTree} (h : t.nodeCount ≤ maxNodes) (v : Byte) :
    (tableGet (genCode t) v).length ≤ maxCodeLen := by
  cases t with
  | leaf u w =>
    rw [genCode, tableGet_tableSet]
    split <;> simp [emptyCode, maxCodeLen]
  | node w l r =>
    by_cases hv : v ∈ (HTree.node w l r).values
    · have hpath := HTree.paths_length _ (genCode_path w l r hv)
      unfold maxNodes at h
      unfold maxCodeLen
      omega
    · have hnone : (HTree.node w l r).paths.filter (fun q => q.1 == v) = [] := by
        refine List.filter_eq_nil_iff.mpr fun q hq => ?_
        have hmem : q.1 ∈ (HTree.node w l r).values := HTree.paths_values _ ▸ List.mem_map_of_mem hq
        simpa using fun e : q.1 = v => hv (e ▸ hmem)
      simp [genCode, tableGet_walkCode, hnone, emptyCode]

/-! ### Command words -/

theorem formatN_opcode {imm : Byte} {i j : Instr} (h : formatN imm i = .ok j) : j.opcode = i.opcode := by
  unfold formatN at h
  split at h <;> cases h
  rfl

theorem formatB_opcode {imm : Byte} {i : Byte → Instr} {j : Instr} (h : formatB imm i = .ok j) :
    j.opcode = (i imm).opcode := by
  unfold formatB at h
  split at h <;> cases h
  rfl

theorem formatI_opcode {imm : Byte} {i : Byte → Instr} {j : Instr} (h : formatI imm i = .ok j) :
    j.opcode = (i imm).opcode := by
  cases h
  rfl

/-- One line of the opcode map: its command has the opcode the line asks for. -/
theorem opcode_of_branch {op o : Byte} {r r' : Except IllegalWord Instr} {i : Instr}
    (hr : r = .ok i → i.opcode = o) (hr' : r' = .ok i → i.opcode = op)
    (h : (if op = o then r else r') = .ok i) : i.opcode = op := by
  split at h
  · rename_i hop
    rw [hr h, hop]
  · exact hr' h

/-- The opcode map, line by line in its order (30_encoding.md R84). -/
theorem decodeOp_opcode {op imm : Byte} {i : Instr} : decodeOp op imm = .ok i → i.opcode = op :=
  opcode_of_branch formatN_opcode <| opcode_of_branch formatN_opcode <| opcode_of_branch formatB_opcode <|
  opcode_of_branch formatI_opcode <| opcode_of_branch formatN_opcode <| opcode_of_branch formatN_opcode <|
  opcode_of_branch formatN_opcode <| opcode_of_branch formatN_opcode <| opcode_of_branch formatN_opcode <|
  opcode_of_branch formatN_opcode <| opcode_of_branch formatN_opcode <| opcode_of_branch formatI_opcode <|
  opcode_of_branch formatN_opcode <| opcode_of_branch formatN_opcode <| opcode_of_branch formatI_opcode <|
  opcode_of_branch formatN_opcode <| opcode_of_branch formatN_opcode <| opcode_of_branch formatN_opcode <|
  opcode_of_branch formatN_opcode <| opcode_of_branch formatN_opcode <|
  fun h => nomatch h

/-- The command a word decodes to has the word's OP field as its opcode. -/
theorem decode_opcode {w : Word} {i : Instr} (h : decode w = .ok i) : i.opcode = opField w := by
  unfold decode at h
  split at h
  · exact decodeOp_opcode h
  · cases h

end Sys2Proof.Machine
end

section
/-! PROOFS. What every command keeps: the limits of the data and CODE's agreement with TREE, through each of the
operations commands are made of; and that every command ends by `complete` or by raising an error. -/

namespace Sys2Proof.Machine

/-! ### The relation -/

/-- The limits of the machine's data: all of `State.Inv` but STATUS. -/
structure State.DataOk (s : State) : Prop where
  mem : s.memOk
  tree : s.treeOk
  code : s.codeOk
  writer : s.writerOk
  reader : s.readerOk

/-- What a command keeps on its way from `s` to `u`, before it reports in STATUS. -/
structure Kept (s u : State) : Prop where
  params : u.params = s.params
  cmd : u.cmd = s.cmd
  disturbed : u.disturbed = s.disturbed
  data : s.DataOk → u.DataOk
  derived : s.codeDerived → u.codeDerived

theorem Kept.refl (s : State) : Kept s s := ⟨rfl, rfl, rfl, id, id⟩

theorem Kept.trans {s t u : State} (h : Kept s t) (k : Kept t u) : Kept s u :=
  ⟨k.params.trans h.params, k.cmd.trans h.cmd, k.disturbed.trans h.disturbed, fun d => k.data (h.data d),
    fun c => k.derived (h.derived c)⟩

/-- A change that leaves TREE, CODE and CODE_VALID alone. -/
theorem Kept.of_tables {s u : State} (params : u.params = s.params) (cmd : u.cmd = s.cmd)
    (disturbed : u.disturbed = s.disturbed) (tree : u.tree = s.tree) (code : u.code = s.code)
    (codeValid : u.codeValid = s.codeValid) (mem : s.memOk → u.memOk) (writer : s.writerOk → u.writerOk)
    (reader : s.readerOk → u.readerOk) : Kept s u where
  params := params
  cmd := cmd
  disturbed := disturbed
  data d := by
    refine ⟨mem d.mem, ?_, ?_, writer d.writer, reader d.reader⟩
    · rw [treeOk_iff, tree, ← treeOk_iff]
      exact d.tree
    · unfold State.codeOk
      rw [code]
      exact d.code
  derived c := by
    unfold State.codeDerived
    rw [tree, code, codeValid]
    exact c

/-- A change that leaves all the limits speak of alone. -/
theorem Kept.of_fields {s u : State} (params : u.params = s.params) (cmd : u.cmd = s.cmd)
    (disturbed : u.disturbed = s.disturbed) (tree : u.tree = s.tree) (code : u.code = s.code)
    (codeValid : u.codeValid = s.codeValid) (mem : u.mem = s.mem) (bw : u.bw = s.bw) (br : u.br = s.br) : Kept s u :=
  .of_tables params cmd disturbed tree code codeValid (by simp only [State.memOk, mem, params, imp_self])
    (by simp only [State.writerOk, bw, imp_self]) (by simp only [State.readerOk, br, imp_self])

/-- The registers a command reports in. -/
theorem registers_kept {s : State} {typ nameAddr plenLo plenHi crc resultLo resultHi : Word} {nameLen : BitVec 16}
    {pad : Byte} :
    Kept s { s with typ, nameAddr, nameLen, plenLo, plenHi, crc, pad, resultLo, resultHi } :=
  .of_fields rfl rfl rfl rfl rfl rfl rfl rfl rfl

theorem freq_kept {s : State} {f : FreqTable} : Kept s { s with freq := f } :=
  .of_fields rfl rfl rfl rfl rfl rfl rfl rfl rfl

theorem Params.memBytes_le (p : Params) : p.memBytes ≤ 2 ^ 32 := p.memTop.isLt

/-! ### MEM -/

theorem memWrite_kept (s : State) {a : Nat} {bs : List Byte} (h : s.fitsMem a bs.length) : Kept s (memWrite s a bs) := by
  have hframe := memWrite_eq s a bs
  refine .of_tables (by rw [hframe]) (by rw [hframe]) (by rw [hframe]) (by rw [hframe]) (by rw [hframe])
    (by rw [hframe]) (fun ⟨hw, hi⟩ => ?_) (fun w => ?_) (fun r => ?_)
  · refine ⟨memWrite_wf hw a bs, ?_⟩
    rw [show (memWrite s a bs).params = s.params by rw [hframe]]
    exact memWrite_within hi h
  · rw [hframe]; exact w
  · rw [hframe]; exact r

theorem freeRegion_kept (s : State) (r : Region) : Kept s (s.freeRegion r) :=
  .of_tables rfl rfl rfl rfl rfl rfl (fun ⟨hw, hi⟩ => State.memOk_freeRegion r hw hi) id id

/-! ### The bit writer -/

theorem openWriter_kept (base cap : Word) (s : State) : Kept s (openWriter base cap s) :=
  .of_tables rfl rfl rfl rfl rfl rfl id (fun _ => Nat.one_pos) id

/-- Bits put where the writer's sink has room and exists. -/
theorem putBits_kept (bits : Bits) {s : State} (hfits : s.bw.fits bits.length = true)
    (hsink : s.fitsMem s.bw.base.toNat s.bw.cap.toNat) : Kept s (putBits bits s) := by
  have hroom : s.bw.bytes.toNat + (s.bw.nbits.val + bits.length) / 8 ≤ s.bw.cap.toNat := by
    simpa [BitWriter.fits] using hfits
  have hput := putBits_effect bits s (by have := s.bw.cap.isLt; omega)
  have hcount := hput.count
  have hbits := (putBits bits s).bw.nbits.isLt
  unfold State.fitsMem at hsink
  have hframe := hput.frame
  refine .of_tables (by rw [hframe]) (by rw [hframe]) (by rw [hframe]) (by rw [hframe]) (by rw [hframe])
    (by rw [hframe]) (fun ⟨hw, hi⟩ => ⟨hput.wf hw, ?_⟩) hput.writerOk (fun r => by rw [hframe]; exact r)
  rw [show (putBits bits s).params = s.params by rw [hframe]]
  exact hput.within _ hi (by omega)

/-- Finalization where the writer's sink has room and exists. -/
theorem flushWriter_kept {s : State} (hfits : s.bw.flushFits = true)
    (hsink : s.fitsMem s.bw.base.toNat s.bw.cap.toNat) : Kept s (flushWriter s) := by
  unfold flushWriter
  split
  · exact .of_tables rfl rfl rfl rfl rfl rfl id (fun _ => Nat.one_pos) id
  · rename_i hpend
    have hroom : s.bw.bytes.toNat < s.bw.cap.toNat := by simpa [BitWriter.flushFits, hpend] using hfits
    have haddr : s.bw.next < s.params.memBytes := by
      unfold State.fitsMem at hsink
      unfold BitWriter.next
      omega
    exact .of_tables rfl rfl rfl rfl rfl rfl
      (fun ⟨hw, hi⟩ => ⟨Memory.wf_insert hw _ _, Memory.within_insert _ haddr hi⟩) (fun _ => Nat.one_pos) id

/-- encode_into a destination that exists and has room for the packed codes and the pad count. -/
theorem encodeInto_kept {src n dst cap : Nat} {s : State} (hfit : s.fitsMem dst cap) (hcap : cap < 2 ^ 32)
    (hroom : ceil8 (codeBitCount s.code (memRead s src n)) + 1 ≤ cap) : Kept s (encodeInto src n dst cap s).2 := by
  rw [codeBitCount_eq] at hroom
  unfold State.fitsMem at hfit
  have hmem := s.params.memBytes_le
  obtain ⟨-, henc⟩ := encodeInto_effect src n dst cap s _ rfl (by omega) hroom hcap
  have hframe := henc.frame
  refine .of_tables (by rw [hframe]) (by rw [hframe]) (by rw [hframe]) (by rw [hframe]) (by rw [hframe])
    (by rw [hframe]) (fun ⟨hw, hi⟩ => ⟨henc.wf hw, ?_⟩) (fun _ => by rw [hframe]; exact Nat.one_pos)
    (fun r => by rw [hframe]; exact r)
  rw [show (encodeInto src n dst cap s).2.params = s.params by rw [hframe]]
  exact henc.within _ hi (by omega)

/-! ### The bit reader -/

theorem openReader_kept (base len : Word) (s : State) : Kept s (openReader base len s) :=
  .of_tables rfl rfl rfl rfl rfl rfl id id fun _ => Nat.zero_le len.toNat

theorem freeBr_kept (s : State) : Kept s s.freeBr :=
  .of_tables rfl rfl rfl rfl rfl rfl id id fun _ => boundedReader_pos _

theorem freeDecoded_kept (s : State) : Kept s (freeDecoded s) := (freeRegion_kept s _).trans (freeBr_kept _)

theorem getBit_kept {s t : State} {b : Bool} (h : getBit s = some (b, t)) : Kept s t := by
  rcases getBit_spec s with ⟨hnone, -⟩ | ⟨c, u, -, hsome, -, -, hok, -, hframe⟩
  · rw [hnone] at h; cases h
  · rw [hsome] at h
    cases h
    exact .of_tables (by rw [hframe]) (by rw [hframe]) (by rw [hframe]) (by rw [hframe]) (by rw [hframe])
      (by rw [hframe]) (fun m => by rw [hframe]; exact m) (fun w => by rw [hframe]; exact w) (fun _ => hok)

/-- decode_into a destination that exists, from a source that exists apart from it. -/
theorem decodeInto_kept {tr : HTree} {src len dst n : Nat} {s t : State} {p : Byte}
    (h : decodeInto tr src len dst n s = some (p, t)) (hlen : 1 ≤ len) (hsrc : s.fitsMem src len)
    (hdst : s.fitsMem dst n) (ha : apart src len dst n) : Kept s t := by
  unfold State.fitsMem at hsrc hdst
  have hmem := s.params.memBytes_le
  rcases decodeInto_spec tr src len dst n s hlen (by omega) ha with ⟨hnone, -⟩ |
    ⟨vs, -, u, hsome, -, hvs, hstore, hok, -, hframe⟩
  · rw [hnone] at h; cases h
  · rw [hsome] at h
    cases h
    refine .of_tables (by rw [hframe]) (by rw [hframe]) (by rw [hframe]) (by rw [hframe]) (by rw [hframe])
      (by rw [hframe]) (fun ⟨hw, hi⟩ => ?_) (fun w => by rw [hframe]; exact w) (fun _ => hok)
    unfold State.memOk
    rw [show t.params = s.params by rw [hframe], hstore]
    exact ⟨memWrite_wf hw dst vs, memWrite_within hi (by omega)⟩

/-! ### TREE and CODE -/

theorem setTree_kept (s : State) {o : Option HTree} (h : ∀ t, o = some t → t.nodeCount ≤ maxNodes) :
    Kept s (s.setTree o) where
  params := rfl
  cmd := rfl
  disturbed := rfl
  data d := ⟨d.mem, (treeOk_iff _).mpr h, boundedCode_length _, d.writer, d.reader⟩
  derived _ hvalid := by simp at hvalid

theorem setCode_kept {s : State} {t : HTree} (h : s.tree = some t) : Kept s (s.setCode t) where
  params := rfl
  cmd := rfl
  disturbed := rfl
  data d := ⟨d.mem, d.tree, genCode_length ((treeOk_iff s).mp d.tree t h), d.writer, d.reader⟩
  derived _ _ := ⟨t, h, rfl⟩

theorem compressTables_kept (p : List Byte) (s : State) : Kept s (compressTables p s) := by
  refine (freq_kept.trans (setTree_kept _ fun t ht => ?_)).trans (setCode_kept (by rfl))
  cases ht
  exact buildTree_nodeCount _

/-! ### How a command ends -/

/-- The answer of a command with opcode `op` from `s`: what it kept, and then `complete` or an error. -/
inductive Ends (op : Byte) (s : State) : Result → Prop
  | completes (u : State) (k : Word) : Kept s u → Ends op s (complete op k u)
  | raises (u : State) (e : ErrorCode) : Kept s u → e ≠ .noError → Ends op s (raiseError op e u)

/-- An error raised from the state as it is. -/
theorem Ends.error {op : Byte} {s : State} {e : ErrorCode} (he : e ≠ .noError := by decide) :
    Ends op s (raiseError op e s) :=
  .raises s e (.refl s) he

/-- One of a command's checks: it raises its error from the state as it is, or the command goes on. -/
theorem Ends.check {op : Byte} {s : State} {c : Prop} [Decidable c] {e : ErrorCode} {r : Result}
    (h : ¬ c → Ends op s r) (he : e ≠ .noError := by decide) : Ends op s (if c then raiseError op e s else r) := by
  split
  · exact .error he
  · exact h ‹_›

/-- What a command makes of the state before its last part is kept when the last part keeps it. -/
theorem Ends.after {op : Byte} {s t : State} {r : Result} (h : Kept s t) (hr : Ends op t r) : Ends op s r := by
  cases hr with
  | completes u k hu => exact .completes u k (h.trans hu)
  | raises u e hu he => exact .raises u e (h.trans hu) he

end Sys2Proof.Machine
end

section
/-! PROOFS. Every command keeps the limits and ends by `complete` or by an error: one lemma for each command, in the order
of its checks, and the same of `exec`. -/

namespace Sys2Proof.Machine

/-! ### The regions a command has checked -/

/-- The write region of a command that passed its region check exists (20_memory.md R64). -/
theorem regionsOk_write {i : Instr} {w : Region} {s : State} (hi : writeRegion i s = some w)
    (h : ¬ (!regionsOk i s) = true) : s.fitsMem w.addr w.len := by
  rw [Bool.not_eq_true', Bool.not_eq_false, regionsOk, hi] at h
  exact regionsFit_write h

/-- A part of a region that exists, from its first byte on, exists. -/
theorem State.fitsMem.shrink {s : State} {a n k : Nat} (h : s.fitsMem a n) (hk : k ≤ n) : s.fitsMem a k :=
  Nat.le_trans (Nat.add_le_add_left hk a) h

section
variable (s : State)

/-! ### The bit codec -/

theorem execNop_ends : Ends Op.nop s (execNop s) := .completes s 0 (.refl s)

theorem execBwInit_ends : Ends Op.bwInit s (execBwInit s) := by
  unfold execBwInit
  split
  · exact .completes _ _ (openWriter_kept _ _ s)
  · exact .error

theorem execBwPutBit_ends (imm : Byte) : Ends Op.bwPutBit s (execBwPutBit imm s) := by
  refine .check fun _ => .check fun _ => .check fun hfits => .check fun hok => ?_
  exact .completes _ _ (putBits_kept [immBit imm] (by simpa using hfits) (regionsOk_write rfl hok))

theorem execBwPutSymbol_ends (imm : Byte) : Ends Op.bwPutSymbol s (execBwPutSymbol imm s) := by
  refine .check fun _ => .check fun _ => .check fun _ => .check fun hfits => .check fun hok => ?_
  exact .completes _ _ (putBits_kept _ (by simpa using hfits) (regionsOk_write rfl hok))

theorem execBwFinalize_ends : Ends Op.bwFinalize s (execBwFinalize s) := by
  refine .check fun _ => .check fun hfits => .check fun hok => ?_
  have hflush := flushWriter_kept (by simpa using hfits) (regionsOk_write (w := s.sinkRegion) rfl hok)
  exact .completes _ _ (hflush.trans registers_kept)

theorem execBrInit_ends : Ends Op.brInit s (execBrInit s) := by
  unfold execBrInit
  split
  · exact .completes _ _ (openReader_kept _ _ s)
  · exact .error

theorem execBrGetBit_ends : Ends Op.brGetBit s (execBrGetBit s) := by
  refine .check fun _ => .check fun _ => ?_
  split
  · exact .error
  · rename_i hbit
    exact .completes _ _ ((getBit_kept hbit).trans registers_kept)

theorem execEncodePayload_ends : Ends Op.encodePayload s (execEncodePayload s) := by
  refine .check fun _ => .check fun hok => .check fun _ => .check fun hroom => ?_
  have hdst := regionsOk_write (w := s.dstRegion) rfl hok
  exact .completes _ _ (encodeInto_kept hdst s.dstCap.isLt (Nat.le_of_not_lt hroom))

theorem execDecodePayload_ends : Ends Op.decodePayload s (execDecodePayload s) := by
  unfold execDecodePayload
  split
  · exact .error
  refine .check fun hok => .check fun hlen => .check fun hcap => ?_
  have hok : regionsOk .decodePayload s = true := by simpa using hok
  obtain ⟨hsrc, hdst, hapart⟩ := (regionsFit_one s s.srcRegion s.dstRegion).mp hok
  have hcap : s.plen ≤ s.dstCap.toNat := Nat.le_of_not_lt hcap
  split
  · exact .raises _ _ (freeDecoded_kept s) (by decide)
  · rename_i hdec
    have hkept := decodeInto_kept hdec (by omega) hsrc (hdst.shrink hcap) (apart_shrink hapart hcap)
    exact .completes _ _ (hkept.trans registers_kept)

/-! ### The tree builder -/

theorem execFreqClear_ends : Ends Op.freqClear s (execFreqClear s) :=
  .completes _ _ freq_kept

theorem execFreqCount_ends : Ends Op.freqCount s (execFreqCount s) := by
  unfold execFreqCount
  split
  · exact .completes _ _ freq_kept
  · exact .error

theorem execFreqRead_ends (imm : Byte) : Ends Op.freqRead s (execFreqRead imm s) :=
  .completes _ _ registers_kept

theorem execTreeBuild_ends : Ends Op.treeBuild s (execTreeBuild s) := by
  refine .completes _ _ (setTree_kept s fun t ht => ?_)
  cases ht
  exact buildTree_nodeCount _

theorem execCodeGen_ends : Ends Op.codeGen s (execCodeGen s) := by
  unfold execCodeGen
  split
  · exact .error
  · rename_i ht
    exact .completes _ _ (setCode_kept ht)

theorem execCodeRead_ends (imm : Byte) : Ends Op.codeRead s (execCodeRead imm s) := by
  refine .check fun _ => .check fun hok => .check fun hcap => ?_
  have hlen : (packBits (tableGet s.code (immByte imm))).length ≤ s.dstCap.toNat := by
    simpa [packBits] using Nat.le_of_not_lt hcap
  have hwrite := memWrite_kept s ((regionsOk_write (w := s.dstRegion) rfl hok).shrink hlen)
  exact .completes _ _ (hwrite.trans registers_kept)

/-! ### The tree serializer -/

theorem execTreeSerialize_ends : Ends Op.treeSerialize s (execTreeSerialize s) := by
  unfold execTreeSerialize
  split
  · exact .error
  refine .check fun hok => .check fun hcap => ?_
  exact .completes _ _
    (memWrite_kept s ((regionsOk_write (w := s.dstRegion) rfl hok).shrink (Nat.le_of_not_lt hcap)))

theorem execTreeDeserialize_ends : Ends Op.treeDeserialize s (execTreeDeserialize s) := by
  refine .check fun _ => ?_
  split
  · exact .raises _ _ (setTree_kept s (by simp)) (by decide)
  · rename_i t ht
    refine .completes _ _ (setTree_kept s fun u hu => ?_)
    cases hu
    exact parseTree_nodeCount ht

/-! ### CRC32 and COMPRESS -/

theorem execCrc32_ends : Ends Op.crc32 s (execCrc32 s) := by
  unfold execCrc32
  split
  · exact .completes _ _ registers_kept
  · exact .error

theorem containerHead_length (magic : List Byte) (typ : Nat) (name version : List Byte) (n checksum : Nat)
    (tree : HTree) :
    (containerHead magic typ name version n checksum tree).length =
      magic.length + 4 + 2 + name.length + version.length + 8 + 4 + 4 + treeSize tree := by
  simp [containerHead, treeSize]
  omega

section
variable {s} {d n l : Nat} {tree : HTree} {c : Word} (ha : apart s.nameAddr.toNat l d 10)
include ha

/-- The header of a container and its tree are a MemWrite of `28 + L + T` bytes. -/
theorem writeHeader_memWrite :
    ∃ bs, bs.length = 28 + l + treeSize tree ∧ writeHeader d n l tree c s = memWrite s d bs := by
  refine ⟨_, ?_, writeHeader_eq d n l tree c s ha⟩
  rw [containerHead_length]
  simp
  omega

theorem writeHeader_kept (hfit : s.fitsMem d (28 + l + treeSize tree)) : Kept s (writeHeader d n l tree c s) := by
  obtain ⟨bs, hlen, heq⟩ := writeHeader_memWrite (n := n) (tree := tree) (c := c) ha
  rw [heq]
  exact memWrite_kept s (hlen ▸ hfit)

theorem writeHeader_frame : writeHeader d n l tree c s = { s with mem := (writeHeader d n l tree c s).mem } := by
  obtain ⟨bs, -, heq⟩ := writeHeader_memWrite (n := n) (tree := tree) (c := c) ha
  rw [heq]
  exact memWrite_eq s d bs

theorem memRead_writeHeader {a k : Nat} (hapart : apart a k d (28 + l + treeSize tree)) :
    memRead (writeHeader d n l tree c s) a k = memRead s a k := by
  obtain ⟨bs, hlen, heq⟩ := writeHeader_memWrite (n := n) (tree := tree) (c := c) ha
  rw [heq]
  by_cases hk : k = 0
  · subst hk
    rfl
  · exact memRead_memWrite_apart s (by unfold apart at hapart; omega)

end

theorem compressTables_code (p : List Byte) (s : State) :
    (compressTables p s).code = genCode (buildTree (countBytes clearedFreq p)) := rfl

theorem memRead_compressTables (p : List Byte) (s : State) (a n : Nat) :
    memRead (compressTables p s) a n = memRead s a n :=
  memRead_of_mem (by rfl) (by rfl) a n

/-- Steps 3 to 5 of COMPRESS, into a destination with room for the container (43_container.md R178). -/
theorem writeContainer_kept {n d l cap : Nat} {tree : HTree} {c : Word} {p : List Byte} {s : State}
    (hp : memRead s s.srcAddr.toNat n = p) (hname : apart s.nameAddr.toNat l d cap)
    (hsrc : apart s.srcAddr.toNat n d cap) (hdst : s.fitsMem d cap) (hcap : cap < 2 ^ 32)
    (hroom : containerSize l (treeSize tree) (ceil8 (codeBitCount s.code p)) ≤ cap) :
    Kept s (encodeInto (writeHeader d n l tree c s).srcAddr.toNat n (d + 28 + l + treeSize tree)
      (ceil8 (codeBitCount s.code p) + 1) (writeHeader d n l tree c s)).2 := by
  unfold containerSize at hroom
  have ha : apart s.nameAddr.toNat l d 10 := apart_shrink hname (by omega)
  have hhead : Kept s (writeHeader d n l tree c s) := writeHeader_kept ha (hdst.shrink (by omega))
  have hcode : (writeHeader d n l tree c s).code = s.code := by rw [writeHeader_frame ha]
  have hread : memRead (writeHeader d n l tree c s) (writeHeader d n l tree c s).srcAddr.toNat n = p := by
    rw [show (writeHeader d n l tree c s).srcAddr = s.srcAddr by rw [writeHeader_frame ha],
      memRead_writeHeader ha (apart_shrink hsrc (by omega)), hp]
  refine hhead.trans (encodeInto_kept ?_ (by omega) (by rw [hcode, hread]))
  unfold State.fitsMem at hdst ⊢
  rw [hhead.params]
  omega

theorem execCompress_ends : Ends Op.compress s (execCompress s) := by
  refine .check fun hok => .check fun _ => ?_
  have hok : regionsOk .compress s = true := by simpa using hok
  obtain ⟨-, -, hdst, hsrc, hname⟩ := (regionsFit_two s s.srcRegion s.nameRegion s.dstRegion).mp hok
  have hread := memRead_compressTables (memRead s s.srcAddr.toNat s.srcLen.toNat) s s.srcAddr.toNat s.srcLen.toNat
  have htables := compressTables_kept (memRead s s.srcAddr.toNat s.srcLen.toNat) s
  simp only
  generalize memRead s s.srcAddr.toNat s.srcLen.toNat = p at *
  split
  · exact .raises _ _ htables (by decide)
  · rename_i hroom
    have hwrite := writeContainer_kept (d := (compressTables p s).dstAddr.toNat) (c := crc32 p) (s := compressTables p s)
      hread hname hsrc hdst s.dstCap.isLt (Nat.le_of_not_lt hroom)
    rw [compressTables_code] at hwrite
    exact .completes _ _ ((htables.trans hwrite).trans registers_kept)

/-! ### DECOMPRESS -/

theorem decompressPayload_ends {h : Header} {tree : HTree} {a n pos : Nat} {s : State} (hsrc : s.fitsMem a n)
    (hdst : s.fitsMem s.dstAddr.toNat s.dstCap.toNat) (ha : apart a n s.dstAddr.toNat s.dstCap.toNat) :
    Ends Op.decompress s (decompressPayload h tree a n pos s) := by
  refine .check fun hleft => .check fun hcap => ?_
  have hcap : h.plen ≤ s.dstCap.toNat := Nat.le_of_not_lt hcap
  split
  · exact .raises _ _ (freeDecoded_kept s) (by decide)
  · rename_i p t hdec
    have hpart : s.fitsMem (a + pos) (n - pos) := by
      unfold State.fitsMem at hsrc ⊢
      omega
    have hapart : apart (a + pos) (n - pos) s.dstAddr.toNat h.plen := by
      have := apart_shrink ha hcap
      unfold apart at this ⊢
      omega
    have hkept := decodeInto_kept hdec (by omega) hpart (hdst.shrink hcap) hapart
    split
    · exact .raises _ _ (freeDecoded_kept s) (by decide)
    split
    · exact .raises _ _ (freeDecoded_kept s) (by decide)
    · exact .completes _ _ (hkept.trans registers_kept)

theorem takeBytes_error_eq {s : State} {a n pos k : Nat} {e e' : ErrorCode}
    (h : takeBytes s a n pos k e = .error e') : e' = e := by
  unfold takeBytes at h
  split at h <;> cases h
  rfl

/-- What steps 1 and 2 of DECOMPRESS raise is an error (43_container.md R193). -/
theorem readHeader_error {s : State} {a n : Nat} {e : ErrorCode} (h : readHeader s a n = .error e) :
    e = .formatError ∨ e = .ioError := by
  simp only [readHeader] at h
  split at h
  · cases h
    exact .inl (takeBytes_error_eq ‹_›)
  split at h
  · cases h
    exact .inl rfl
  iterate 6
    split at h
    · cases h
      exact .inr (takeBytes_error_eq ‹_›)
  cases h

theorem execDecompress_ends : Ends Op.decompress s (execDecompress s) := by
  refine .check fun hok => ?_
  have hok : regionsOk .decompress s = true := by simpa using hok
  obtain ⟨hsrc, hdst, hapart⟩ := (regionsFit_one s s.srcRegion s.dstRegion).mp hok
  split
  · rename_i he
    exact .error (by rcases readHeader_error he with rfl | rfl <;> decide)
  split
  · exact .raises _ _ (setTree_kept s (by simp)) (by decide)
  · rename_i tree pos htree
    have hkept : Kept s (s.setTree (some tree)) := setTree_kept s fun u hu => by
      cases hu
      exact readTree_nodeCount htree
    exact .after hkept (decompressPayload_ends hsrc hdst hapart)

end

/-! ### All commands -/

/-- Every command, from every state, keeps the limits and ends (60_exceptions.md R205, R206). -/
theorem exec_ends (i : Instr) (s : State) : Ends i.opcode s (exec i s) := by
  cases i with
  | nop => exact execNop_ends s
  | bwInit => exact execBwInit_ends s
  | bwPutBit imm => exact execBwPutBit_ends s imm
  | bwPutSymbol imm => exact execBwPutSymbol_ends s imm
  | bwFinalize => exact execBwFinalize_ends s
  | brInit => exact execBrInit_ends s
  | brGetBit => exact execBrGetBit_ends s
  | encodePayload => exact execEncodePayload_ends s
  | decodePayload => exact execDecodePayload_ends s
  | freqClear => exact execFreqClear_ends s
  | freqCount => exact execFreqCount_ends s
  | freqRead imm => exact execFreqRead_ends s imm
  | treeBuild => exact execTreeBuild_ends s
  | codeGen => exact execCodeGen_ends s
  | codeRead imm => exact execCodeRead_ends s imm
  | treeSerialize => exact execTreeSerialize_ends s
  | treeDeserialize => exact execTreeDeserialize_ends s
  | crc32 => exact execCrc32_ends s
  | compress => exact execCompress_ends s
  | decompress => exact execDecompress_ends s

end Sys2Proof.Machine
end

section
/-! PROOFS. The invariant: what one step can do, said once, and that each of these moves keeps `State.Inv` and CODE's
agreement with TREE (10_state.md R28, R32, R34 to R37). -/

namespace Sys2Proof.Machine

/-! ### What one step can do -/

/-- The moves of the two agents, from `s` (10_state.md R20). -/
inductive Moved (s : State) : State → Prop
  /-- A read, an ignored write, the host's own moves, the sequencer at rest. -/
  | quiet (es : List Event) (sn : List Seen) (d : Nat) : Moved s { s with events := es, seen := sn, draws := d }
  /-- A register write while IDLE, to another register than CMD. -/
  | argument (es : List Event) (r : Reg) (v : Word) : r ≠ .cmd → Moved s (writeReg { s with events := es } r v)
  /-- A CMD write while IDLE. -/
  | started (es : List Event) (w : Word) : Moved s (State.startCommand { s with events := es } w)
  /-- A host MEM write. -/
  | stored (es : List Event) (a : Nat) (b : Byte) : a < s.params.memBytes →
      Moved s { s.writeByte a b with events := es, disturbed := s.disturbed || s.busy }
  /-- The reset input. -/
  | reset (es : List Event) : Moved s (resetBlock { s with events := es })
  /-- The sequencer ends the running command. -/
  | ended (es : List Event) (t : State) : runCommand { s with events := es } = .next t → Moved s t

/-- A move does not depend on the events that were left before it. -/
theorem Moved.of_events {s t : State} {es : List Event} (h : Moved { s with events := es } t) : Moved s t := by
  cases h with
  | quiet es sn d => exact .quiet es sn d
  | argument es r v hr => exact .argument es r v hr
  | started es w => exact .started es w
  | stored es a b ha => exact .stored es a b ha
  | reset es => exact .reset es
  | ended es t ht => exact .ended es t ht

theorem advance_moved {s t : State} (h : advance s = .next t) : Moved s t := by
  unfold advance at h
  split at h
  · exact .ended s.events t h
  · cases h
    exact .quiet s.events s.seen s.draws

theorem hostRegWrite_moved {s t : State} {width offset : Nat} {v : Word}
    (h : hostRegWrite width offset v s = .next t) : Moved s t := by
  unfold hostRegWrite at h
  split at h
  · cases h
  · rename_i r _
    split at h <;> cases h
    · exact .quiet s.events s.seen s.draws
    · by_cases hr : r = .cmd
      · subst hr
        exact .started s.events v
      · exact .argument s.events r v hr

theorem hostRegRead_moved {s t : State} {width offset : Nat} (h : hostRegRead width offset s = .next t) :
    Moved s t := by
  unfold hostRegRead at h
  split at h
  · cases h
  · split at h <;> cases h
    · exact .quiet s.events _ _
    · exact .quiet s.events _ s.draws

theorem hostMemRead_moved {s t : State} {a : Nat} (h : hostMemRead a s = .next t) : Moved s t := by
  unfold hostMemRead at h
  split at h
  · split at h <;> cases h
    · exact .quiet s.events _ _
    · exact .quiet s.events _ s.draws
  · cases h

theorem hostMemWrite_moved {s t : State} {a : Nat} {b : Byte} (h : hostMemWrite a b s = .next t) : Moved s t := by
  unfold hostMemWrite at h
  split at h <;> cases h
  exact .stored s.events a b ‹_›

theorem hostDecide_moved (r : Reg) (mask value : Word) (n : Nat) (s : State) :
    Moved s (hostDecide r mask value n s) := by
  unfold hostDecide
  split
  · split
    · exact .quiet s.events s.seen s.draws
    · exact .quiet _ s.seen s.draws
  · exact .quiet _ s.seen s.draws

theorem takeEvent_moved {e : Event} {s t : State} (h : takeEvent e s = .next t) : Moved s t := by
  cases e with
  | regWrite width offset v => exact hostRegWrite_moved h
  | regRead width offset => exact hostRegRead_moved h
  | memWrite a b => exact hostMemWrite_moved h
  | memRead a => exact hostMemRead_moved h
  | memWriteWide a lanes => cases h; exact .quiet _ s.seen s.draws
  | memReadWide a n => cases h; exact .quiet _ s.seen s.draws
  | wait =>
    simp only [takeEvent] at h
    split at h
    · exact (advance_moved h).of_events
    · cases h
      exact .quiet s.events _ s.draws
  | ifSeen r mask value n => cases h; exact hostDecide_moved r mask value n s
  | stop => cases h; exact .quiet _ s.seen s.draws
  | reset => cases h; exact .reset s.events
  | sequencer => exact advance_moved h

/-- Every step is one of the moves. -/
theorem step_moved {s t : State} (h : step s = .next t) : Moved s t := by
  unfold step at h
  split at h
  · exact advance_moved h
  · exact (takeEvent_moved h).of_events

/-! ### How a command's run ends -/

theorem Ends.next {op : Byte} {s t : State} {r : Result} (h : Ends op s r) (hr : r = .next t) :
    ∃ u, Kept s u ∧ ((∃ k, t = u.completed op k) ∨ ∃ e, e ≠ .noError ∧ t = u.raised op e) := by
  cases h with
  | completes u k hu => cases hr; exact ⟨u, hu, .inl ⟨k, rfl⟩⟩
  | raises u e hu he => cases hr; exact ⟨u, hu, .inr ⟨e, he, rfl⟩⟩

/-- The word in CMD, legal or not, ends with its own low byte as opcode; a disturbed command ends with free results
(30_encoding.md R85, 70_reset_and_hazards.md R233). -/
theorem runCommand_cases {s t : State} (h : runCommand s = .next t) :
    (s.disturbed = true ∧ ∃ regs regions, t = endDisturbed regs regions s) ∨
      (s.disturbed = false ∧ Ends (opField s.cmd) s (.next t)) := by
  unfold runCommand at h
  split at h
  · rename_i i hi
    split at h
    · cases h
      exact .inl ⟨‹_›, _, _, rfl⟩
    · refine .inr ⟨Bool.eq_false_iff.mpr ‹_›, ?_⟩
      rw [← h, ← decode_opcode hi]
      exact exec_ends i s
  · split at h
    · cases h
      exact .inl ⟨‹_›, _, _, rfl⟩
    · refine .inr ⟨Bool.eq_false_iff.mpr ‹_›, ?_⟩
      rw [← h]
      exact .error

/-! ### The invariant, part by part -/

theorem State.Inv.data {s : State} (h : s.Inv) : s.DataOk := ⟨h.mem, h.tree, h.code, h.writer, h.reader⟩

theorem State.DataOk.inv {s : State} (h : s.DataOk) (hs : s.statusOk) : s.Inv :=
  ⟨h.mem, h.tree, h.code, h.writer, h.reader, hs⟩

/-- What STATUS says of a state rests on five of its fields. -/
theorem State.statusOk.of_fields {s u : State} (h : s.statusOk) (seq : u.seq = s.seq) (status : u.status = s.status)
    (outLen : u.outLen = s.outLen) (cmd : u.cmd = s.cmd) (disturbed : u.disturbed = s.disturbed) : u.statusOk where
  busyClears := by rw [seq, status]; exact h.busyClears
  errAgrees := by rw [status]; exact h.errAgrees
  errEnds := by rw [status, outLen]; exact h.errEnds
  lastOpIsCmd := by rw [status, cmd]; exact h.lastOpIsCmd
  disturbedBusy := by rw [seq, disturbed]; exact h.disturbedBusy

/-- What keeps the limits, CMD and the disturbed mark, and leaves SEQ, STATUS and OUT_LEN alone, keeps the invariant. -/
theorem State.Inv.of_kept {s u : State} (h : s.Inv) (kept : Kept s u) (seq : u.seq = s.seq)
    (status : u.status = s.status) (outLen : u.outLen = s.outLen) : u.Inv :=
  (kept.data h.data).inv (h.status.of_fields seq status outLen kept.cmd kept.disturbed)

/-- The end of a command the host has not disturbed. -/
theorem Ends.inv {s t : State} (h : Ends (opField s.cmd) s (.next t)) (hs : s.DataOk) (hd : s.disturbed = false) :
    t.Inv := by
  obtain ⟨u, hu, ⟨k, rfl⟩ | ⟨e, he, rfl⟩⟩ := h.next rfl
  all_goals
    obtain ⟨hmem, htree, hcode, hwriter, hreader⟩ := hu.data hs
    refine ⟨hmem, htree, hcode, hwriter, hreader, ?_⟩
  · exact ⟨by simp, by simp, by simp, by simp [hu.cmd], by simp [hu.disturbed, hd]⟩
  · exact ⟨by simp, by simp [he], by simp, by simp [hu.cmd], by simp [hu.disturbed, hd]⟩

theorem Ends.codeDerived {op : Byte} {s t : State} (h : Ends op s (.next t)) (hs : s.codeDerived) : t.codeDerived := by
  obtain ⟨u, hu, ⟨k, rfl⟩ | ⟨e, -, rfl⟩⟩ := h.next rfl
  · exact hu.derived hs
  · exact hu.derived hs

/-! ### A disturbed command's end -/

theorem State.freeReg_fields (s : State) (r : Reg) :
    (s.freeReg r).params = s.params ∧ (s.freeReg r).cmd = s.cmd ∧ (s.freeReg r).mem = s.mem := by
  cases r <;> exact ⟨rfl, rfl, rfl⟩

theorem foldl_freeReg_fields (regs : List Reg) (s : State) :
    (regs.foldl State.freeReg s).params = s.params ∧ (regs.foldl State.freeReg s).cmd = s.cmd ∧
      (regs.foldl State.freeReg s).mem = s.mem := by
  induction regs generalizing s with
  | nil => exact ⟨rfl, rfl, rfl⟩
  | cons r regs ih =>
    obtain ⟨hp, hc, hm⟩ := ih (s.freeReg r)
    obtain ⟨hp', hc', hm'⟩ := s.freeReg_fields r
    exact ⟨hp.trans hp', hc.trans hc', hm.trans hm'⟩

theorem State.Inv.freeRegions {s : State} (h : s.Inv) (regions : List Region) :
    (regions.foldl State.freeRegion s).Inv := by
  induction regions generalizing s with
  | nil => exact h
  | cons r regions ih => exact ih (h.of_kept (freeRegion_kept s r) rfl rfl rfl)

/-- The free results of a disturbed command stay within the limits (log 9). -/
theorem endDisturbed_inv {s : State} (h : s.Inv) (regs : List Reg) (regions : List Region) :
    (endDisturbed regs regions s).Inv := by
  obtain ⟨hparams, hcmd, hmem⟩ := foldl_freeReg_fields regs s
  refine State.Inv.freeRegions ⟨?_, ?_, ?_, ?_, ?_, ?_⟩ regions
  · simp only [State.memOk, hparams, hmem]
    exact h.mem
  · exact (treeOk_iff _).mpr fun t ht => boundedTree_nodeCount ht
  · exact boundedCode_length _
  · exact boundedWriter_acc _
  · exact boundedReader_pos _
  · refine ⟨by simp, by simp, fun he => ?_, h.status.lastOpIsCmd.trans (by rw [hcmd]), by simp⟩
    exact ⟨rfl, if_neg (by simpa using he)⟩

/-! ### Reset -/

/-- A state with R40's values is within the limits, whatever the parameters and the drawn CODE. -/
theorem resetValues_inv (p : Params) (c : CodeTable) (memDraw draws : Nat) (es : List Event) (sn : List Seen) :
    State.Inv { State.reset with
      params := p, code := boundedCode c, memDraw := memDraw, draws := draws, events := es, seen := sn } where
  mem := ⟨rfl, rfl⟩
  tree := Nat.zero_le _
  code := boundedCode_length c
  writer := Nat.one_pos
  reader := BitVec.le_refl _
  status := ⟨by simp [State.reset], by simp [State.reset], by simp [State.reset], by rfl, by simp [State.reset]⟩

/-! ### Every move -/

theorem runCommand_inv {s t : State} (hs : s.Inv) (h : runCommand s = .next t) : t.Inv := by
  rcases runCommand_cases h with ⟨-, regs, regions, rfl⟩ | ⟨hd, hends⟩
  · exact endDisturbed_inv hs regs regions
  · exact hends.inv hs.data hd

theorem events_kept (s : State) (es : List Event) (sn : List Seen) (d : Nat) :
    Kept s { s with events := es, seen := sn, draws := d } :=
  .of_fields rfl rfl rfl rfl rfl rfl rfl rfl rfl

theorem writeReg_kept (s : State) {r : Reg} (v : Word) (hr : r ≠ .cmd) : Kept s (writeReg s r v) := by
  rw [writeReg_frame s r v hr]
  exact .of_fields rfl rfl rfl rfl rfl rfl rfl rfl rfl

theorem events_inv {s : State} (h : s.Inv) (es : List Event) (sn : List Seen) (d : Nat) :
    State.Inv { s with events := es, seen := sn, draws := d } :=
  h.of_kept (events_kept s es sn d) rfl rfl rfl

theorem Moved.inv {s t : State} (hs : s.Inv) (h : Moved s t) : t.Inv := by
  cases h with
  | quiet es sn d => exact events_inv hs es sn d
  | argument es r v hr =>
    have hframe := writeReg_frame { s with events := es } r v hr
    exact (events_inv hs es s.seen s.draws).of_kept (writeReg_kept _ v hr) (by rw [hframe]) (by rw [hframe])
      (by rw [hframe])
  | started es w =>
    exact ⟨hs.mem, hs.tree, hs.code, hs.writer, hs.reader, by simp, by simp, by simp, by simp, by simp⟩
  | stored es a b ha =>
    refine ⟨⟨Memory.wf_insert hs.mem.1 a b, Memory.within_insert b ha hs.mem.2⟩, hs.tree, hs.code, hs.writer, hs.reader,
      hs.status.busyClears, hs.status.errAgrees, hs.status.errEnds, hs.status.lastOpIsCmd, fun hd => ?_⟩
    rcases Bool.or_eq_true_iff.mp hd with hd | hb
    · exact hs.status.disturbedBusy hd
    · exact eq_of_beq hb
  | reset es => exact resetValues_inv _ _ _ _ _ _
  | ended es t ht => exact runCommand_inv (events_inv hs es s.seen s.draws) ht

theorem Moved.codeDerived {s t : State} (hd : s.disturbed = false) (hs : s.codeDerived) (h : Moved s t) :
    t.codeDerived := by
  cases h with
  | quiet es sn d => exact hs
  | argument es r v hr => exact (writeReg_kept _ v hr).derived hs
  | started es w => exact hs
  | stored es a b ha => exact hs
  | reset es => exact fun hvalid => by simp [resetBlock, State.reset] at hvalid
  | ended es t ht =>
    rcases runCommand_cases ht with ⟨hdist, -⟩ | ⟨-, hends⟩
    · rw [hd] at hdist
      cases hdist
    · exact hends.codeDerived hs

/-! ### The obligations on the invariant -/

/-- Settles O16: the reset state is R40's values over the opaque parameters and the first drawn CODE. -/
theorem resetIsWellFormed : Obligations.ResetIsWellFormed := resetValues_inv _ _ _ _ _ _

/-- Settles O17: a step is one of the moves, and each keeps the invariant; the sequencer's through `exec_ends`. -/
theorem stepKeepsInvariant : Obligations.StepKeepsInvariant := fun _ _ hs h => (step_moved h).inv hs

/-- Settles O19: CODE_VALID is 0 after reset; a step is one of the moves, and of an undisturbed state each keeps CODE's
agreement with TREE. -/
theorem codeValidSaysDerived : Obligations.CodeValidSaysDerived :=
  ⟨fun hvalid => by simp [State.reset] at hvalid, fun _ _ hd hs h => (step_moved h).codeDerived hd hs⟩

end Sys2Proof.Machine
end

section
/-! PROOFS. MEM (20_memory.md): a host write of one byte, the RANGE_ERROR of a sink or source outside MEM, and that a command
writes only inside its write region. -/

namespace Sys2Proof.Machine

/-! ### A host MEM write -/

theorem step_memWrite {s : State} {a : Nat} {b : Byte} {rest : List Event} (ha : a < s.params.memBytes)
    (he : s.events = .memWrite a b :: rest) :
    step s = .next { s.writeByte a b with events := rest, disturbed := s.disturbed || s.busy } := by
  simp only [step, he, takeEvent, hostMemWrite, if_pos ha]
  rfl

/-- Settles O12: the step is `writeByte`, with the event taken off the list and a running command marked as disturbed. -/
theorem hostMemWriteStores : Obligations.HostMemWriteStores := by
  intro s a b rest ha he
  exact ⟨_, step_memWrite ha he, State.readByte_writeByte_same s a b,
    fun x hx => State.readByte_writeByte_other s b hx.symm, rfl⟩

/-! ### A cursor outside MEM -/

/-- A command whose write region does not exist fails its region check (20_memory.md R64). -/
theorem regionsOk_fails_write {i : Instr} {w : Region} {s : State} (hi : writeRegion i s = some w)
    (hw : ¬ s.fitsMem w.addr w.len) : (!regionsOk i s) = true :=
  by_contra fun hok => hw (regionsOk_write hi hok)

/-- A command with a read region that does not exist fails its region check (20_memory.md R64). -/
theorem regionsOk_fails_read {i : Instr} {r : Region} {s : State} (hr : r ∈ readRegions i s)
    (hw : ¬ s.fitsMem r.addr r.len) : (!regionsOk i s) = true := by
  rw [Bool.not_eq_true']
  exact Bool.eq_false_iff.mpr fun hok => hw (regionsFit_read hok hr)

section
variable {s : State} (hsink : ¬ s.fitsMem s.bw.base.toNat s.bw.cap.toNat) (hactive : s.bw.active = true)
include hsink hactive

theorem execBwPutBit_rangeError {imm : Byte} (himm : imm = 0 ∨ imm = 1) (hroom : s.bw.fits 1 = true) :
    execBwPutBit imm s = raiseError Op.bwPutBit .rangeError s := by
  have hbit : immIsBit imm = true := by simpa [immIsBit] using himm
  have hbad : (!regionsOk (.bwPutBit imm) s) = true := regionsOk_fails_write (w := s.sinkRegion) rfl hsink
  rw [execBwPutBit, if_neg (by simp [hbit]), if_neg (by simp [hactive]), if_neg (by simp [hroom]), if_pos hbad]

theorem execBwPutSymbol_rangeError {v : Byte} (hvalid : s.codeValid = true) (hcode : tableGet s.code v ≠ [])
    (hroom : s.bw.fits (tableGet s.code v).length = true) :
    execBwPutSymbol v s = raiseError Op.bwPutSymbol .rangeError s := by
  have hbad : (!regionsOk (.bwPutSymbol v) s) = true := regionsOk_fails_write (w := s.sinkRegion) rfl hsink
  simp only [execBwPutSymbol]
  rw [if_neg (by simp [hactive]), if_neg (by simp [hvalid]), if_neg (by simpa [immByte] using hcode),
    if_neg (by simp [immByte, hroom]), if_pos hbad]

theorem execBwFinalize_rangeError (hroom : s.bw.flushFits = true) :
    execBwFinalize s = raiseError Op.bwFinalize .rangeError s := by
  have hbad : (!regionsOk .bwFinalize s) = true := regionsOk_fails_write (w := s.sinkRegion) rfl hsink
  rw [execBwFinalize, if_neg (by simp [hactive]), if_neg (by simp [hroom]), if_pos hbad]

end

theorem execBrGetBit_rangeError {s : State} (hsource : ¬ s.fitsMem s.br.base.toNat s.br.len.toNat)
    (hactive : s.br.active = true) : execBrGetBit s = raiseError Op.brGetBit .rangeError s := by
  have hbad : (!regionsOk .brGetBit s) = true :=
    regionsOk_fails_read (r := s.sourceRegion) (List.mem_singleton_self _) hsource
  rw [execBrGetBit, if_neg (by simp [hactive]), if_pos hbad]

/-- Settles O49: each of the four commands passes the checks its rule lists and fails the region check after them. -/
theorem cursorOutsideMemIsRangeError : Obligations.CursorOutsideMemIsRangeError := by
  intro s
  refine ⟨fun imm hsink hactive himm hroom => ?_, fun v hsink hactive hvalid hcode hroom => ?_,
    fun hsink hactive hroom => ?_, fun hsource hactive => ?_⟩
  · exact execBwPutBit_rangeError hsink hactive himm (decide_eq_true hroom)
  · exact execBwPutSymbol_rangeError hsink hactive hvalid hcode (decide_eq_true hroom)
  · exact execBwFinalize_rangeError hsink hactive (decide_eq_true hroom)
  · exact execBrGetBit_rangeError hsource hactive

end Sys2Proof.Machine
end

section
/-! PROOFS. A command writes only inside its write region (20_memory.md R66): which bytes each shared operation leaves, then
one lemma for each command, in the order of its checks. -/

namespace Sys2Proof.Machine

/-! ### Bytes outside a range -/

theorem SameOutside.mono {s t : State} {a n b m : Nat} (h : SameOutside s t a n) (hlo : b ≤ a) (hhi : a + n ≤ b + m) :
    SameOutside s t b m :=
  fun x hx => h x (by omega)

theorem SameOutside.trans {s t u : State} {a n : Nat} (h : SameOutside s t a n) (k : SameOutside t u a n) :
    SameOutside s u a n :=
  fun x hx => (k x hx).trans (h x hx)

theorem SameOutside.grow {s t : State} {a n m : Nat} (h : SameOutside s t a n) (hn : n ≤ m) : SameOutside s t a m :=
  h.mono (Nat.le_refl a) (Nat.add_le_add_left hn a)

theorem Region.holds_eq_false {r : Region} {x : Nat} : r.holds x = false ↔ x < r.addr ∨ r.addr + r.len ≤ x := by
  simp only [Region.holds, Bool.and_eq_false_iff, decide_eq_false_iff_not]
  omega

/-- An address the region does not hold lies outside its range. -/
theorem readByte_of_not_holds {s t : State} {r : Region} {x : Nat} (hx : r.holds x = false)
    (h : SameOutside s t r.addr r.len) : t.readByte x = s.readByte x :=
  h x (Region.holds_eq_false.mp hx)

/-! ### What the shared operations leave -/

theorem memWrite_outside (s : State) (a : Nat) (bs : List Byte) : SameOutside s (memWrite s a bs) a bs.length :=
  fun x hx => by rw [memWrite_readByte, dif_neg (by omega)]

/-- Bits put where they fit stay in the sink (40_bit_codec.md R98, R99). -/
theorem putBits_outside {bits : Bits} {s : State} (hfits : s.bw.fits bits.length = true) :
    SameOutside s (putBits bits s) s.bw.base.toNat s.bw.cap.toNat := by
  have hroom : s.bw.bytes.toNat + (s.bw.nbits.val + bits.length) / 8 ≤ s.bw.cap.toNat := of_decide_eq_true hfits
  have hput := putBits_effect bits s (by have := s.bw.cap.isLt; omega)
  have hcount := hput.count
  exact hput.outside.mono (by omega) (by omega)

/-- Finalization that fits stays in the sink (40_bit_codec.md R104). -/
theorem flushWriter_outside {s : State} (hfits : s.bw.flushFits = true) :
    SameOutside s (flushWriter s) s.bw.base.toNat s.bw.cap.toNat := by
  have hroom : s.bw.nbits.val = 0 ∨ s.bw.bytes.toNat < s.bw.cap.toNat := of_decide_eq_true hfits
  have hbits := s.bw.nbits.isLt
  by_cases hnone : s.bw.nbits.val = 0
  · intro x _
    rw [flushWriter, if_pos hnone]
    rfl
  · have hflush := flushWriter_effect s (by have := s.bw.cap.isLt; omega)
    exact hflush.outside.mono (by omega) (by omega)

theorem encodeInto_outside {src n dst cap : Nat} {s : State} (hdst : dst < 2 ^ 32) (hcap : cap < 2 ^ 32)
    (hroom : ceil8 (codeBitCount s.code (memRead s src n)) + 1 ≤ cap) :
    SameOutside s (encodeInto src n dst cap s).2 dst cap := by
  rw [codeBitCount_eq] at hroom
  obtain ⟨-, henc⟩ := encodeInto_effect src n dst cap s _ rfl hdst hroom hcap
  exact henc.outside.grow hroom

theorem decodeInto_outside {tr : HTree} {src len dst n : Nat} {s t : State} {p : Byte}
    (h : decodeInto tr src len dst n s = some (p, t)) (hlen : 1 ≤ len) (hsrc : s.fitsMem src len)
    (ha : apart src len dst n) : SameOutside s t dst n := by
  rcases decodeInto_spec tr src len dst n s hlen (Nat.le_trans hsrc s.params.memBytes_le) ha with ⟨hnone, -⟩ |
    ⟨vs, -, u, hsome, -, hvs, hstore, -, -, hframe⟩
  · rw [hnone] at h; cases h
  · rw [hsome] at h
    cases h
    intro x hx
    rw [State.readByte_congr hstore (by rw [hframe, memWrite_eq]) x]
    exact memWrite_outside s dst vs x (hvs ▸ hx)

/-- What is freed after a decoding error is the destination region (40_bit_codec.md R114). -/
theorem freeDecoded_outside (s : State) : SameOutside s (freeDecoded s) s.dstAddr.toNat s.dstCap.toNat :=
  fun _ hx => State.readByte_freeRegion_other s s.dstRegion (Region.holds_eq_false.mpr hx)

/-- Steps 3 to 5 of COMPRESS stay in a destination with room for the container (43_container.md R178). -/
theorem writeContainer_outside {n d l cap : Nat} {tree : HTree} {c : Word} {p : List Byte} {s : State}
    (hp : memRead s s.srcAddr.toNat n = p) (hname : apart s.nameAddr.toNat l d cap)
    (hsrc : apart s.srcAddr.toNat n d cap) (hdst : s.fitsMem d cap) (hcap : cap < 2 ^ 32)
    (hroom : containerSize l (treeSize tree) (ceil8 (codeBitCount s.code p)) ≤ cap) :
    SameOutside s (encodeInto (writeHeader d n l tree c s).srcAddr.toNat n (d + 28 + l + treeSize tree)
      (ceil8 (codeBitCount s.code p) + 1) (writeHeader d n l tree c s)).2 d cap := by
  unfold containerSize at hroom
  have hmem := Nat.le_trans hdst s.params.memBytes_le
  have ha : apart s.nameAddr.toNat l d 10 := apart_shrink hname (by omega)
  have hcode : (writeHeader d n l tree c s).code = s.code := by rw [writeHeader_frame ha]
  have hread : memRead (writeHeader d n l tree c s) (writeHeader d n l tree c s).srcAddr.toNat n = p := by
    rw [show (writeHeader d n l tree c s).srcAddr = s.srcAddr by rw [writeHeader_frame ha],
      memRead_writeHeader ha (apart_shrink hsrc (by omega)), hp]
  have hhead : SameOutside s (writeHeader d n l tree c s) d cap := by
    obtain ⟨bs, hlen, heq⟩ := writeHeader_memWrite (n := n) (tree := tree) (c := c) ha
    rw [heq]
    exact (memWrite_outside s d bs).grow (by omega)
  exact hhead.trans ((encodeInto_outside (by omega) (by omega) (by rw [hcode, hread])).mono (by omega) (by omega))

/-! ### The answer of a command -/

/-- The byte at `x` is as in `s` in any state the answer leads to. -/
def KeepsByte (x : Nat) (s : State) (r : Result) : Prop := ∀ t, r = .next t → t.readByte x = s.readByte x

section
variable {x : Nat} {s u : State} {op : Byte} {k : Word} {e : ErrorCode} {r : Result}

theorem KeepsByte.completes (h : u.readByte x = s.readByte x) : KeepsByte x s (complete op k u) := by
  rintro _ ⟨⟩
  exact h

theorem KeepsByte.raises (h : u.readByte x = s.readByte x) : KeepsByte x s (raiseError op e u) := by
  rintro _ ⟨⟩
  exact h

/-- One of a command's checks: it raises its error from the state as it is, or the command goes on. -/
theorem KeepsByte.check {c : Prop} [Decidable c] (h : ¬ c → KeepsByte x s r) :
    KeepsByte x s (if c then raiseError op e s else r) := by
  split
  · exact .raises rfl
  · exact h ‹_›

/-- A command that only checks its regions before it completes (20_memory.md R64). -/
theorem KeepsByte.regionCheck {i : Instr} (h : u.readByte x = s.readByte x) :
    KeepsByte x s (if regionsOk i s then complete op k u else raiseError op .rangeError s) := by
  split
  · exact .completes h
  · exact .raises rfl

end

section
variable {x : Nat} {s : State}

/-! ### The commands that write no MEM -/

theorem execBwInit_keepsByte : KeepsByte x s (execBwInit s) := .regionCheck rfl

theorem getBit_readByte {t : State} {b : Bool} (h : getBit s = some (b, t)) : t.readByte x = s.readByte x := by
  unfold getBit at h
  split at h <;> cases h
  rfl

theorem execBrGetBit_keepsByte : KeepsByte x s (execBrGetBit s) := by
  refine .check fun _ => .check fun _ => ?_
  split
  · exact .raises rfl
  · rename_i hbit
    have hread := getBit_readByte (x := x) hbit
    exact .completes hread

theorem execCodeGen_keepsByte : KeepsByte x s (execCodeGen s) := by
  unfold execCodeGen
  split
  · exact .raises rfl
  · exact .completes rfl

theorem execTreeDeserialize_keepsByte : KeepsByte x s (execTreeDeserialize s) := by
  refine .check fun _ => ?_
  split
  · exact .raises rfl
  · exact .completes rfl

/-! ### The commands that write the sink -/

section
variable (hx : s.sinkRegion.holds x = false)
include hx

theorem execBwPutBit_keepsByte (imm : Byte) : KeepsByte x s (execBwPutBit imm s) := by
  refine .check fun _ => .check fun _ => .check fun hfits => .check fun _ => ?_
  exact .completes (readByte_of_not_holds hx (putBits_outside (bits := [immBit imm]) (by simpa using hfits)))

theorem execBwPutSymbol_keepsByte (v : Byte) : KeepsByte x s (execBwPutSymbol v s) := by
  refine .check fun _ => .check fun _ => .check fun _ => .check fun hfits => .check fun _ => ?_
  exact .completes (readByte_of_not_holds hx (putBits_outside (by simpa using hfits)))

theorem execBwFinalize_keepsByte : KeepsByte x s (execBwFinalize s) := by
  refine .check fun _ => .check fun hfits => .check fun _ => ?_
  exact .completes (readByte_of_not_holds hx (flushWriter_outside (by simpa using hfits)))

end

/-! ### The commands that write the destination -/

section
variable (hx : s.dstRegion.holds x = false)
include hx

/-- A MemWrite at DST_ADDR of no more than DST_CAP bytes. -/
theorem memWrite_dst_readByte {bs : List Byte} (hlen : bs.length ≤ s.dstCap.toNat) :
    (memWrite s s.dstAddr.toNat bs).readByte x = s.readByte x :=
  readByte_of_not_holds hx ((memWrite_outside s s.dstAddr.toNat bs).grow hlen)

theorem execEncodePayload_keepsByte : KeepsByte x s (execEncodePayload s) := by
  refine .check fun _ => .check fun _ => .check fun _ => .check fun hroom => ?_
  have hout := encodeInto_outside s.dstAddr.isLt s.dstCap.isLt (Nat.le_of_not_lt hroom)
  exact .completes (readByte_of_not_holds hx hout)

theorem execCodeRead_keepsByte (v : Byte) : KeepsByte x s (execCodeRead v s) := by
  refine .check fun _ => .check fun _ => .check fun hcap => ?_
  exact .completes (memWrite_dst_readByte hx (by simpa [packBits] using Nat.le_of_not_lt hcap))

theorem execTreeSerialize_keepsByte : KeepsByte x s (execTreeSerialize s) := by
  unfold execTreeSerialize
  split
  · exact .raises rfl
  refine .check fun _ => .check fun hcap => ?_
  exact .completes (memWrite_dst_readByte hx (Nat.le_of_not_lt hcap))

theorem execDecodePayload_keepsByte : KeepsByte x s (execDecodePayload s) := by
  unfold execDecodePayload
  split
  · exact .raises rfl
  refine .check fun hok => .check fun hlen => .check fun hcap => ?_
  have hok : regionsOk .decodePayload s = true := by simpa using hok
  obtain ⟨hsrc, -, hapart⟩ := (regionsFit_one s s.srcRegion s.dstRegion).mp hok
  have hcap : s.plen ≤ s.dstCap.toNat := Nat.le_of_not_lt hcap
  split
  · exact .raises (readByte_of_not_holds hx (freeDecoded_outside s))
  · rename_i hdec
    have hout := decodeInto_outside hdec (by omega) hsrc (apart_shrink hapart hcap)
    exact .completes (readByte_of_not_holds hx (hout.grow hcap))

theorem execCompress_keepsByte : KeepsByte x s (execCompress s) := by
  refine .check fun hok => .check fun _ => ?_
  have hok : regionsOk .compress s = true := by simpa using hok
  obtain ⟨-, -, hdst, hsrc, hname⟩ := (regionsFit_two s s.srcRegion s.nameRegion s.dstRegion).mp hok
  have hread := memRead_compressTables (memRead s s.srcAddr.toNat s.srcLen.toNat) s s.srcAddr.toNat s.srcLen.toNat
  simp only
  generalize memRead s s.srcAddr.toNat s.srcLen.toNat = p at *
  split
  · exact .raises rfl
  · rename_i hroom
    have hout := writeContainer_outside (d := (compressTables p s).dstAddr.toNat) (c := crc32 p) (s := compressTables p s)
      hread hname hsrc hdst s.dstCap.isLt (Nat.le_of_not_lt hroom)
    rw [compressTables_code] at hout
    exact .completes (readByte_of_not_holds hx hout)

theorem decompressPayload_keepsByte {h : Header} {tree : HTree} {a n pos : Nat} (hsrc : s.fitsMem a n)
    (ha : apart a n s.dstAddr.toNat s.dstCap.toNat) : KeepsByte x s (decompressPayload h tree a n pos s) := by
  refine .check fun hleft => .check fun hcap => ?_
  have hcap : h.plen ≤ s.dstCap.toNat := Nat.le_of_not_lt hcap
  have hfree := readByte_of_not_holds hx (freeDecoded_outside s)
  split
  · exact .raises hfree
  · rename_i p t hdec
    have hpart : s.fitsMem (a + pos) (n - pos) := by
      unfold State.fitsMem at hsrc ⊢
      omega
    have hapart : apart (a + pos) (n - pos) s.dstAddr.toNat h.plen := by
      have := apart_shrink ha hcap
      unfold apart at this ⊢
      omega
    have hout := decodeInto_outside hdec (by omega) hpart hapart
    split
    · exact .raises hfree
    split
    · exact .raises hfree
    · exact .completes (readByte_of_not_holds hx (hout.grow hcap))

theorem execDecompress_keepsByte : KeepsByte x s (execDecompress s) := by
  refine .check fun hok => ?_
  have hok : regionsOk .decompress s = true := by simpa using hok
  obtain ⟨hsrc, -, hapart⟩ := (regionsFit_one s s.srcRegion s.dstRegion).mp hok
  split
  · exact .raises rfl
  split
  · exact .raises rfl
  · rename_i tree pos _
    exact decompressPayload_keepsByte (s := s.setTree (some tree)) hx hsrc hapart

end
end

/-! ### All commands -/

/-- A byte outside a command's write region stays as it is. -/
theorem exec_keepsByte {i : Instr} {s : State} {x : Nat} (hx : ∀ w, writeRegion i s = some w → w.holds x = false) :
    KeepsByte x s (exec i s) := by
  cases i with
  | nop => exact .completes rfl
  | bwInit => exact execBwInit_keepsByte
  | bwPutBit imm => exact execBwPutBit_keepsByte (hx _ rfl) imm
  | bwPutSymbol v => exact execBwPutSymbol_keepsByte (hx _ rfl) v
  | bwFinalize => exact execBwFinalize_keepsByte (hx _ rfl)
  | brInit => exact .regionCheck rfl
  | brGetBit => exact execBrGetBit_keepsByte
  | encodePayload => exact execEncodePayload_keepsByte (hx _ rfl)
  | decodePayload => exact execDecodePayload_keepsByte (hx _ rfl)
  | freqClear => exact .completes rfl
  | freqCount => exact .regionCheck rfl
  | freqRead v => exact .completes rfl
  | treeBuild => exact .completes rfl
  | codeGen => exact execCodeGen_keepsByte
  | codeRead v => exact execCodeRead_keepsByte (hx _ rfl) v
  | treeSerialize => exact execTreeSerialize_keepsByte (hx _ rfl)
  | treeDeserialize => exact execTreeDeserialize_keepsByte
  | crc32 => exact .regionCheck rfl
  | compress => exact execCompress_keepsByte (hx _ rfl)
  | decompress => exact execDecompress_keepsByte (hx _ rfl)

/-- BW_INIT apart, the commands that name a write region are the nine (30_encoding.md R83). -/
theorem opcode_of_writeRegion {i : Instr} {s : State} {w : Region} (hw : writeRegion i s = some w) (hi : i ≠ .bwInit) :
    i.opcode ∈ [(0x11 : Byte), 0x12, 0x13, 0x16, 0x17, 0x30, 0x25, 0x41, 0x42] := by
  cases i with
  | bwInit => exact absurd rfl hi
  | nop | brInit | brGetBit | freqClear | freqCount | freqRead _ | treeBuild | codeGen | treeDeserialize | crc32 =>
    cases hw
  | bwPutBit _ | bwPutSymbol _ | bwFinalize | encodePayload | decodePayload | codeRead _ | treeSerialize | compress
  | decompress => exact of_decide_eq_true rfl

/-- Settles O22: `exec_keepsByte` is its first part; a command with none of the nine opcodes names no write region, or is
BW_INIT, which names one only to check it. -/
theorem writesConfinedToRegion : Obligations.WritesConfinedToRegion := by
  intro i s t h
  refine ⟨fun x hx => exec_keepsByte hx t h, fun hop x => ?_⟩
  by_cases hi : i = .bwInit
  · subst hi
    exact execBwInit_keepsByte t h
  · exact exec_keepsByte (fun w hw => absurd (opcode_of_writeRegion hw hi) hop) t h

end Sys2Proof.Machine
end

section
/-! PROOFS. The command word (30_encoding.md R80 to R87, R93): the opcode map as one row for each command, what a word must
be to decode, and what an illegal word does when it is written to CMD. -/

namespace Sys2Proof

open Machine

/-! ### The row a command stands in -/

/-- The mask of a command's format (30_encoding.md R81, R84). -/
def Instr.rowMask : Instr → Word
  | .bwPutBit _ => maskB
  | .bwPutSymbol _ | .freqRead _ | .codeRead _ => maskI
  | .nop | .bwInit | .bwFinalize | .brInit | .brGetBit | .encodePayload | .decodePayload | .freqClear | .freqCount
  | .treeBuild | .codeGen | .treeSerialize | .treeDeserialize | .crc32 | .compress | .decompress => maskN

/-- The command of the same row with another IMM8; format N has none (30_encoding.md R82). -/
def Instr.withImm : Instr → Byte → Instr
  | .bwPutBit _, imm => .bwPutBit imm
  | .bwPutSymbol _, imm => .bwPutSymbol imm
  | .freqRead _, imm => .freqRead imm
  | .codeRead _, imm => .codeRead imm
  | i, _ => i

/-- The case of 30_encoding.md R85 a word falls under whose IMM8 the command's format does not allow. -/
def Instr.immError : Instr → IllegalWord
  | .bwPutBit _ => .operandNotBit
  | _ => .operandNotZero

/-- The word meets the command's row: RSV is 0, OP is the command's opcode, and the bits of IMM8 under the mask are 0. -/
structure Instr.Meets (i : Instr) (w : Word) : Prop where
  rsv : rsvField w = 0
  op : i.opcode = opField w
  imm : immField w &&& immField i.rowMask = 0

/-- The row of the opcode map a command stands in. -/
def Instr.row (i : Instr) : OpRow := ⟨i.mnemonic, i.rowMask, encode (i.withImm 0)⟩

/-- One command for each row, in the map's order. -/
def rowCommands : List Instr :=
  [.nop, .bwInit, .bwPutBit 0, .bwPutSymbol 0, .bwFinalize, .brInit, .brGetBit, .encodePayload, .decodePayload,
   .freqClear, .freqCount, .freqRead 0, .treeBuild, .codeGen, .codeRead 0, .treeSerialize, .treeDeserialize, .crc32,
   .compress, .decompress]

theorem opcodeRows_eq : opcodeRows = rowCommands.map Instr.row := by decide

theorem Instr.withImm_opcode (i : Instr) (imm : Byte) : (i.withImm imm).opcode = i.opcode := by cases i <;> rfl

theorem Instr.withImm_mnemonic (i : Instr) (imm : Byte) : (i.withImm imm).mnemonic = i.mnemonic := by cases i <;> rfl

theorem Instr.withImm_zero_imm8 (i : Instr) : (i.withImm 0).imm8 = 0 := by cases i <;> rfl

theorem Instr.row_withImm (i : Instr) (imm : Byte) : (i.withImm imm).row = i.row := by cases i <;> rfl

theorem Instr.withImm_zero_mem (i : Instr) : i.withImm 0 ∈ rowCommands := by
  cases i <;> simp [Instr.withImm, rowCommands]

theorem Instr.row_mem (i : Instr) : i.row ∈ opcodeRows := by
  rw [opcodeRows_eq, ← i.row_withImm 0]
  exact List.mem_map_of_mem i.withImm_zero_mem

theorem Instr.rowMask_cases (i : Instr) : i.rowMask = maskN ∨ i.rowMask = maskI ∨ i.rowMask = maskB := by
  cases i <;> simp [Instr.rowMask]

/-- Every mask covers OP and RSV (30_encoding.md R81). -/
theorem Instr.rowMask_fields (i : Instr) :
    rsvField i.rowMask = BitVec.allOnes 16 ∧ opField i.rowMask = BitVec.allOnes 8 := by
  rcases i.rowMask_cases with h | h | h <;> rw [h] <;> decide

/-- Two words with the same fields are the same. -/
theorem word_ext {v w : Word} (hop : opField v = opField w) (himm : immField v = immField w)
    (hrsv : rsvField v = rsvField w) : v = w := by
  rw [word_of_fields v, word_of_fields w, hop, himm, hrsv]

/-- A word hits a command's row, by mask and match, when it meets it (30_encoding.md R81). -/
theorem Instr.row_hits_iff (i : Instr) (w : Word) : i.row.hits w = true ↔ i.Meets w := by
  obtain ⟨hallRsv, hallOp⟩ := i.rowMask_fields
  have hop : opField (w &&& i.rowMask) = opField w := by
    rw [opField, BitVec.extractLsb'_and, ← opField, ← opField, hallOp, BitVec.and_allOnes]
  have hrsv : rsvField (w &&& i.rowMask) = rsvField w := by
    rw [rsvField, BitVec.extractLsb'_and, ← rsvField, ← rsvField, hallRsv, BitVec.and_allOnes]
  have himm : immField (w &&& i.rowMask) = immField w &&& immField i.rowMask := BitVec.extractLsb'_and
  have hhits : i.row.hits w = true ↔ w &&& i.rowMask = encode (i.withImm 0) := beq_iff_eq
  rw [hhits]
  constructor
  · intro h
    rw [h, opField_encode, i.withImm_opcode] at hop
    rw [h, rsvField_encode] at hrsv
    rw [h, immField_encode, i.withImm_zero_imm8] at himm
    exact ⟨hrsv.symm, hop, himm.symm⟩
  · rintro ⟨h1, h2, h3⟩
    refine word_ext ?_ ?_ ?_
    · rw [hop, opField_encode, i.withImm_opcode, h2]
    · rw [himm, immField_encode, i.withImm_zero_imm8, h3]
    · rw [hrsv, rsvField_encode, h1]

/-! ### What a word decodes to -/

theorem and_immField_maskN (imm : Byte) : imm &&& immField maskN = 0 ↔ imm = 0 := by
  rw [show immField maskN = BitVec.allOnes 8 from rfl, BitVec.and_allOnes]

theorem and_immField_maskB (imm : Byte) : imm &&& immField maskB = 0 ↔ imm = 0 ∨ imm = 1 := by
  revert imm
  decide

theorem and_immField_maskI (imm : Byte) : imm &&& immField maskI = 0 :=
  BitVec.and_zero

/-- The opcode map at a command's opcode, for every IMM8 (30_encoding.md R81, R84). -/
theorem decodeOp_opcode_eq (i : Instr) (imm : Byte) :
    decodeOp i.opcode imm = if imm &&& immField i.rowMask = 0 then .ok (i.withImm imm) else .error i.immError := by
  have hN (j : Instr) : formatN imm j = if imm &&& immField maskN = 0 then .ok j else .error .operandNotZero := by
    simp only [formatN, and_immField_maskN]
  have hB :
      formatB imm .bwPutBit = if imm &&& immField maskB = 0 then .ok (.bwPutBit imm) else .error .operandNotBit := by
    simp only [formatB, and_immField_maskB]
  have hI (f : Byte → Instr) :
      formatI imm f = if imm &&& immField maskI = 0 then .ok (f imm) else .error .operandNotZero :=
    (if_pos (and_immField_maskI imm)).symm
  cases i with
  | bwPutBit _ => exact hB
  | bwPutSymbol _ => exact hI .bwPutSymbol
  | freqRead _ => exact hI .freqRead
  | codeRead _ => exact hI .codeRead
  | _ => exact hN _

/-- A word that meets a command's row decodes to that row's command, with the word's IMM8 (30_encoding.md R80 to R84). -/
theorem decode_of_meets {i : Instr} {w : Word} (h : i.Meets w) : decode w = .ok (i.withImm (immField w)) := by
  rw [decode, if_pos h.rsv, ← h.op, decodeOp_opcode_eq, if_pos h.imm]

/-- A word decodes only to a command whose row it meets and whose operand is its IMM8 (30_encoding.md R80 to R84). -/
theorem meets_of_decode {i : Instr} {w : Word} (h : decode w = .ok i) : i.Meets w ∧ i.withImm (immField w) = i := by
  have hop := decode_opcode h
  unfold decode at h
  split at h
  · rename_i hrsv
    rw [← hop, decodeOp_opcode_eq] at h
    split at h
    · rename_i himm
      exact ⟨⟨hrsv, hop, himm⟩, Except.ok.inj h⟩
    · cases h
  · cases h

/-- An IMM8 the format allows is the command's own, which is well-formed. -/
theorem Instr.withImm_spec {i : Instr} {imm : Byte} (h : imm &&& immField i.rowMask = 0) :
    (i.withImm imm).wf = true ∧ (i.withImm imm).imm8 = imm := by
  cases i with
  | bwPutBit _ => exact ⟨by simpa [Instr.withImm, Instr.wf] using (and_immField_maskB imm).mp h, rfl⟩
  | bwPutSymbol _ | freqRead _ | codeRead _ => exact ⟨rfl, rfl⟩
  | _ => exact ⟨rfl, ((and_immField_maskN imm).mp h).symm⟩

/-! ### The obligations on decoding -/

/-- Settles O1, command by command: the round trip of each is one of `Laws.RoundTrip`. -/
theorem decodeOfEncode : Obligations.DecodeOfEncode := by
  intro i
  cases i with
  | nop => exact Laws.RoundTrip.nop
  | bwInit => exact Laws.RoundTrip.bwInit
  | bwPutBit imm => exact Laws.RoundTrip.bwPutBit imm
  | bwPutSymbol imm => exact Laws.RoundTrip.bwPutSymbol imm
  | bwFinalize => exact Laws.RoundTrip.bwFinalize
  | brInit => exact Laws.RoundTrip.brInit
  | brGetBit => exact Laws.RoundTrip.brGetBit
  | encodePayload => exact Laws.RoundTrip.encodePayload
  | decodePayload => exact Laws.RoundTrip.decodePayload
  | freqClear => exact Laws.RoundTrip.freqClear
  | freqCount => exact Laws.RoundTrip.freqCount
  | freqRead imm => exact Laws.RoundTrip.freqRead imm
  | treeBuild => exact Laws.RoundTrip.treeBuild
  | codeGen => exact Laws.RoundTrip.codeGen
  | codeRead imm => exact Laws.RoundTrip.codeRead imm
  | treeSerialize => exact Laws.RoundTrip.treeSerialize
  | treeDeserialize => exact Laws.RoundTrip.treeDeserialize
  | crc32 => exact Laws.RoundTrip.crc32
  | compress => exact Laws.RoundTrip.compress
  | decompress => exact Laws.RoundTrip.decompress

/-- Settles O2: the three fields of the word are those of the command's word. -/
theorem decodedWordEncodesBack : Obligations.DecodedWordEncodesBack := by
  intro w i h
  obtain ⟨hmeets, hi⟩ := meets_of_decode h
  obtain ⟨hwf, himm⟩ := Instr.withImm_spec hmeets.imm
  rw [hi] at hwf himm
  refine ⟨hwf, word_ext ?_ ?_ ?_⟩
  · rw [opField_encode, hmeets.op]
  · rw [immField_encode, himm]
  · rw [rsvField_encode, hmeets.rsv]

/-- A row the word hits is the row of the command the word decodes to. -/
theorem decode_of_hits {w : Word} {r : OpRow} (hr : r ∈ opcodeRows) (hits : r.hits w = true) :
    ∃ i, decode w = .ok i ∧ i.mnemonic = r.mnemonic := by
  rw [opcodeRows_eq] at hr
  obtain ⟨i, -, rfl⟩ := List.mem_map.mp hr
  exact ⟨_, decode_of_meets ((i.row_hits_iff w).mp hits), i.withImm_mnemonic _⟩

theorem opcodeRows_mnemonics_nodup : (opcodeRows.map OpRow.mnemonic).Nodup := by decide

/-- Settles O3: a row that is hit is the decoded command's, whose mnemonic stands in one row; and the decoded command's row
is hit. -/
theorem oneRowOrIllegal : Obligations.OneRowOrIllegal := by
  refine ⟨fun w i h => ?_, fun w e h => List.filter_eq_nil_iff.mpr fun r hr hits => ?_⟩
  · have hnodup : ((opcodeRows.filter (fun r => r.hits w)).map OpRow.mnemonic).Nodup :=
      opcodeRows_mnemonics_nodup.sublist (List.filter_sublist.map _)
    by_contra hne
    rcases (hnodup.ne_singleton_iff _).mp hne with hnil | ⟨name, hname, hother⟩
    · have hits := (i.row_hits_iff w).mpr (meets_of_decode h).1
      exact List.filter_eq_nil_iff.mp (List.map_eq_nil_iff.mp hnil) i.row i.row_mem hits
    · obtain ⟨r, hr, rfl⟩ := List.mem_map.mp hname
      obtain ⟨hr, hits⟩ := List.mem_filter.mp hr
      obtain ⟨j, hj, hmnemonic⟩ := decode_of_hits hr hits
      exact hother (by rw [← hmnemonic, Except.ok.inj (hj.symm.trans h)])
  · obtain ⟨j, hj, -⟩ := decode_of_hits hr hits
    rw [h] at hj
    cases hj

/-! ### Illegal words -/

/-- Each opcode of a format's list is a command's that has the format's mask (30_encoding.md R81, R84). -/
theorem exists_of_mem_formatNOps : ∀ op ∈ formatNOps, ∃ i ∈ rowCommands, i.opcode = op ∧ i.rowMask = maskN := by
  decide

theorem exists_of_mem_formatIOps : ∀ op ∈ formatIOps, ∃ i ∈ rowCommands, i.opcode = op ∧ i.rowMask = maskI := by
  decide

theorem exists_of_mem_formatBOps : ∀ op ∈ formatBOps, ∃ i ∈ rowCommands, i.opcode = op ∧ i.rowMask = maskB := by
  decide

/-- A command's opcode is in the list of its format. -/
theorem Instr.opcode_mem (i : Instr) :
    (i.rowMask = maskN ∧ i.opcode ∈ formatNOps) ∨ (i.rowMask = maskI ∧ i.opcode ∈ formatIOps) ∨
      (i.rowMask = maskB ∧ i.opcode ∈ formatBOps) := by
  cases i with
  | bwPutBit _ => exact .inr (.inr ⟨rfl, of_decide_eq_true rfl⟩)
  | bwPutSymbol _ | freqRead _ | codeRead _ => exact .inr (.inl ⟨rfl, of_decide_eq_true rfl⟩)
  | _ => exact .inl ⟨rfl, of_decide_eq_true rfl⟩

/-- Which words decode, by the opcode lists (30_encoding.md R81, R85). -/
theorem exists_decode_iff (w : Word) :
    (∃ i, decode w = .ok i) ↔ rsvField w = 0 ∧
      ((opField w ∈ formatNOps ∧ immField w = 0) ∨ opField w ∈ formatIOps ∨
        (opField w ∈ formatBOps ∧ (immField w = 0 ∨ immField w = 1))) := by
  constructor
  · rintro ⟨i, h⟩
    obtain ⟨hrsv, hop, himm⟩ := (meets_of_decode h).1
    rw [← hop]
    refine ⟨hrsv, ?_⟩
    rcases i.opcode_mem with ⟨hmask, hmem⟩ | ⟨-, hmem⟩ | ⟨hmask, hmem⟩
    · exact .inl ⟨hmem, (and_immField_maskN _).mp (hmask ▸ himm)⟩
    · exact .inr (.inl hmem)
    · exact .inr (.inr ⟨hmem, (and_immField_maskB _).mp (hmask ▸ himm)⟩)
  · rintro ⟨hrsv, ⟨hmem, himm⟩ | hmem | ⟨hmem, himm⟩⟩
    · obtain ⟨i, -, hop, hmask⟩ := exists_of_mem_formatNOps _ hmem
      exact ⟨_, decode_of_meets ⟨hrsv, hop, hmask ▸ (and_immField_maskN _).mpr himm⟩⟩
    · obtain ⟨i, -, hop, hmask⟩ := exists_of_mem_formatIOps _ hmem
      exact ⟨_, decode_of_meets ⟨hrsv, hop, hmask ▸ and_immField_maskI _⟩⟩
    · obtain ⟨i, -, hop, hmask⟩ := exists_of_mem_formatBOps _ hmem
      exact ⟨_, decode_of_meets ⟨hrsv, hop, hmask ▸ (and_immField_maskB _).mpr himm⟩⟩

/-- No opcode has two formats (30_encoding.md R81). -/
theorem formatOps_disjoint :
    (∀ op ∈ formatNOps, op ∉ formatIOps ∧ op ∉ formatBOps) ∧ ∀ op ∈ formatBOps, op ∉ formatIOps := by
  decide

theorem exists_error_iff (w : Word) : (∃ e, decode w = .error e) ↔ ¬ ∃ i, decode w = .ok i := by
  cases decode w <;> simp

/-- The sequencer's move on an illegal word the host has not disturbed (30_encoding.md R85). -/
theorem advance_of_illegal {s : State} {e : IllegalWord} (hb : s.seq = .busy) (hd : s.disturbed = false)
    (hw : decode s.cmd = .error e) : advance s = .next (s.raised (opField s.cmd) .illegalCommand) := by
  simp [advance, State.busy_of_seq hb, runCommand, hw, hd, raiseError]

/-- Settles O4: a word is illegal when it does not decode, which the opcode lists say; the CMD write is `startCommand`, and
the sequencer then raises the error. -/
theorem illegalWordsRaise : Obligations.IllegalWordsRaise := by
  intro w
  refine ⟨?_, fun s hs he ⟨e, hw⟩ => ?_⟩
  · obtain ⟨hN, hB⟩ := formatOps_disjoint
    have hN := hN (opField w)
    have hB := hB (opField w)
    rw [exists_error_iff, exists_decode_iff]
    tauto
  · have hstart := step_regWrite (r := .cmd) rfl he
    rw [State.not_busy_of_seq hs] at hstart
    refine ⟨_, hstart, rfl, ?_⟩
    have hend := advance_of_illegal (s := State.startCommand { s with events := [] } w) rfl rfl hw
    rw [hs]
    exact hend

/-- Settles O5: the legal words are the encodings of their commands; the illegal ones are read by evaluation. -/
theorem sampleWordsDecode : Obligations.SampleWordsDecode :=
  ⟨decodeOfEncode .nop rfl, decodeOfEncode (.bwPutBit 1) rfl, decodeOfEncode (.bwPutSymbol 0x41) rfl,
    decodeOfEncode .decodePayload rfl, decodeOfEncode (.freqRead 0x44) rfl, decodeOfEncode .codeGen rfl,
    decodeOfEncode .treeDeserialize rfl, decodeOfEncode .compress rfl, decodeOfEncode .decompress rfl, rfl, rfl, rfl⟩

end Sys2Proof
end

section
/-! PROOFS. The container COMPRESS writes (30_encoding.md R92; 43_container.md R178, R179): big-endian integers byte by byte,
and what the command leaves at the destination. -/

namespace Sys2Proof.Machine

/-- Byte `k` of a big-endian integer of `n` bytes has weight 256^(n - 1 - k) (20_memory.md R58). -/
theorem bytesBE_getElem? (v : Nat) {n k : Nat} (h : k < n) :
    (bytesBE v n)[k]? = some (BitVec.ofNat 8 (v / 256 ^ (n - 1 - k))) := by
  induction n generalizing k with
  | zero => omega
  | succ n ih =>
    cases k with
    | zero => rfl
    | succ k =>
      rw [bytesBE, List.getElem?_cons_succ, ih (by omega)]
      congr 4
      omega

/-! ### A payload encoded behind a head -/

section
variable {s t : State} {d cap : Nat} {head : List Byte} {bits : Bits}
  (henc : EncodeEffect (memWrite s d head) t (d + head.length) cap bits)
include henc

/-- The head stands before the packed codes and the pad count. -/
theorem EncodeEffect.memRead_head :
    memRead t d (head.length + ceil8 bits.length + 1) =
      head ++ memRead t (d + head.length) (ceil8 bits.length) ++ [t.pad] := by
  have hhead : memRead t d head.length = head :=
    (memRead_congr fun x _ hx => henc.outside x (.inl hx)).trans (memRead_memWrite_same s d head)
  have hpad : memRead t (d + (head.length + ceil8 bits.length)) 1 = [t.pad] := by
    rw [← henc.padByte, Nat.add_assoc]
    rfl
  rw [memRead_append, memRead_append, hhead, hpad]

theorem EncodeEffect.outside_head : SameOutside s t d (head.length + ceil8 bits.length + 1) := by
  have hout := (memWrite_outside s d head).grow (m := head.length + ceil8 bits.length + 1) (by omega)
  exact hout.trans (henc.outside.mono (by omega) (by omega))

theorem EncodeEffect.frame_head : t = { s with mem := t.mem, pad := t.pad, bw := {
    active := false, base := BitVec.ofNat 32 (d + head.length), cap := BitVec.ofNat 32 cap,
    bytes := BitVec.ofNat 32 (ceil8 bits.length), acc := 0, nbits := 0 } } := by
  rw [henc.frame, memWrite_eq]

end

/-! ### Steps 3 to 5 of COMPRESS -/

/-- The header and the tree, then the payload's `b` bytes of packed codes and the pad count (43_container.md R178). -/
def writeContainer (d n l : Nat) (tree : HTree) (c : Word) (b : Nat) (s : State) : State :=
  (encodeInto (writeHeader d n l tree c s).srcAddr.toNat n (d + 28 + l + treeSize tree) (b + 1)
    (writeHeader d n l tree c s)).2

/-- The container of `bits` stands at `d`, nothing else of MEM has changed, and of the rest BW and PAD alone
(30_encoding.md R92, 43_container.md R178). -/
structure ContainerEffect (s t : State) (d n l : Nat) (tree : HTree) (c : Word) (bits : Bits) : Prop where
  bytes : ∃ stream, PackedAs stream bits t.pad.toNat ∧
    memRead t d (containerSize l (treeSize tree) (ceil8 bits.length)) =
      containerBytes s.params.magic.toList s.typ.toNat (memRead s s.nameAddr.toNat l) [0x00, 0x01] n c.toNat tree stream
        t.pad
  outside : SameOutside s t d (containerSize l (treeSize tree) (ceil8 bits.length))
  frame : t = { s with mem := t.mem, pad := t.pad, bw := {
    active := false, base := BitVec.ofNat 32 (d + (28 + l + treeSize tree)),
    cap := BitVec.ofNat 32 (ceil8 bits.length + 1), bytes := BitVec.ofNat 32 (ceil8 bits.length), acc := 0, nbits := 0 } }

theorem writeContainer_effect {n d l cap : Nat} {tree : HTree} {c : Word} {p : List Byte} {bits : Bits} {s : State}
    (hp : memRead s s.srcAddr.toNat n = p) (hbits : bits = payloadBits s.code p) (hname : apart s.nameAddr.toNat l d cap)
    (hsrc : apart s.srcAddr.toNat n d cap) (hdst : s.fitsMem d cap) (hcap : cap < 2 ^ 32)
    (hroom : containerSize l (treeSize tree) (ceil8 bits.length) ≤ cap) :
    ContainerEffect s (writeContainer d n l tree c (ceil8 bits.length) s) d n l tree c bits := by
  have hsize : containerSize l (treeSize tree) (ceil8 bits.length) =
      28 + l + treeSize tree + ceil8 bits.length + 1 := by
    unfold containerSize
    omega
  have hmem := Nat.le_trans hdst s.params.memBytes_le
  have hname10 : apart s.nameAddr.toNat l d 10 := apart_shrink hname (by omega)
  have hframe := writeHeader_frame (n := n) (tree := tree) (c := c) hname10
  have hread : memRead (writeHeader d n l tree c s) (writeHeader d n l tree c s).srcAddr.toNat n = p := by
    rw [show (writeHeader d n l tree c s).srcAddr = s.srcAddr by rw [hframe],
      memRead_writeHeader hname10 (apart_shrink hsrc (by omega)), hp]
  have hcode : (writeHeader d n l tree c s).code = s.code := by rw [hframe]
  obtain ⟨-, henc⟩ := encodeInto_effect (writeHeader d n l tree c s).srcAddr.toNat n (d + 28 + l + treeSize tree)
    (ceil8 bits.length + 1) (writeHeader d n l tree c s) bits (by rw [hcode, hread, hbits]) (by omega) (Nat.le_refl _)
    (by omega)
  have hlen : (containerHead s.params.magic.toList s.typ.toNat (memRead s s.nameAddr.toNat l) [0x00, 0x01] n c.toNat
      tree).length = 28 + l + treeSize tree := by
    rw [containerHead_length]
    simp
    omega
  rw [← writeContainer, show d + 28 + l + treeSize tree = d + (28 + l + treeSize tree) by omega,
    writeHeader_eq d n l tree c s hname10, ← hlen] at henc
  refine ⟨⟨_, henc.packed, ?_⟩, ?_, ?_⟩
  · rw [hsize, ← hlen, henc.memRead_head, containerBytes]
  · rw [hsize, ← hlen]
    exact henc.outside_head
  · rw [← hlen]
    exact henc.frame_head

/-! ### The command -/

/-- COMPRESS's precheck as the command checks it (43_container.md R178). -/
theorem compressReady_iff (s : State) : compressReady s ↔ regionsOk .compress s = true ∧ (s.typ = 0 ∨ s.typ = 1) := by
  have hregions := regionsFit_two s s.srcRegion s.nameRegion s.dstRegion
  rw [regionsOk, readRegions, writeRegion, hregions]
  simp only [compressReady, State.srcRegion, State.nameRegion, State.dstRegion, and_assoc]

section
variable {s : State} {p : List Byte} {tr : HTree} {bits : Bits}
  (hp : p = memRead s s.srcAddr.toNat s.srcLen.toNat) (htr : tr = buildTree (countBytes clearedFreq p))
  (hbits : bits = payloadBits (genCode tr) p) (hready : compressReady s)
  (hroom : containerSize s.nameLen.toNat (treeSize tr) (ceil8 bits.length) ≤ s.dstCap.toNat)
include hp htr hbits hready hroom

/-- COMPRESS past its precheck, with room for the container (43_container.md R178). -/
theorem execCompress_eq :
    execCompress s = complete Op.compress
      (BitVec.ofNat 32 (containerSize s.nameLen.toNat (treeSize tr) (ceil8 bits.length)))
      { writeContainer s.dstAddr.toNat s.srcLen.toNat s.nameLen.toNat tr (crc32 p) (ceil8 bits.length)
          (compressTables p s) with
        crc := crc32 p, plenLo := s.srcLen, plenHi := 0 } := by
  obtain ⟨hregions, htyp⟩ := (compressReady_iff s).mp hready
  have hcap : ¬ (compressTables p s).dstCap.toNat <
      containerSize s.nameLen.toNat (treeSize tr) (ceil8 bits.length) := Nat.not_lt.mpr hroom
  rw [execCompress, if_neg (by simp [hregions]), if_neg (by tauto)]
  simp only [← hp, ← htr, codeBitCount_eq, ← hbits]
  rw [if_neg hcap, BitVec.ofNat_toNat, BitVec.setWidth_eq]
  rfl

/-- What COMPRESS's steps 3 to 5 do when its precheck holds and the container fits (43_container.md R178). -/
theorem compress_containerEffect :
    ContainerEffect (compressTables p s) (writeContainer s.dstAddr.toNat s.srcLen.toNat s.nameLen.toNat tr (crc32 p)
      (ceil8 bits.length) (compressTables p s)) s.dstAddr.toNat s.srcLen.toNat s.nameLen.toNat tr (crc32 p) bits := by
  obtain ⟨-, -, hdst, hsrc, hname, -⟩ := hready
  have hread : memRead (compressTables p s) (compressTables p s).srcAddr.toNat s.srcLen.toNat = p :=
    (memRead_compressTables p s s.srcAddr.toNat s.srcLen.toNat).trans hp.symm
  have hcode : bits = payloadBits (compressTables p s).code p := by rw [compressTables_code, ← htr, hbits]
  exact writeContainer_effect hread hcode hname hsrc hdst s.dstCap.isLt hroom

end

/-- Settles O52: the bytes are those of `ContainerEffect`; the tables are those of `compressTables`, the rest of the state is
in the two frames. -/
theorem compressWritesContainer : Obligations.CompressWritesContainer := by
  refine ⟨fun v n => ⟨bytesBE_length v n, fun _ hk => bytesBE_getElem? v hk⟩, ?_⟩
  intro s p tr bits hp htr hbits hready hroom
  have hexec := execCompress_eq hp htr hbits hready hroom
  obtain ⟨⟨stream, hpacked, hbytes⟩, hout, hframe⟩ := compress_containerEffect hp htr hbits hready hroom
  have hlen : p.length = s.srcLen.toNat := by rw [hp, memRead_length]
  have hbase : BitVec.ofNat 32 (s.dstAddr.toNat + (28 + s.nameLen.toNat + treeSize tr)) =
      s.dstAddr + BitVec.ofNat 32 (28 + s.nameLen.toNat + treeSize tr) := by
    rw [BitVec.ofNat_add, BitVec.ofNat_toNat, BitVec.setWidth_eq]
  rw [hbase] at hframe
  generalize writeContainer s.dstAddr.toNat s.srcLen.toNat s.nameLen.toNat tr (crc32 p) (ceil8 bits.length)
    (compressTables p s) = t at hexec hpacked hbytes hout hframe
  refine ⟨_, stream, hexec, ?_, hpacked, hout, ?_⟩
  · rw [hlen, ← memRead_compressTables p s]
    exact (memRead_of_mem (by rfl) (by rfl) _ _).trans hbytes
  · rw [hframe, htr]
    rfl

end Sys2Proof.Machine
end

section
/-! PROOFS. The bit writer's commands (40_bit_codec.md R98 to R105): each as its checks and then the shared operation it
runs, and the bits put between BW_INIT and BW_FINALIZE, packed, in the sink. -/

namespace Sys2Proof.Machine

/-! ### A command's checks -/

/-- A command that ended without an error has passed its check. -/
theorem check_passed {c : Prop} [Decidable c] {op : Byte} {e : ErrorCode} {s t : State} {r : Result}
    (h : (if c then raiseError op e s else r) = .next t) (hok : t.status.err = false) : ¬ c ∧ r = .next t := by
  split at h
  · cases h
    cases hok
  · exact ⟨‹_›, h⟩

/-- The region check of a command that names only a write region (20_memory.md R64). -/
theorem regionsFit_writeOnly (s : State) (w : Region) :
    regionsFit s.params [] (some w) = true ↔ s.fitsMem w.addr w.len := by
  rw [← inRange_iff]
  simp [regionsFit]

/-- The region check of a command that names only one read region (20_memory.md R64). -/
theorem regionsFit_readOnly (s : State) (r : Region) :
    regionsFit s.params [r] none = true ↔ s.fitsMem r.addr r.len := by
  rw [← inRange_iff]
  simp [regionsFit]

/-! ### BW_INIT -/

theorem regionsOk_bwInit (s : State) : regionsOk .bwInit s = true ↔ s.fitsMem s.dstAddr.toNat s.dstCap.toNat :=
  regionsFit_writeOnly s s.dstRegion

theorem execBwInit_next {s : State} (h : s.fitsMem s.dstAddr.toNat s.dstCap.toNat) :
    exec .bwInit s = complete Op.bwInit 0 (openWriter s.dstAddr s.dstCap s) :=
  if_pos ((regionsOk_bwInit s).mpr h)

theorem execBwInit_rangeError {s : State} (h : ¬ s.fitsMem s.dstAddr.toNat s.dstCap.toNat) :
    exec .bwInit s = raiseError Op.bwInit .rangeError s :=
  if_neg (mt (regionsOk_bwInit s).mp h)

/-- BW_INIT completes only by opening the writer. -/
theorem execBwInit_ok {s t : State} (h : exec .bwInit s = .next t) (hok : t.status.err = false) :
    t = (openWriter s.dstAddr s.dstCap s).completed Op.bwInit 0 := by
  by_cases hfit : s.fitsMem s.dstAddr.toNat s.dstCap.toNat
  · rw [execBwInit_next hfit] at h
    cases h
    rfl
  · rw [execBwInit_rangeError hfit] at h
    cases h
    cases hok

/-- Settles O40: the command is its region check, then `openWriter`. -/
theorem bwInitOpensWriter : Obligations.BwInitOpensWriter :=
  fun _ => ⟨execBwInit_next, execBwInit_rangeError⟩

/-! ### BW_PUT_BIT and BW_PUT_SYMBOL -/

theorem putBits_effect_of_fits {bits : Bits} {s : State} (h : s.bw.fits bits.length = true) :
    PutEffect s (putBits bits s) bits := by
  have hroom : s.bw.bytes.toNat + (s.bw.nbits.val + bits.length) / 8 ≤ s.bw.cap.toNat := of_decide_eq_true h
  exact putBits_effect bits s (by have := s.bw.cap.isLt; omega)

/-- A put, once completed, has changed MEM and three fields of BW beside STATUS and OUT_LEN. -/
theorem PutEffect.completed_frame {s t : State} {bits : Bits} (h : PutEffect s t bits) (op : Byte) :
    t.completed op t.bw.bytes = { s.completed op t.bw.bytes with mem := t.mem, bw := { s.bw with
      bytes := t.bw.bytes, acc := t.bw.acc, nbits := t.bw.nbits } } :=
  congrArg (State.completed · op t.bw.bytes) h.frame

theorem State.completed_writtenBits (s : State) (op : Byte) (k : Word) :
    (s.completed op k).writtenBits = s.writtenBits :=
  State.writtenBits_congr rfl rfl rfl

theorem immIsBit_iff (imm : Byte) : immIsBit imm = true ↔ imm = 0 ∨ imm = 1 := by simp [immIsBit]

section
variable {s t : State} {imm : Byte}

/-- BW_PUT_BIT past its checks (40_bit_codec.md R102). -/
theorem execBwPutBit_next (himm : imm = 0 ∨ imm = 1) (hactive : s.bw.active = true) (hfits : s.bw.fits 1 = true)
    (hsink : s.fitsMem s.bw.base.toNat s.bw.cap.toNat) :
    exec (.bwPutBit imm) s = complete Op.bwPutBit (putBit (immBit imm) s).bw.bytes (putBit (immBit imm) s) := by
  have hregions : regionsOk (.bwPutBit imm) s = true := (regionsFit_writeOnly s s.sinkRegion).mpr hsink
  rw [exec, execBwPutBit, if_neg (by simp [(immIsBit_iff imm).mpr himm]), if_neg (by simp [hactive]),
    if_neg (by simp [hfits]), if_neg (by simp [hregions])]

/-- BW_PUT_BIT completes only by putting its bit where it fits. -/
theorem execBwPutBit_ok (h : exec (.bwPutBit imm) s = .next t) (hok : t.status.err = false) :
    ∃ u, PutEffect s u [imm.getLsbD 0] ∧ t = u.completed Op.bwPutBit u.bw.bytes := by
  rw [exec, execBwPutBit] at h
  obtain ⟨-, h⟩ := check_passed h hok
  obtain ⟨-, h⟩ := check_passed h hok
  obtain ⟨hfits, h⟩ := check_passed h hok
  obtain ⟨-, h⟩ := check_passed h hok
  cases h
  exact ⟨_, putBits_effect_of_fits (bits := [immBit imm]) (by simpa using hfits), rfl⟩

/-- BW_PUT_BIT's errors in their order (40_bit_codec.md R102). -/
theorem execBwPutBit_errors :
    (¬ (imm = 0 ∨ imm = 1) → exec (.bwPutBit imm) s = .next (s.raised Op.bwPutBit .illegalCommand)) ∧
    (imm = 0 ∨ imm = 1 → s.bw.active = false → exec (.bwPutBit imm) s = .next (s.raised Op.bwPutBit .stateError)) ∧
    (imm = 0 ∨ imm = 1 → s.bw.active = true → s.bw.fits 1 = false →
      exec (.bwPutBit imm) s = .next (s.raised Op.bwPutBit .capacityError)) := by
  rw [exec, execBwPutBit, ← immIsBit_iff]
  refine ⟨fun himm => ?_, fun himm hactive => ?_, fun himm hactive hfits => ?_⟩
  · exact if_pos (by simpa using himm)
  · exact (if_neg (by simp [himm])).trans (if_pos (by simp [hactive]))
  · exact (if_neg (by simp [himm])).trans ((if_neg (by simp [hactive])).trans (if_pos (by simp [hfits])))

end

/-- A bit put into a partial byte with room (40_bit_codec.md R98). -/
theorem putBit_pending (b : Bool) {s : State} (h : s.bw.nbits.val < 7) :
    (putBit b s).bw.nbits.val = s.bw.nbits.val + 1 ∧
      (putBit b s).bw.acc.toNat = (2 * s.bw.acc.toNat + (if b then 1 else 0)) % 256 ∧
      (putBit b s).bw.bytes = s.bw.bytes ∧ ∀ x, (putBit b s).readByte x = s.readByte x := by
  rw [putBit_pend b s (by omega)]
  exact ⟨rfl, shiftIn_toNat _ b, rfl, fun _ => rfl⟩

/-- The eighth bit stores the byte (40_bit_codec.md R98). -/
theorem putBit_eighth (b : Bool) {s : State} (h : s.bw.nbits.val = 7) :
    (putBit b s).bw.nbits.val = 0 ∧ (putBit b s).bw.acc = 0 ∧ (putBit b s).bw.bytes = s.bw.bytes + 1 ∧
      ((putBit b s).readByte s.bw.next).toNat = (2 * s.bw.acc.toNat + (if b then 1 else 0)) % 256 ∧
      SameOutside s (putBit b s) s.bw.next 1 := by
  rw [putBit_store b s h]
  refine ⟨rfl, rfl, rfl, ?_, fun x hx => State.readByte_writeByte_other s _ (by omega)⟩
  exact (congrArg BitVec.toNat (State.readByte_writeByte_same s _ _)).trans (shiftIn_toNat _ b)

/-- Settles O41: past the checks the command is `putBit`, whose two cases are the partial byte and the whole one. -/
theorem bwPutBitAppends : Obligations.BwPutBitAppends := by
  intro s imm
  obtain ⟨hillegal, hstate, hcapacity⟩ := execBwPutBit_errors (s := s) (imm := imm)
  refine ⟨fun h0 h1 => hillegal (not_or.mpr ⟨h0, h1⟩), hstate,
    fun himm hactive hfull => hcapacity himm hactive (decide_eq_false (Nat.not_le.mpr hfull)),
    fun himm hactive hroom hsink => ?_⟩
  have hfits : s.bw.fits 1 = true := decide_eq_true hroom
  have hput : PutEffect s (putBit (immBit imm) s) [immBit imm] := putBits_effect_of_fits (bits := [immBit imm]) hfits
  have hbit : (if immBit imm then 1 else 0) = imm.toNat := by rcases himm with rfl | rfl <;> rfl
  refine ⟨_, execBwPutBit_next himm hactive hfits hsink, hput.completed_frame _,
    fun h => hbit ▸ putBit_pending (immBit imm) h, fun h => ?_⟩
  obtain ⟨hnbits, hacc, hbytes, hstored, houtside⟩ := putBit_eighth (immBit imm) h
  exact ⟨hnbits, hacc, (congrArg BitVec.toNat hbytes).trans (word_succ (by have := s.bw.cap.isLt; omega)),
    hbit ▸ hstored, houtside⟩

section
variable {s t : State} {v : Byte}

/-- BW_PUT_SYMBOL past its checks (40_bit_codec.md R103). -/
theorem execBwPutSymbol_next (hactive : s.bw.active = true) (hvalid : s.codeValid = true)
    (hcode : tableGet s.code v ≠ []) (hfits : s.bw.fits (tableGet s.code v).length = true)
    (hsink : s.fitsMem s.bw.base.toNat s.bw.cap.toNat) :
    exec (.bwPutSymbol v) s = complete Op.bwPutSymbol (putBits (tableGet s.code v) s).bw.bytes
      (putBits (tableGet s.code v) s) := by
  have hregions : regionsOk (.bwPutSymbol v) s = true := (regionsFit_writeOnly s s.sinkRegion).mpr hsink
  simp only [exec, execBwPutSymbol]
  rw [if_neg (by simp [hactive]), if_neg (by simp [hvalid]), if_neg (by simpa [immByte] using hcode),
    if_neg (by simp [immByte, hfits]), if_neg (by simp [hregions])]
  rfl

/-- BW_PUT_SYMBOL completes only by putting the value's code where it fits. -/
theorem execBwPutSymbol_ok (h : exec (.bwPutSymbol v) s = .next t) (hok : t.status.err = false) :
    ∃ u, PutEffect s u (tableGet s.code v) ∧ t = u.completed Op.bwPutSymbol u.bw.bytes := by
  rw [exec, execBwPutSymbol] at h
  obtain ⟨-, h⟩ := check_passed h hok
  obtain ⟨-, h⟩ := check_passed h hok
  obtain ⟨-, h⟩ := check_passed h hok
  obtain ⟨hfits, h⟩ := check_passed h hok
  obtain ⟨-, h⟩ := check_passed h hok
  cases h
  exact ⟨_, putBits_effect_of_fits (by simpa [immByte] using hfits), rfl⟩

/-- BW_PUT_SYMBOL's errors in their order (40_bit_codec.md R103). -/
theorem execBwPutSymbol_errors :
    (s.bw.active = false ∨ s.codeValid = false ∨ tableGet s.code v = [] →
      exec (.bwPutSymbol v) s = .next (s.raised Op.bwPutSymbol .stateError)) ∧
    (s.bw.active = true → s.codeValid = true → tableGet s.code v ≠ [] → s.bw.fits (tableGet s.code v).length = false →
      exec (.bwPutSymbol v) s = .next (s.raised Op.bwPutSymbol .capacityError)) := by
  simp only [exec, execBwPutSymbol]
  refine ⟨fun hstate => ?_, fun hactive hvalid hcode hfits => ?_⟩
  · by_cases hactive : s.bw.active = true
    · rw [if_neg (by simp [hactive])]
      by_cases hvalid : s.codeValid = true
      · have hcode : tableGet s.code v = [] := by simpa [hactive, hvalid] using hstate
        rw [if_neg (by simp [hvalid])]
        exact if_pos (by simp [immByte, hcode])
      · exact if_pos (by simpa using hvalid)
    · exact if_pos (by simpa using hactive)
  · rw [if_neg (by simp [hactive]), if_neg (by simp [hvalid]), if_neg (by simpa [immByte] using hcode)]
    exact if_pos (by simp [immByte, hfits])

end

/-- Settles O42: past the checks the command puts the code's bits, which is `PutEffect`. -/
theorem bwPutSymbolAppendsCode : Obligations.BwPutSymbolAppendsCode := by
  intro s v
  obtain ⟨hstate, hcapacity⟩ := execBwPutSymbol_errors (s := s) (v := v)
  refine ⟨hstate, fun hactive hvalid hcode hfull =>
    hcapacity hactive hvalid hcode (decide_eq_false (Nat.not_le.mpr hfull)), fun hactive hvalid hcode hroom hsink => ?_⟩
  have hfits : s.bw.fits (tableGet s.code v).length = true := decide_eq_true hroom
  have hput := putBits_effect_of_fits hfits
  exact ⟨_, execBwPutSymbol_next hactive hvalid hcode hfits hsink, (State.completed_writtenBits ..).trans hput.written,
    hput.count, hput.outside, hput.completed_frame _⟩

/-! ### BW_FINALIZE -/

/-- The state BW_FINALIZE completes from: the writer flushed, the padding in PAD (40_bit_codec.md R104). -/
def finalized (s : State) : State := { flushWriter s with pad := BitVec.ofNat 8 s.bw.pad }

theorem BitWriter.pad_toNat (w : BitWriter) : (BitVec.ofNat 8 w.pad).toNat = w.pad := by
  have hlt := w.nbits.isLt
  rw [BitVec.toNat_ofNat]
  refine Nat.mod_eq_of_lt ?_
  unfold BitWriter.pad
  split <;> omega

theorem finalized_active (s : State) : (finalized s).bw.active = false := by
  rw [finalized, flushWriter]
  split <;> rfl

theorem flushWriter_effect_of_fits {s : State} (h : s.bw.flushFits = true) : FlushEffect s (flushWriter s) := by
  have hroom : s.bw.nbits.val = 0 ∨ s.bw.bytes.toNat < s.bw.cap.toNat := of_decide_eq_true h
  have hcap := s.bw.cap.isLt
  have hbytes := s.bw.bytes.isLt
  have hbits := s.bw.nbits.isLt
  exact flushWriter_effect s (by omega)

section
variable {s t : State}

/-- BW_FINALIZE past its checks (40_bit_codec.md R104). -/
theorem execBwFinalize_next (hactive : s.bw.active = true) (hfits : s.bw.flushFits = true)
    (hsink : s.fitsMem s.bw.base.toNat s.bw.cap.toNat) :
    exec .bwFinalize s = complete Op.bwFinalize (finalized s).bw.bytes (finalized s) := by
  have hregions : regionsOk .bwFinalize s = true := (regionsFit_writeOnly s s.sinkRegion).mpr hsink
  rw [exec, execBwFinalize, if_neg (by simp [hactive]), if_neg (by simp [hfits]), if_neg (by simp [hregions])]
  rfl

/-- BW_FINALIZE completes only where the partial byte fits. -/
theorem execBwFinalize_ok (h : exec .bwFinalize s = .next t) (hok : t.status.err = false) :
    s.bw.flushFits = true ∧ t = (finalized s).completed Op.bwFinalize (finalized s).bw.bytes := by
  rw [exec, execBwFinalize] at h
  obtain ⟨-, h⟩ := check_passed h hok
  obtain ⟨hfits, h⟩ := check_passed h hok
  obtain ⟨-, h⟩ := check_passed h hok
  cases h
  exact ⟨by simpa using hfits, rfl⟩

/-- BW_FINALIZE's errors in their order (40_bit_codec.md R104). -/
theorem execBwFinalize_errors :
    (s.bw.active = false → exec .bwFinalize s = .next (s.raised Op.bwFinalize .stateError)) ∧
    (s.bw.active = true → s.bw.flushFits = false → exec .bwFinalize s = .next (s.raised Op.bwFinalize .capacityError)) := by
  rw [exec, execBwFinalize]
  refine ⟨fun hactive => if_pos (by simp [hactive]), fun hactive hfits => ?_⟩
  exact (if_neg (by simp [hactive])).trans (if_pos (by simp [hfits]))

/-- Finalization with no bits pending (40_bit_codec.md R104). -/
theorem finalized_whole (h : s.bw.nbits.val = 0) :
    (finalized s).pad = 0 ∧ (finalized s).bw.bytes = s.bw.bytes ∧ ∀ x, (finalized s).readByte x = s.readByte x := by
  rw [finalized, flushWriter, if_pos h, BitWriter.pad, if_pos h]
  exact ⟨rfl, rfl, fun _ => rfl⟩

/-- Finalization with bits pending (40_bit_codec.md R104). -/
theorem finalized_partial (h : 0 < s.bw.nbits.val) :
    (finalized s).pad.toNat = 8 - s.bw.nbits.val ∧ (finalized s).bw.bytes = s.bw.bytes + 1 ∧
      ((finalized s).readByte s.bw.next).toNat = (s.bw.acc.toNat * 2 ^ (8 - s.bw.nbits.val)) % 256 ∧
      SameOutside s (finalized s) s.bw.next 1 := by
  have hpad : s.bw.pad = 8 - s.bw.nbits.val := if_neg (by omega)
  rw [finalized, flushWriter, if_neg (by omega)]
  refine ⟨(BitWriter.pad_toNat s.bw).trans hpad, rfl, ?_, fun x hx => State.readByte_writeByte_other s _ (by omega)⟩
  refine (congrArg BitVec.toNat (State.readByte_writeByte_same s _ _)).trans ?_
  rw [BitVec.toNat_shiftLeft, Nat.shiftLeft_eq]

end

/-- Settles O43: past the checks the command is `finalized`, with or without a partial byte to store. -/
theorem bwFinalizeFlushes : Obligations.BwFinalizeFlushes := by
  intro s
  obtain ⟨hstate, hcapacity⟩ := execBwFinalize_errors (s := s)
  refine ⟨hstate, fun hactive hpending hfull => hcapacity hactive (decide_eq_false (by omega)),
    fun hactive hroom hsink => ?_⟩
  have hfits : s.bw.flushFits = true := decide_eq_true hroom
  refine ⟨_, execBwFinalize_next hactive hfits hsink, ?_, finalized_whole, fun h => ?_⟩
  · exact congrArg (fun u : State => { u.completed Op.bwFinalize (finalized s).bw.bytes with pad := (finalized s).pad })
      (flushWriter_effect_of_fits hfits).frame
  · obtain ⟨hpad, hbytes, hstored, houtside⟩ := finalized_partial h
    exact ⟨hpad, (congrArg BitVec.toNat hbytes).trans (word_succ (by have := s.bw.cap.isLt; omega)), hstored, houtside⟩

/-! ### The bits put since BW_INIT -/

/-- The writer's sink is at `base`, and `bits` is what was put into it. -/
structure State.Wrote (s : State) (base : Word) (bits : Bits) : Prop where
  base : s.bw.base = base
  count : 8 * s.bw.bytes.toNat + s.bw.nbits.val = bits.length
  written : s.writtenBits = bits

theorem openWriter_wrote (base cap : Word) (s : State) (op : Byte) (k : Word) :
    ((openWriter base cap s).completed op k).Wrote base [] :=
  ⟨rfl, rfl, openWriter_writtenBits base cap s⟩

/-- A completed put appends its bits (40_bit_codec.md R102, R103). -/
theorem State.Wrote.put {s t : State} {base : Word} {bits more : Bits} (h : s.Wrote base bits) (hput : PutEffect s t more)
    (op : Byte) (k : Word) : (t.completed op k).Wrote base (bits ++ more) where
  base := hput.base.trans h.base
  count := by
    rw [List.length_append, ← h.count]
    exact hput.count
  written := by rw [State.completed_writtenBits, hput.written, h.written]

/-- What leaves BW and the sink's bytes alone leaves the bits put. -/
theorem State.Wrote.congr {s t : State} {base : Word} {bits : Bits} (h : s.Wrote base bits) (hbw : t.bw = s.bw)
    (hsink : ∀ x, s.bw.base.toNat ≤ x → x < s.bw.base.toNat + s.bw.bytes.toNat → t.readByte x = s.readByte x) :
    t.Wrote base bits where
  base := by rw [hbw, h.base]
  count := by rw [hbw, h.count]
  written := by rw [← h.written, State.writtenBits, State.writtenBits, hbw, memRead_congr hsink]

theorem PutRun.wrote {s t : State} {base : Word} {bits : Bits} (h : PutRun s bits t) (hs : s.Wrote base []) :
    t.Wrote base bits := by
  induction h with
  | opened => exact hs
  | bit bits t u imm _ hexec hok ih =>
    obtain ⟨v, hput, rfl⟩ := execBwPutBit_ok hexec hok
    exact ih.put hput _ _
  | symbol bits t u v _ hexec hok ih =>
    obtain ⟨w, hput, rfl⟩ := execBwPutSymbol_ok hexec hok
    exact ih.put hput _ _
  | between bits t u _ hbw hsink ih => exact ih.congr hbw hsink

/-- A completed finalization has packed the bits put (40_bit_codec.md R105, 30_encoding.md R91). -/
theorem State.Wrote.packedAs {s t : State} {base : Word} {bits : Bits} (h : s.Wrote base bits)
    (hfits : s.bw.flushFits = true) (ht : t = (finalized s).completed Op.bwFinalize (finalized s).bw.bytes) :
    PackedAs (memRead t base.toNat t.outLen.toNat) bits t.pad.toNat := by
  have hflush := flushWriter_effect_of_fits hfits
  have hread : memRead t base.toNat t.outLen.toNat =
      memRead (flushWriter s) s.bw.base.toNat (flushWriter s).bw.bytes.toNat := by
    rw [ht, ← h.base]
    exact memRead_of_mem (by rfl) (by rfl) _ _
  have hpad : t.pad.toNat = s.bw.pad := by
    rw [ht]
    exact s.bw.pad_toNat
  have hcount := h.count
  have hbits := s.bw.nbits.isLt
  rw [hread, hpad]
  refine ⟨?_, ?_, ?_⟩
  · rw [memRead_length, hflush.bytes]
    omega
  · unfold BitWriter.pad
    split <;> omega
  · rw [← h.written]
    exact hflush.packed

/-! ### A run of puts alone -/

/-- The command that puts a bit, or the code of a value. -/
def putCommand : Bool ⊕ Byte → Instr := Sum.elim (fun b => .bwPutBit (if b then 1 else 0)) .bwPutSymbol

/-- The bits it puts. -/
def putItem (c : CodeTable) : Bool ⊕ Byte → Bits := Sum.elim (fun b => [b]) (tableGet c)

/-- From `s`, BW_INIT and then puts of `bits` have led to `t`: the writer is open on the destination, and nothing else has
changed but STATUS and the bytes completed. -/
structure Writing (s t : State) (bits : Bits) : Prop where
  frame : t = { s with outLen := t.outLen, seq := t.seq, status := t.status, mem := t.mem, bw := {
    active := true, base := s.dstAddr, cap := s.dstCap, bytes := t.bw.bytes, acc := t.bw.acc, nbits := t.bw.nbits } }
  wrote : t.Wrote s.dstAddr bits
  outside : SameOutside s t s.dstAddr.toNat t.bw.bytes.toNat

section
variable {s t : State} {bits : Bits} (h : Writing s t bits)
include h

theorem Writing.sink (hdst : s.fitsMem s.dstAddr.toNat s.dstCap.toNat) :
    t.fitsMem t.bw.base.toNat t.bw.cap.toNat := by
  rw [h.frame]
  exact hdst

theorem Writing.active : t.bw.active = true := by rw [h.frame]

theorem Writing.cap : t.bw.cap = s.dstCap := by rw [h.frame]

/-- `k` more bits fit when all of them, packed, fit (40_bit_codec.md R99). -/
theorem Writing.fits {k : Nat} (hroom : (bits.length + k) / 8 ≤ s.dstCap.toNat) : t.bw.fits k = true := by
  have hcount := h.wrote.count
  rw [BitWriter.fits, h.cap]
  exact decide_eq_true (by omega)

/-- The partial byte fits when all the bits, packed, fit (40_bit_codec.md R99). -/
theorem Writing.flushFits (hroom : (bits.length + 7) / 8 ≤ s.dstCap.toNat) : t.bw.flushFits = true := by
  have hcount := h.wrote.count
  rw [BitWriter.flushFits, h.cap]
  exact decide_eq_true (by omega)

/-- Finalization stays among the bytes packed (40_bit_codec.md R104). -/
theorem Writing.finalized_outside (hfits : t.bw.flushFits = true) :
    SameOutside s (finalized t) s.dstAddr.toNat (finalized t).bw.bytes.toNat := by
  have hflush := flushWriter_effect_of_fits hfits
  have hbytes : (finalized t).bw.bytes.toNat = t.bw.bytes.toNat + (t.bw.nbits.val + 7) / 8 := hflush.bytes
  have hnew : SameOutside t (finalized t) (t.bw.base.toNat + t.bw.bytes.toNat) ((t.bw.nbits.val + 7) / 8) :=
    hflush.outside
  rw [h.wrote.base] at hnew
  exact (h.outside.grow (by omega)).trans (hnew.mono (Nat.le_add_right ..) (by omega))

theorem Writing.put {u : State} {more : Bits} (hput : PutEffect t u more) (op : Byte) :
    Writing s (u.completed op u.bw.bytes) (bits ++ more) where
  frame := by
    rw [hput.completed_frame op, h.frame]
    rfl
  wrote := h.wrote.put hput op _
  outside := by
    have hle := hput.bytes_le
    have hnew := hput.outside
    rw [h.wrote.base] at hnew
    exact (h.outside.grow hle).trans (hnew.mono (Nat.le_add_right ..) (by omega))

/-- One put with room for its bits completes. -/
theorem Writing.exec_put {item : Bool ⊕ Byte} (hdst : s.fitsMem s.dstAddr.toNat s.dstCap.toNat)
    (hcoded : ∀ v, item = .inr v → s.codeValid = true ∧ tableGet s.code v ≠ [])
    (hroom : (bits.length + (putItem s.code item).length) / 8 ≤ s.dstCap.toNat) :
    ∃ u, exec (putCommand item) t = .next u ∧ Writing s u (bits ++ putItem s.code item) := by
  have hfits := h.fits hroom
  cases item with
  | inl b =>
    have hbit : immBit (if b then 1 else 0) = b := by cases b <;> rfl
    have hnext := execBwPutBit_next (imm := if b then 1 else 0) (by cases b <;> simp) h.active hfits (h.sink hdst)
    rw [hbit] at hnext
    exact ⟨_, hnext, h.put (putBits_effect_of_fits (bits := [b]) hfits) _⟩
  | inr v =>
    obtain ⟨hvalid, hcode⟩ := hcoded v rfl
    have hvalidT : t.codeValid = true := by rw [h.frame]; exact hvalid
    have hcodeT : t.code = s.code := by rw [h.frame]
    have hnext := execBwPutSymbol_next (v := v) h.active hvalidT (hcodeT ▸ hcode) (hcodeT ▸ hfits) (h.sink hdst)
    rw [hcodeT] at hnext
    exact ⟨_, hnext, h.put (putBits_effect_of_fits hfits) _⟩

end

/-- Puts one after the other complete as long as their bits, packed, fit. -/
theorem Writing.run_puts {s : State} (hdst : s.fitsMem s.dstAddr.toNat s.dstCap.toNat) {puts : List (Bool ⊕ Byte)}
    (hcoded : ∀ v, .inr v ∈ puts → s.codeValid = true ∧ tableGet s.code v ≠ []) {t : State} {bits : Bits}
    (h : Writing s t bits) (hroom : (bits ++ puts.flatMap (putItem s.code)).length / 8 ≤ s.dstCap.toNat)
    (after : List Instr) :
    ∃ u, runCommands (puts.map putCommand ++ after) t = runCommands after u ∧
      Writing s u (bits ++ puts.flatMap (putItem s.code)) := by
  induction puts generalizing t bits with
  | nil => exact ⟨t, rfl, by simpa using h⟩
  | cons item puts ih =>
    rw [List.flatMap_cons, ← List.append_assoc] at hroom ⊢
    obtain ⟨u, hexec, hu⟩ := h.exec_put (item := item) hdst (fun v hv => hcoded v (by simp [hv]))
      (by simp only [List.length_append] at hroom; omega)
    obtain ⟨w, hrun, hw⟩ := ih (fun v hv => hcoded v (List.mem_cons_of_mem _ hv)) hu hroom
    refine ⟨w, ?_, hw⟩
    simp only [List.map_cons, List.cons_append, runCommands, hexec, hrun]

/-- BW_INIT begins a run of puts. -/
theorem openWriter_writing (s : State) :
    Writing s ((openWriter s.dstAddr s.dstCap s).completed Op.bwInit 0) [] :=
  ⟨rfl, openWriter_wrote .., fun _ _ => rfl⟩

/-- Settles O44: the bits put are the state's `Wrote`, which finalization packs; a run of puts alone is `Writing`. -/
theorem writerPacksItsBits : Obligations.WriterPacksItsBits := by
  intro s
  refine ⟨fun t u x bits hinit hok hrun hfinal hokX => ?_, fun puts bits hdst hcoded hbits hroom => ?_⟩
  · obtain rfl := execBwInit_ok hinit hok
    obtain ⟨hfits, hx⟩ := execBwFinalize_ok hfinal hokX
    exact (hrun.wrote (openWriter_wrote ..)).packedAs hfits hx
  · have hbits : bits = [] ++ puts.flatMap (putItem s.code) := hbits
    obtain ⟨u, hrun, hu⟩ := (openWriter_writing s).run_puts hdst hcoded (by rw [← hbits]; omega) [.bwFinalize]
    rw [← hbits] at hu
    have hfits := hu.flushFits hroom
    have hexec : runCommands (.bwInit :: puts.map putCommand ++ [.bwFinalize]) s =
        .next ((finalized u).completed Op.bwFinalize (finalized u).bw.bytes) := by
      simp only [List.cons_append, runCommands, execBwInit_next hdst, complete, hrun,
        execBwFinalize_next hu.active hfits (hu.sink hdst)]
    exact ⟨_, hexec, hu.wrote.packedAs hfits rfl, hu.finalized_outside hfits, rfl, finalized_active u⟩

end Sys2Proof.Machine
end

section
/-! PROOFS. The bit reader's commands (40_bit_codec.md R100, R106 to R108). -/

namespace Sys2Proof.Machine

theorem regionsOk_brInit (s : State) : regionsOk .brInit s = true ↔ s.fitsMem s.srcAddr.toNat s.srcLen.toNat :=
  regionsFit_readOnly s s.srcRegion

/-- Settles O45: the command is its region check, then `openReader`. -/
theorem brInitOpensReader : Obligations.BrInitOpensReader :=
  fun s => ⟨fun h => if_pos ((regionsOk_brInit s).mpr h), fun h => if_neg (mt (regionsOk_brInit s).mp h)⟩

theorem getBit_eq_none_iff (s : State) : getBit s = none ↔ s.br.len ≤ s.br.pos := by
  unfold getBit
  split <;> simp [*]

section
variable {s : State} (hactive : s.br.active = true) (hsource : s.fitsMem s.br.base.toNat s.br.len.toNat)
include hactive hsource

/-- BR_GET_BIT at the end of the source (40_bit_codec.md R107). -/
theorem execBrGetBit_exhausted (h : getBit s = none) : exec .brGetBit s = raiseError Op.brGetBit .exhausted s := by
  have hregions : regionsOk .brGetBit s = true := (regionsFit_readOnly s s.sourceRegion).mpr hsource
  rw [exec, execBrGetBit, if_neg (by simp [hactive]), if_neg (by simp [hregions]), h]

/-- BR_GET_BIT before the end of the source (40_bit_codec.md R107). -/
theorem execBrGetBit_next {b : Bool} {t : State} (h : getBit s = some (b, t)) :
    exec .brGetBit s = complete Op.brGetBit 0 { t with resultLo := if b then 1 else 0, resultHi := 0 } := by
  have hregions : regionsOk .brGetBit s = true := (regionsFit_readOnly s s.sourceRegion).mpr hsource
  rw [exec, execBrGetBit, if_neg (by simp [hactive]), if_neg (by simp [hregions]), h]

end

/-- Settles O46: past its checks the command is `getBit`, which gives the first of the bits left. -/
theorem brGetBitReadsNextBit : Obligations.BrGetBitReadsNextBit := by
  intro s
  refine ⟨fun hidle => if_pos (by simp [hidle]), fun hactive hsource hend => ?_, fun hactive hsource hmore => ?_⟩
  · exact execBrGetBit_exhausted hactive hsource ((getBit_eq_none_iff s).mpr (BitVec.le_of_eq hend.symm))
  · rcases getBit_spec s with ⟨hnone, -⟩ | ⟨b, t, rest, hbit, hleft, -, -, hconsumed, hframe⟩
    · exact absurd ((getBit_eq_none_iff s).mp hnone) (BitVec.not_le.mpr hmore)
    · have hget : s.sourceBits[s.br.consumed]? = some b := by
        rw [← List.head?_drop, ← State.bitsLeft, hleft, List.head?_cons]
      refine ⟨_, b, execBrGetBit_next hactive hsource hbit, hget, rfl, hconsumed, ?_⟩
      exact congrArg (fun u : State => { u.completed Op.brGetBit 0 with resultLo := if b then 1 else 0, resultHi := 0 })
        hframe

end Sys2Proof.Machine
end

section
/-! PROOFS. Whole payloads (40_bit_codec.md R109 to R116): ENCODE_PAYLOAD writes the packed codes, DECODE_PAYLOAD walks TREE
over a bitstream, and the second undoes the first. -/

namespace Sys2Proof.Machine

/-! ### The source and the destination -/

/-- The region check of a command that reads (SRC_ADDR, SRC_LEN) and writes (DST_ADDR, DST_CAP) (20_memory.md R64, R65). -/
def State.srcDstOk (s : State) : Prop :=
  s.fitsMem s.srcAddr.toNat s.srcLen.toNat ∧ s.fitsMem s.dstAddr.toNat s.dstCap.toNat ∧
    apart s.srcAddr.toNat s.srcLen.toNat s.dstAddr.toNat s.dstCap.toNat

theorem regionsOk_encodePayload (s : State) : regionsOk .encodePayload s = true ↔ s.srcDstOk :=
  regionsFit_one s s.srcRegion s.dstRegion

theorem regionsOk_decodePayload (s : State) : regionsOk .decodePayload s = true ↔ s.srcDstOk :=
  regionsFit_one s s.srcRegion s.dstRegion

/-! ### ENCODE_PAYLOAD -/

theorem allCoded_iff (c : CodeTable) (p : List Byte) : allCoded c p = true ↔ ∀ v ∈ p, tableGet c v ≠ [] := by
  simp [allCoded, Nat.one_le_iff_ne_zero]

section
variable {s t : State} {p : List Byte} {bits : Bits} (hp : p = memRead s s.srcAddr.toNat s.srcLen.toNat)
  (hbits : bits = payloadBits s.code p)
include hp hbits

/-- ENCODE_PAYLOAD past its checks (40_bit_codec.md R109, R111). -/
theorem execEncodePayload_next (hvalid : s.codeValid = true) (hregions : s.srcDstOk)
    (hcoded : ∀ v ∈ p, tableGet s.code v ≠ []) (hroom : ceil8 bits.length + 1 ≤ s.dstCap.toNat) :
    ∃ u, exec .encodePayload s = complete Op.encodePayload (BitVec.ofNat 32 (ceil8 bits.length + 1)) u ∧
      EncodeEffect s u s.dstAddr.toNat s.dstCap.toNat bits := by
  obtain ⟨hcount, henc⟩ := encodeInto_effect s.srcAddr.toNat s.srcLen.toNat s.dstAddr.toNat s.dstCap.toNat s bits
    (by rw [hbits, hp]) s.dstAddr.isLt hroom s.dstCap.isLt
  refine ⟨_, ?_, henc⟩
  have hall : allCoded s.code p = true := (allCoded_iff s.code p).mpr hcoded
  rw [exec, execEncodePayload, ← hp, codeBitCount_eq, ← hbits, if_neg (by simp [hvalid]),
    if_neg (by simp [(regionsOk_encodePayload s).mpr hregions]), if_neg (by simp [hall]), if_neg (Nat.not_lt.mpr hroom),
    ← hcount]

/-- ENCODE_PAYLOAD completes only past its checks. -/
theorem execEncodePayload_ok (h : exec .encodePayload s = .next t) (hok : t.status.err = false) :
    s.codeValid = true ∧ s.srcDstOk ∧ (∀ v ∈ p, tableGet s.code v ≠ []) ∧ ceil8 bits.length + 1 ≤ s.dstCap.toNat := by
  rw [exec, execEncodePayload, ← hp, codeBitCount_eq, ← hbits] at h
  obtain ⟨hvalid, h⟩ := check_passed h hok
  obtain ⟨hregions, h⟩ := check_passed h hok
  obtain ⟨hcoded, h⟩ := check_passed h hok
  obtain ⟨hroom, -⟩ := check_passed h hok
  exact ⟨by simpa using hvalid, (regionsOk_encodePayload s).mp (by simpa using hregions),
    (allCoded_iff s.code p).mp (by simpa using hcoded), Nat.not_lt.mp hroom⟩

/-- ENCODE_PAYLOAD's errors in their order (40_bit_codec.md R111). -/
theorem execEncodePayload_errors :
    (s.codeValid = false → exec .encodePayload s = .next (s.raised Op.encodePayload .stateError)) ∧
    (s.codeValid = true → ¬ s.srcDstOk → exec .encodePayload s = .next (s.raised Op.encodePayload .rangeError)) ∧
    (s.codeValid = true → s.srcDstOk → (∃ v ∈ p, tableGet s.code v = []) →
      exec .encodePayload s = .next (s.raised Op.encodePayload .stateError)) ∧
    (s.codeValid = true → s.srcDstOk → (∀ v ∈ p, tableGet s.code v ≠ []) → s.dstCap.toNat < ceil8 bits.length + 1 →
      exec .encodePayload s = .next (s.raised Op.encodePayload .capacityError)) := by
  rw [exec, execEncodePayload, ← hp, codeBitCount_eq, ← hbits]
  refine ⟨fun hvalid => ?_, fun hvalid hregions => ?_, fun hvalid hregions hcoded => ?_,
    fun hvalid hregions hcoded hroom => ?_⟩
  · rw [if_pos (by simp [hvalid])]
    rfl
  · rw [if_neg (by simp [hvalid]), if_pos (by simpa using mt (regionsOk_encodePayload s).mp hregions)]
    rfl
  · have hall : ¬ allCoded s.code p = true := by
      rw [allCoded_iff]
      push Not
      exact hcoded
    rw [if_neg (by simp [hvalid]), if_neg (by simp [(regionsOk_encodePayload s).mpr hregions]), if_pos (by simpa using hall)]
    rfl
  · have hall : allCoded s.code p = true := (allCoded_iff s.code p).mpr hcoded
    rw [if_neg (by simp [hvalid]), if_neg (by simp [(regionsOk_encodePayload s).mpr hregions]), if_neg (by simp [hall]),
      if_pos hroom]
    rfl

end

/-- Settles O47: the errors are `execEncodePayload_errors`; past the checks, what the command leaves is `EncodeEffect`. -/
theorem encodePayloadWritesBitstream : Obligations.EncodePayloadWritesBitstream := by
  intro s p bits hp hbits
  obtain ⟨hinvalid, hrange, huncoded, hcapacity⟩ := execEncodePayload_errors hp hbits
  refine ⟨hinvalid, hrange, fun hvalid hsrc hdst hapart => ⟨huncoded hvalid ⟨hsrc, hdst, hapart⟩,
    hcapacity hvalid ⟨hsrc, hdst, hapart⟩, fun hcoded hroom => ?_⟩⟩
  obtain ⟨u, hexec, henc⟩ := execEncodePayload_next hp hbits hvalid ⟨hsrc, hdst, hapart⟩ hcoded hroom
  refine ⟨_, hexec, ?_, henc.padByte, henc.outside, ?_⟩
  · rw [← ceil8, memRead_of_mem (State.completed_mem ..) (State.completed_memDraw ..)]
    exact henc.packed
  · have hframe := henc.frame
    rw [BitVec.ofNat_toNat, BitVec.setWidth_eq, BitVec.ofNat_toNat, BitVec.setWidth_eq] at hframe
    exact congrArg (State.completed · Op.encodePayload _) hframe

/-! ### DECODE_PAYLOAD -/

theorem decodeReady_iff (s : State) :
    decodeReady s ↔ s.srcDstOk ∧ 1 ≤ s.srcLen.toNat ∧ s.plen ≤ s.dstCap.toNat := by
  unfold decodeReady State.srcDstOk
  tauto

section
variable {s : State} {tr : HTree} (htree : s.tree = some tr)
include htree

/-- DECODE_PAYLOAD's precheck errors in their order (40_bit_codec.md R114). -/
theorem execDecodePayload_errors :
    (¬ s.srcDstOk → exec .decodePayload s = .next (s.raised Op.decodePayload .rangeError)) ∧
    (s.srcDstOk → s.srcLen.toNat = 0 → exec .decodePayload s = .next (s.raised Op.decodePayload .corruptPayload)) ∧
    (s.srcDstOk → s.srcLen.toNat ≠ 0 → s.dstCap.toNat < s.plen →
      exec .decodePayload s = .next (s.raised Op.decodePayload .capacityError)) := by
  rw [exec, execDecodePayload, htree]
  refine ⟨fun hregions => ?_, fun hregions hlen => ?_, fun hregions hlen hcap => ?_⟩
  · exact if_pos (by simpa using mt (regionsOk_decodePayload s).mp hregions)
  · exact (if_neg (by simp [(regionsOk_decodePayload s).mpr hregions])).trans (if_pos hlen)
  · exact (if_neg (by simp [(regionsOk_decodePayload s).mpr hregions])).trans ((if_neg hlen).trans (if_pos hcap))

end

/-- decode_into as DECODE_PAYLOAD calls it, when the walks succeed (40_bit_codec.md R112). -/
theorem decodeInto_ready {tr : HTree} {s : State} (hready : decodeReady s) {vs : List Byte} {rest : Bits}
    (hwalks : tr.decodeBits s.plen (unpackBits (memRead s s.srcAddr.toNat (s.srcLen.toNat - 1))) = some (vs, rest)) :
    ∃ u, decodeInto tr s.srcAddr.toNat s.srcLen.toNat s.dstAddr.toNat s.plen s =
        some (s.readByte (s.srcAddr.toNat + s.srcLen.toNat - 1), u) ∧
      memRead u s.dstAddr.toNat s.plen = vs ∧ SameOutside s u s.dstAddr.toNat s.plen ∧
      u.br.consumed + rest.length = 8 * (s.srcLen.toNat - 1) ∧
      u = { s with mem := u.mem, br := {
        active := true, base := s.srcAddr, len := s.srcLen - 1, pos := u.br.pos, bit := u.br.bit } } := by
  obtain ⟨⟨hsrc, -, hapart⟩, hlen, hcap⟩ := (decodeReady_iff s).mp hready
  have hshrunk := apart_shrink hapart hcap
  rcases decodeInto_spec tr _ _ _ _ s hlen (Nat.le_trans hsrc s.params.memBytes_le) hshrunk with ⟨-, hnone⟩ |
    ⟨vs', rest', u, hsome, hdec, hvs, hstore, -, hconsumed, hframe⟩
  · rw [hwalks] at hnone
    cases hnone
  · rw [hwalks] at hdec
    cases hdec
    have hbase : BitVec.ofNat 32 s.srcAddr.toNat = s.srcAddr := by rw [BitVec.ofNat_toNat, BitVec.setWidth_eq]
    have hrest : BitVec.ofNat 32 (s.srcLen.toNat - 1) = s.srcLen - 1 := by bv_omega
    rw [hbase, hrest] at hframe
    refine ⟨u, hsome, ?_, decodeInto_outside hsome hlen hsrc hshrunk, hconsumed, hframe⟩
    rw [memRead_of_mem hstore (by rw [hframe, memWrite_eq]), ← hvs]
    exact memRead_memWrite_same s s.dstAddr.toNat vs

/-- decode_into as DECODE_PAYLOAD calls it, when the bits run out (40_bit_codec.md R113). -/
theorem decodeInto_ready_end {tr : HTree} {s : State} (hready : decodeReady s)
    (hwalks : tr.decodeBits s.plen (unpackBits (memRead s s.srcAddr.toNat (s.srcLen.toNat - 1))) = none) :
    decodeInto tr s.srcAddr.toNat s.srcLen.toNat s.dstAddr.toNat s.plen s = none := by
  obtain ⟨⟨hsrc, -, hapart⟩, hlen, hcap⟩ := (decodeReady_iff s).mp hready
  rcases decodeInto_spec tr _ _ _ _ s hlen (Nat.le_trans hsrc s.params.memBytes_le) (apart_shrink hapart hcap) with
    ⟨hnone, -⟩ | ⟨vs, rest, u, -, hdec, -⟩
  · exact hnone
  · rw [hwalks] at hdec
    cases hdec

section
variable {s : State} {tr : HTree} (htree : s.tree = some tr) (hready : decodeReady s)
include htree hready

/-- DECODE_PAYLOAD past its prechecks, when decode_into succeeds (40_bit_codec.md R114). -/
theorem execDecodePayload_next {b : Byte} {u : State}
    (hdec : decodeInto tr s.srcAddr.toNat s.srcLen.toNat s.dstAddr.toNat s.plen s = some (b, u)) :
    exec .decodePayload s = complete Op.decodePayload s.plenLo { u with pad := b } := by
  obtain ⟨hregions, hlen, hcap⟩ := (decodeReady_iff s).mp hready
  simp only [exec, execDecodePayload, htree, hdec]
  rw [if_neg (by simp [(regionsOk_decodePayload s).mpr hregions]), if_neg (by omega), if_neg (Nat.not_lt.mpr hcap)]

/-- DECODE_PAYLOAD past its prechecks, when decode_into runs out of bits (40_bit_codec.md R114). -/
theorem execDecodePayload_end (hdec : decodeInto tr s.srcAddr.toNat s.srcLen.toNat s.dstAddr.toNat s.plen s = none) :
    exec .decodePayload s = raiseError Op.decodePayload .unexpectedEndOfData (freeDecoded s) := by
  obtain ⟨hregions, hlen, hcap⟩ := (decodeReady_iff s).mp hready
  simp only [exec, execDecodePayload, htree, hdec]
  rw [if_neg (by simp [(regionsOk_decodePayload s).mpr hregions]), if_neg (by omega), if_neg (Nat.not_lt.mpr hcap)]

end

/-- Settles O48: the prechecks are `execDecodePayload_errors`; past them the command does what decode_into does, which the
walks decide. -/
theorem decodePayloadWalksTree : Obligations.DecodePayloadWalksTree := by
  intro s
  refine ⟨fun hnone => ?_, fun tr htree => ?_⟩
  · rw [exec, execDecodePayload, hnone]
    rfl
  obtain ⟨hrange, hcorrupt, hcapacity⟩ := execDecodePayload_errors htree
  refine ⟨hrange, fun hsrc hdst hapart => ⟨fun hlen => ?_, fun hlen => ?_⟩, fun hready => ⟨fun vs rest hwalks => ?_,
    fun hwalks => ?_⟩⟩
  · exact hcorrupt ⟨hsrc, hdst, hapart⟩ (by rw [hlen]; rfl)
  · exact hcapacity ⟨hsrc, hdst, hapart⟩ fun h => hlen (BitVec.eq_of_toNat_eq h)
  · obtain ⟨u, hdec, hvs, houtside, hconsumed, hframe⟩ := decodeInto_ready hready hwalks
    refine ⟨_, execDecodePayload_next htree hready hdec, ?_, houtside, hconsumed, ?_⟩
    · exact (memRead_of_mem (by rfl) (by rfl) _ _).trans hvs
    · exact congrArg (fun v : State => { v.completed Op.decodePayload s.plenLo with
        pad := s.readByte (s.srcAddr.toNat + s.srcLen.toNat - 1) }) hframe
  · refine ⟨_, execDecodePayload_end htree hready (decodeInto_ready_end hready hwalks), freeDecoded_outside s, ?_⟩
    rfl

/-! ### Decoding what was encoded -/

theorem freqSymbols_subset_values (f : FreqTable) : freqSymbols f ⊆ (buildTree f).values := by
  match h : freqSymbols f with
  | [] => exact List.nil_subset _
  | [v] => simp [buildTree, h, freqLeaf, dummyLeaf, HTree.values]
  | v :: u :: vs =>
    have hleaves := (buildTree_many f v u vs h).1
    intro x hx
    rw [HTree.values_eq, (hleaves.map (·.1)).mem_iff, List.map_map, h]
    exact List.mem_map.mpr ⟨x, hx, rfl⟩

/-- With a counted value the tree's root is internal (41_tree_builder.md R129, R133). -/
theorem buildTree_eq_node {f : FreqTable} {v : Byte} (hv : v ∈ freqSymbols f) : ∃ w l r, buildTree f = .node w l r := by
  match h : freqSymbols f with
  | [] => simp [h] at hv
  | [x] => exact ⟨tableGet f x, freqLeaf f x, dummyLeaf x, by simp only [buildTree, h]⟩
  | x :: y :: vs =>
    have hinternal := (buildTree_many f x y vs h).2.2.2
    cases htree : buildTree f with
    | leaf x w => simp [htree, HTree.internal] at hinternal
    | node w l r => exact ⟨w, l, r, rfl⟩

/-- The count of a byte in a payload this short does not wrap to 0. -/
theorem mem_freqSymbols_countBytes {p : List Byte} (hp : p.length < 2 ^ 64) {v : Byte} (hv : v ∈ p) :
    v ∈ freqSymbols (countBytes clearedFreq p) := by
  have hpos : 0 < p.count v := List.count_pos_iff.mpr hv
  have hlt : p.count v < 2 ^ 64 := Nat.lt_of_le_of_lt List.count_le_length hp
  rw [mem_freqSymbols, tableGet_countBytes, clearedFreq, tableGet_replicate]
  intro hzero
  rw [show (0 : Weight) = 0#64 from rfl, BitVec.zero_add] at hzero
  have hcount := congrArg BitVec.toNat hzero
  rw [BitVec.toNat_ofNat, Nat.mod_eq_of_lt hlt] at hcount
  exact Nat.ne_of_gt hpos hcount

/-- Decoding a payload's codes under the tree and table of its own frequencies gives it back, whatever bits come after
(40_bit_codec.md R116). -/
theorem decodeBits_ownCode {p : List Byte} (hp : p.length < 2 ^ 64) {tr : HTree}
    (htr : tr = buildTree (countBytes clearedFreq p)) (rest : Bits) :
    tr.decodeBits p.length (payloadBits (genCode tr) p ++ rest) = some (p, rest) := by
  by_cases hempty : p = []
  · subst hempty
    rfl
  · obtain ⟨v, hv⟩ := List.exists_mem_of_ne_nil p hempty
    obtain ⟨w, l, r, hnode⟩ := buildTree_eq_node (mem_freqSymbols_countBytes hp hv)
    have hvalues : ∀ x ∈ p, x ∈ (HTree.node w l r).values := fun x hx =>
      hnode ▸ freqSymbols_subset_values _ (mem_freqSymbols_countBytes hp hx)
    rw [htr, hnode]
    exact decodeBits_payloadBits w l r p hvalues rest

/-- Settles O50: ENCODE_PAYLOAD leaves the packed codes at DST_ADDR; unpacked they are the codes and the padding, and the
walks over them give the payload back. -/
theorem encodeThenDecodeReturnsPayload : Obligations.EncodeThenDecodeReturnsPayload := by
  intro s t u p hp htree hcode hexec hok hu hready
  generalize htr : buildTree (countBytes clearedFreq p) = tr at htree hcode
  obtain ⟨hvalid, hregions, hcoded, hroom⟩ := execEncodePayload_ok hp rfl hexec hok
  obtain ⟨v, hnext, henc⟩ := execEncodePayload_next hp rfl hvalid hregions hcoded hroom
  rw [hcode] at hroom hnext henc
  generalize hbits : payloadBits (genCode tr) p = bits at hroom hnext henc
  obtain rfl : t = v.completed Op.encodePayload (BitVec.ofNat 32 (ceil8 bits.length + 1)) := by
    rw [hnext] at hexec
    cases hexec
    rfl
  have hlen : p.length = s.srcLen.toNat := by rw [hp, memRead_length]
  have hcap := s.dstCap.isLt
  have htreeU : u.tree = some tr := by rw [hu, ← htree, henc.frame]; rfl
  have hsrcAddr : u.srcAddr = s.dstAddr := by rw [hu]
  have hsrcLen : u.srcLen.toNat - 1 = ceil8 bits.length := by
    rw [hu, State.completed_outLen, BitVec.toNat_ofNat, Nat.mod_eq_of_lt (by omega), Nat.add_sub_cancel]
  have hplen : u.plen = p.length := by rw [hlen, hu]; simp [State.plen]
  have hread : memRead u u.srcAddr.toNat (u.srcLen.toNat - 1) = memRead v s.dstAddr.toNat (ceil8 bits.length) := by
    rw [hsrcAddr, hsrcLen]
    exact memRead_of_mem (by rw [hu]; rfl) (by rw [hu]; rfl) _ _
  have hwalks : tr.decodeBits u.plen (unpackBits (memRead u u.srcAddr.toNat (u.srcLen.toNat - 1))) =
      some (p, List.replicate v.pad.toNat false) := by
    rw [hread, henc.packed.stream, ← hbits, hplen]
    exact decodeBits_ownCode (by omega) htr.symm _
  obtain ⟨x, hdec, hpayload, -⟩ := decodeInto_ready hready hwalks
  refine ⟨_, execDecodePayload_next htreeU hready hdec, rfl, ?_⟩
  rw [← hplen]
  exact (memRead_of_mem (by rfl) (by rfl) _ _).trans hpayload

end Sys2Proof.Machine
end

section
/-! PROOFS. The frequency table's commands (41_tree_builder.md R126 to R128). -/

namespace Sys2Proof.Machine

/-- Settles O26: FREQ_CLEAR stores the table whose every entry is 0. -/
theorem freqClearZeroesFreq : Obligations.FreqClearZeroesFreq :=
  fun _ => ⟨_, rfl, tableGet_replicate 0, rfl⟩

theorem regionsOk_freqCount (s : State) : regionsOk .freqCount s = true ↔ s.fitsMem s.srcAddr.toNat s.srcLen.toNat :=
  regionsFit_readOnly s s.srcRegion

/-- Settles O27: past its region check the command is `countBytes`, which adds a byte's count to its entry. -/
theorem freqCountAddsOccurrences : Obligations.FreqCountAddsOccurrences :=
  fun s => ⟨fun hfit => ⟨_, if_pos ((regionsOk_freqCount s).mpr hfit), tableGet_countBytes s.freq _, rfl⟩,
    fun hfit => if_neg (mt (regionsOk_freqCount s).mp hfit)⟩

/-- A counter is its high word at 2^32 and its low word (41_tree_builder.md R128). -/
theorem weight_halves (w : Weight) : (w.extractLsb' 32 32).toNat * 2 ^ 32 + (w.extractLsb' 0 32).toNat = w.toNat := by
  have hlt := w.isLt
  simp only [BitVec.extractLsb'_toNat, Nat.shiftRight_eq_div_pow]
  omega

/-- Settles O28: the two words written are the halves of the counter. -/
theorem freqReadReturnsCounter : Obligations.FreqReadReturnsCounter :=
  fun s v => ⟨_, rfl, weight_halves (tableGet s.freq v), rfl⟩

end Sys2Proof.Machine
end

section
/-! PROOFS. Building the tree (41_tree_builder.md R120 to R137): `extractMin` takes the least key when sequence numbers
differ, so `mergeQueue` is the loop that `Merges` states; and the tree TREE_BUILD makes of no value, one, or more. -/

namespace Sys2Proof.Machine

/-! ### The order of the keys (41_tree_builder.md R122) -/

theorem QEntry.before_iff (x y : QEntry) : x.before y = true ↔ KeyLess x y := by
  simp [QEntry.before, KeyLess]

theorem KeyLess.trans {x y z : QEntry} (hxy : KeyLess x y) (hyz : KeyLess y z) : KeyLess x z := by
  rcases hxy with hxy | ⟨hxy, hseq⟩
  · rcases hyz with hyz | ⟨hyz, -⟩
    · exact .inl (Nat.lt_trans hxy hyz)
    · exact .inl (hyz ▸ hxy)
  · rcases hyz with hyz | ⟨hyz, hseq'⟩
    · exact .inl (hxy ▸ hyz)
    · exact .inr ⟨hxy.trans hyz, Nat.lt_trans hseq hseq'⟩

/-- Of two entries with different sequence numbers one has the lesser key. -/
theorem keyLess_of_not {x y : QEntry} (hseq : x.seq ≠ y.seq) (h : ¬ KeyLess x y) : KeyLess y x := by
  obtain ⟨hweight, htie⟩ := not_or.mp h
  rcases Nat.lt_or_eq_of_le (Nat.le_of_not_lt hweight) with hlt | heq
  · exact .inl hlt
  · have heq := BitVec.eq_of_toNat_eq heq
    have hnot : ¬ x.seq < y.seq := fun hlt => htie ⟨heq.symm, hlt⟩
    exact .inr ⟨heq, Nat.lt_of_le_of_ne (Nat.le_of_not_lt hnot) hseq.symm⟩

/-! ### The queue -/

/-- The queue's sequence numbers differ and are all below the next one (41_tree_builder.md R122). -/
structure Numbered (next : Nat) (q : List QEntry) : Prop where
  nodup : (q.map (·.seq)).Nodup
  below : ∀ e ∈ q, e.seq < next

theorem Numbered.perm {next : Nat} {q p : List QEntry} (h : Numbered next q) (hp : q.Perm p) : Numbered next p where
  nodup := (hp.map _).nodup_iff.mp h.nodup
  below e he := h.below e (hp.mem_iff.mpr he)

theorem Numbered.tail {next : Nat} {x : QEntry} {q : List QEntry} (h : Numbered next (x :: q)) : Numbered next q where
  nodup := h.nodup.of_cons
  below e he := h.below e (List.mem_cons_of_mem _ he)

theorem Numbered.head_ne {next : Nat} {x y : QEntry} {q : List QEntry} (h : Numbered next (x :: q)) (hy : y ∈ q) :
    x.seq ≠ y.seq :=
  fun heq => (List.nodup_cons.mp h.nodup).1 (List.mem_map.mpr ⟨y, hy, heq.symm⟩)

/-- A new node takes the next number. -/
theorem Numbered.push {next : Nat} {q : List QEntry} (h : Numbered next q) (t : HTree) :
    Numbered (next + 1) (⟨t, next⟩ :: q) where
  nodup := by
    refine List.nodup_cons.mpr ⟨fun hmem => ?_, h.nodup⟩
    obtain ⟨e, he, hseq⟩ := List.mem_map.mp hmem
    exact Nat.ne_of_lt (h.below e he) hseq
  below e he := by
    rcases List.mem_cons.mp he with rfl | he
    · exact Nat.lt_succ_self next
    · exact Nat.lt_succ_of_lt (h.below e he)

/-! ### The merging loop (41_tree_builder.md R129) -/

/-- `extract_min` takes the entry of least key. -/
theorem extractMin_least {next : Nat} {x : QEntry} {q : List QEntry} (h : Numbered next (x :: q)) :
    ∀ y ∈ (extractMin x q).2, KeyLess (extractMin x q).1 y := by
  induction q generalizing x with
  | nil => exact fun y hy => nomatch hy
  | cons z zs ih =>
    have hperm := extractMin_perm z zs
    have hleast := ih h.tail
    simp only [extractMin]
    generalize extractMin z zs = m at hperm hleast
    obtain ⟨m, rest⟩ := m
    split
    · rename_i hbefore
      have hxm : KeyLess x m := (QEntry.before_iff x m).mp hbefore
      intro y hy
      rcases List.mem_cons.mp (hperm.mem_iff.mpr hy) with rfl | hy
      · exact hxm
      · exact hxm.trans (hleast y hy)
    · rename_i hbefore
      have hmx : KeyLess m x :=
        keyLess_of_not (h.head_ne (hperm.mem_iff.mp List.mem_cons_self)) (mt (QEntry.before_iff x m).mpr hbefore)
      intro y hy
      rcases List.mem_cons.mp hy with rfl | hy
      · exact hmx
      · exact hleast y hy

/-- With a round for each entry but the first, `mergeQueue` is the loop. -/
theorem mergeQueue_merges {fuel next : Nat} {x : QEntry} {q : List QEntry} (hfuel : q.length ≤ fuel)
    (h : Numbered next (x :: q)) : Merges next (x :: q) (mergeQueue fuel next x q) := by
  induction fuel generalizing next x q with
  | zero =>
    obtain rfl : q = [] := List.length_eq_zero_iff.mp (Nat.le_zero.mp hfuel)
    exact .one next x
  | succ fuel ih =>
    have hpermA := extractMin_perm x q
    have hlen := extractMin_length x q
    have hleastA := extractMin_least h
    simp only [mergeQueue]
    generalize extractMin x q = m at hpermA hlen hleastA
    obtain ⟨a, rest⟩ := m
    cases rest with
    | nil =>
      obtain rfl : q = [] := List.length_eq_zero_iff.mp hlen.symm
      obtain rfl : a = x := by simpa using hpermA
      exact .one next a
    | cons y ys =>
      have hrest : Numbered next (y :: ys) := (h.perm hpermA.symm).tail
      have hpermB := extractMin_perm y ys
      have hlenB := extractMin_length y ys
      have hleastB := extractMin_least hrest
      simp only
      generalize extractMin y ys = n at hpermB hlenB hleastB
      obtain ⟨b, rest⟩ := n
      refine .two next (x :: q) a b rest _ (hpermA.symm.trans (hpermB.symm.cons a))
        (fun z hz => hleastA z (hpermB.mem_iff.mp hz)) hleastB (ih ?_ ((hrest.perm hpermB.symm).tail.push _))
      simp only [List.length_cons] at hlen hlenB
      omega

/-! ### The leaves' queue -/

theorem numberFrom_eq_zipIdx (k : Nat) (ts : List HTree) :
    numberFrom k ts = (ts.zipIdx k).map (fun p => ⟨p.1, p.2⟩) := by
  induction ts generalizing k with
  | nil => rfl
  | cons t ts ih => simp [numberFrom, ih]

theorem numberFrom_seqs (k : Nat) (ts : List HTree) : (numberFrom k ts).map (·.seq) = List.range' k ts.length := by
  induction ts generalizing k with
  | nil => rfl
  | cons t ts ih => simp [numberFrom, ih, List.range'_succ]

theorem numberFrom_numbered (k : Nat) (ts : List HTree) : Numbered (k + ts.length) (numberFrom k ts) where
  nodup := numberFrom_seqs k ts ▸ List.nodup_range'
  below e he := by
    have hseq : e.seq ∈ List.range' k ts.length := numberFrom_seqs k ts ▸ List.mem_map_of_mem he
    simpa using (List.mem_range'_1.mp hseq).2

/-- The queue the loop starts from, as the model numbers it. -/
theorem leafQueue_eq (f : FreqTable) : leafQueue f = numberFrom 0 ((freqSymbols f).map (freqLeaf f)) := by
  rw [numberFrom_eq_zipIdx, List.zipIdx_map, List.map_map]
  rfl

theorem leafQueue_length (f : FreqTable) : (leafQueue f).length = (freqSymbols f).length := by
  rw [leafQueue_eq, numberFrom_length, List.length_map]

/-! ### The tree of no value, of one, and of more -/

theorem buildTree_nil {f : FreqTable} (h : freqSymbols f = []) : buildTree f = .leaf 0x00 0 := by
  simp only [buildTree, h]
  rfl

theorem buildTree_singleton {f : FreqTable} {v : Byte} (h : freqSymbols f = [v]) :
    buildTree f = .node (tableGet f v) (.leaf v (tableGet f v)) (.leaf (v + 1) 0) := by
  simp only [buildTree, h]
  rfl

/-- From two values on the tree is what the loop makes of their leaves. -/
theorem buildTree_merges {f : FreqTable} (h : 2 ≤ (freqSymbols f).length) :
    Merges (freqSymbols f).length (leafQueue f) (buildTree f) := by
  have hnumbered := numberFrom_numbered 0 ((freqSymbols f).map (freqLeaf f))
  rw [leafQueue_eq]
  match hsyms : freqSymbols f with
  | [] | [_] => simp [hsyms] at h
  | v :: u :: vs =>
    rw [hsyms, List.length_map, Nat.zero_add] at hnumbered
    simp only [buildTree, hsyms]
    exact mergeQueue_merges (by rw [numberFrom_length, List.length_map]) hnumbered

/-- Settles O29: TREE is `buildTree`'s tree, in each of the three cases. -/
theorem treeBuildFollowsTheLoop : Obligations.TreeBuildFollowsTheLoop := by
  refine fun s => ⟨_, buildTree s.freq, rfl, rfl, fun hnil => ?_, fun v w k hone => ?_, fun hmany => ?_⟩
  · exact buildTree_nil (List.length_eq_zero_iff.mp (by rw [← leafQueue_length, hnil, List.length_nil]))
  · obtain ⟨u, hu⟩ : ∃ u, freqSymbols s.freq = [u] :=
      List.length_eq_one_iff.mp (by rw [← leafQueue_length, hone, List.length_singleton])
    rw [leafQueue_eq, hu] at hone
    cases hone
    exact buildTree_singleton hu
  · rw [leafQueue_length] at hmany ⊢
    exact buildTree_merges hmany

/-! ### The tree's leaves -/

theorem freqSymbols_eq_nil {f : FreqTable} (h : ∀ v, tableGet f v = 0) : freqSymbols f = [] :=
  List.eq_nil_iff_forall_not_mem.mpr fun v hv => (mem_freqSymbols f v).mp hv (h v)

theorem freqSymbols_eq_singleton {f : FreqTable} {v : Byte} (hv : tableGet f v ≠ 0)
    (h : ∀ u, u ≠ v → tableGet f u = 0) : freqSymbols f = [v] := by
  refine List.perm_singleton.mp ((List.perm_ext_iff_of_nodup (freqSymbols_nodup f) (List.nodup_singleton v)).mpr ?_)
  intro u
  rw [mem_freqSymbols, List.mem_singleton]
  exact ⟨fun hu => not_not.mp (mt (h u) hu), fun hu => hu ▸ hv⟩

theorem freqSymbols_eq_cons_cons {f : FreqTable} {u v : Byte} (huv : u ≠ v) (hu : tableGet f u ≠ 0)
    (hv : tableGet f v ≠ 0) : ∃ a b vs, freqSymbols f = a :: b :: vs := by
  have hu := (mem_freqSymbols f u).mpr hu
  have hv := (mem_freqSymbols f v).mpr hv
  match h : freqSymbols f with
  | [] => simp [h] at hu
  | [a] =>
    rw [h, List.mem_singleton] at hu hv
    exact absurd (hu.trans hv.symm) huv
  | a :: b :: vs => exact ⟨a, b, vs, rfl⟩

theorem freqSymbols_length_eq_card (f : FreqTable) :
    (freqSymbols f).length = (Finset.univ.filter (fun x : Byte => tableGet f x ≠ 0)).card := by
  rw [← List.toFinset_card_of_nodup (freqSymbols_nodup f)]
  congr 1
  ext v
  simp [mem_freqSymbols]

/-- From two values on the leaves are the counted values, in some order. -/
theorem buildTree_values_perm {f : FreqTable} {v u : Byte} {vs : List Byte} (h : freqSymbols f = v :: u :: vs) :
    (buildTree f).values.Perm (freqSymbols f) := by
  have hleaves := ((buildTree_many f v u vs h).1).map (·.1)
  rwa [← HTree.values_eq, List.map_map, show (·.1) ∘ (fun x : Byte => (x, tableGet f x)) = id from rfl, List.map_id]
    at hleaves

theorem buildTree_values_nodup (f : FreqTable) : (buildTree f).values.Nodup := by
  match h : freqSymbols f with
  | [] => simp [buildTree_nil h, HTree.values]
  | [v] => simp [buildTree_singleton h, HTree.values]
  | v :: u :: vs => exact (buildTree_values_perm h).nodup_iff.mpr (freqSymbols_nodup f)

/-- Settles O30: TREE_BUILD is `setTree` of `buildTree`'s tree, which is that of no value, of one, or the one
`buildTree_many` describes. -/
theorem treeBuildBuildsFromFreq : Obligations.TreeBuildBuildsFromFreq := by
  refine fun s => ⟨_, buildTree s.freq, rfl, rfl, fun hnone => buildTree_nil (freqSymbols_eq_nil hnone),
    fun v hv hone => buildTree_singleton (freqSymbols_eq_singleton hv hone), fun u v huv hu hv => ?_⟩
  obtain ⟨a, b, vs, hsyms⟩ := freqSymbols_eq_cons_cons huv hu hv
  obtain ⟨hleaves, hsums, hcount, -⟩ := buildTree_many s.freq a b vs hsyms
  refine ⟨buildTree_values_nodup s.freq, fun x w => ?_, hsums, freqSymbols_length_eq_card s.freq ▸ hcount⟩
  rw [hleaves.mem_iff, List.mem_map]
  constructor
  · rintro ⟨y, hy, heq⟩
    cases heq
    exact ⟨rfl, (mem_freqSymbols s.freq x).mp hy⟩
  · rintro ⟨rfl, hw⟩
    exact ⟨x, (mem_freqSymbols s.freq x).mpr hw, rfl⟩

/-- Settles O31: the leaves are distinct in each case of `buildTree`; the counts are those of any full tree. -/
theorem builtTreeIsValid : Obligations.BuiltTreeIsValid :=
  fun f => ⟨buildTree_values_nodup f, buildTree_nodeCount f, (buildTree f).nodeCount_values⟩

end Sys2Proof.Machine
end

section
/-! PROOFS. The code table (41_tree_builder.md R131, R145 to R149): CODE_GEN's table as paths, that no code begins
another, and the bytes CODE_READ writes. -/

namespace Sys2Proof.Machine

/-! ### CODE_GEN -/

/-- CODE_GEN with a TREE (41_tree_builder.md R145). -/
theorem execCodeGen_next {s : State} {tr : HTree} (h : s.tree = some tr) :
    exec .codeGen s = complete Op.codeGen 0 (s.setCode tr) := by
  rw [exec, execCodeGen, h]

/-- The code table of a leaf root: "0" for its value alone (41_tree_builder.md R146). -/
theorem tableGet_genCode_leaf (v : Byte) (w : Weight) (x : Byte) :
    tableGet (genCode (.leaf v w)) x = if x = v then [false] else [] := by
  rw [genCode, tableGet_tableSet, emptyCode, tableGet_replicate]

/-- The code table of an internal root: a value's last path in preorder (41_tree_builder.md R145, R148). -/
theorem tableGet_genCode_node (w : Weight) (l r : HTree) (x : Byte) :
    tableGet (genCode (.node w l r)) x =
      ((((HTree.node w l r).paths.filter (fun p => p.1 == x)).getLast?).map (·.2)).getD [] := by
  rw [genCode, tableGet_walkCode, emptyCode, tableGet_replicate]
  rfl

theorem HTree.internal_iff (t : HTree) : t.internal = true ↔ ∃ w l r, t = .node w l r := by
  cases t <;> simp [HTree.internal]

/-- Settles O32: the command needs a TREE and is `setCode`, whose table is read off for each kind of root. -/
theorem codeGenDerivesTable : Obligations.CodeGenDerivesTable := by
  refine fun s => ⟨fun hnone => by rw [exec, execCodeGen, hnone]; rfl, fun tr htree => ?_⟩
  refine ⟨_, execCodeGen_next htree, rfl, ?_, fun hroot => ?_⟩
  · rintro v w rfl
    exact tableGet_genCode_leaf v w
  · obtain ⟨w, l, r, rfl⟩ := tr.internal_iff.mp hroot
    exact tableGet_genCode_node w l r

/-! ### No code begins another (41_tree_builder.md R147) -/

/-- Under an internal root no path is empty. -/
theorem HTree.paths_ne_nil {w : Weight} {l r : HTree} {v : Byte} {p : Bits} (h : (v, p) ∈ (HTree.node w l r).paths) :
    p ≠ [] := by
  rintro rfl
  simp [HTree.paths] at h

/-- A path that continues another leads to the same leaf's value. -/
theorem HTree.eq_of_path_prefix {t : HTree} {u v : Byte} {p q : Bits} (hu : (u, p) ∈ t.paths) (hv : (v, q) ∈ t.paths)
    (h : p <+: q) : u = v := by
  obtain ⟨rest, rfl⟩ := h
  have hfollow := t.follow_path hv []
  rw [List.append_nil, t.follow_path hu rest] at hfollow
  cases hfollow
  rfl

/-- Settles O33: each code is a path to its value's leaf, and a path determines the leaf it leads to. -/
theorem derivedCodeIsPrefixCode : Obligations.DerivedCodeIsPrefixCode := by
  intro s t tr htree hroot _ hexec
  obtain ⟨w, l, r, rfl⟩ := tr.internal_iff.mp hroot
  rw [execCodeGen_next htree] at hexec
  cases hexec
  have hpath : ∀ v ∈ (HTree.node w l r).values, (v, tableGet (genCode (.node w l r)) v) ∈ (HTree.node w l r).paths :=
    fun v hv => genCode_path w l r hv
  exact ⟨fun v hv => ⟨hpath v hv, List.length_pos_iff.mpr (HTree.paths_ne_nil (hpath v hv))⟩,
    fun u hu v hv huv hprefix => huv (HTree.eq_of_path_prefix (hpath u hu) (hpath v hv) hprefix),
    fun v hv rest => HTree.follow_path _ (hpath v hv) rest⟩

/-- Settles O34: it is `genCode_length` with the limits written out. -/
theorem codeLengthBound : Obligations.CodeLengthBound :=
  fun _ v h => genCode_length h v

/-! ### Packed bit strings (30_encoding.md R91) -/

/-- Shifted in one after the other, `n` bits stand in order below bit `n`. -/
theorem foldl_shiftIn_bits (f : Nat → Bool) {n : Nat} (h : n ≤ 8) :
    (List.range n).map (fun j => ((List.range n).foldl (fun acc j => shiftIn acc (f j)) 0).getLsbD (n - 1 - j)) =
      (List.range n).map f := by
  induction n with
  | zero => rfl
  | succ n ih =>
    rw [List.range_succ, List.foldl_append, ← List.range_succ, Nat.add_sub_cancel, List.foldl_cons, List.foldl_nil,
      shiftIn_bits _ _ n h, ih (by omega), List.range_succ, List.map_append, List.map_singleton]

theorem byteBits_packByte (bs : Bits) : byteBits (packByte bs) = (List.range 8).map (fun j => bs.getD j false) :=
  foldl_shiftIn_bits (fun j => bs.getD j false) (Nat.le_refl 8)

/-- The bits of the first `m` packed bytes. -/
theorem unpackBits_packBytes (bs : Bits) (m : Nat) :
    unpackBits ((List.range m).map (fun k => packByte (bs.drop (8 * k)))) =
      (List.range (8 * m)).map (fun j => bs.getD j false) := by
  induction m with
  | zero => rfl
  | succ m ih =>
    rw [List.range_succ, List.map_append, unpackBits_append, ih, List.map_singleton, unpackBits_cons, unpackBits_nil,
      List.append_nil, byteBits_packByte, Nat.mul_succ, List.range_add, List.map_append, List.map_map]
    simp [List.getD_eq_getElem?_getD, Function.comp_def]

theorem map_range_getD (bs : Bits) (k : Nat) :
    (List.range (bs.length + k)).map (fun j => bs.getD j false) = bs ++ List.replicate k false := by
  refine List.ext_getElem (by simp) fun j hj _ => ?_
  by_cases h : j < bs.length
  · simp [h]
  · rw [List.getElem_append_right (Nat.le_of_not_lt h)]
    simp [h]

theorem packBits_length (bs : Bits) : (packBits bs).length = ceil8 bs.length := by
  rw [packBits, List.length_map, List.length_range]

theorem packBits_packedAs (bs : Bits) : PackedAs (packBits bs) bs (padCount bs.length) where
  count := packBits_length bs
  padding := rfl
  stream := by
    have hlen : 8 * ceil8 bs.length = bs.length + padCount bs.length := by unfold ceil8 padCount; omega
    rw [packBits, unpackBits_packBytes, hlen, map_range_getD]

/-- The packed string, written to MEM and read back. -/
theorem memRead_packBits (s : State) (a : Nat) (bs : Bits) :
    PackedAs (memRead (memWrite s a (packBits bs)) a (ceil8 bs.length)) bs (padCount bs.length) := by
  rw [← packBits_length, memRead_memWrite_same]
  exact packBits_packedAs bs

theorem memWrite_packBits_outside (s : State) (a : Nat) (bs : Bits) :
    SameOutside s (memWrite s a (packBits bs)) a (ceil8 bs.length) :=
  packBits_length bs ▸ memWrite_outside s a (packBits bs)

/-! ### CODE_READ -/

section
variable {s : State} {v : Byte}

theorem regionsOk_codeRead : regionsOk (.codeRead v) s = true ↔ s.fitsMem s.dstAddr.toNat s.dstCap.toNat :=
  regionsFit_writeOnly s s.dstRegion

/-- CODE_READ's errors in their order (41_tree_builder.md R149). -/
theorem execCodeRead_errors :
    (s.codeValid = false → exec (.codeRead v) s = .next (s.raised Op.codeRead .stateError)) ∧
    (s.codeValid = true → ¬ s.fitsMem s.dstAddr.toNat s.dstCap.toNat →
      exec (.codeRead v) s = .next (s.raised Op.codeRead .rangeError)) ∧
    (s.codeValid = true → s.fitsMem s.dstAddr.toNat s.dstCap.toNat →
      s.dstCap.toNat < ceil8 (tableGet s.code v).length →
      exec (.codeRead v) s = .next (s.raised Op.codeRead .capacityError)) := by
  refine ⟨fun hvalid => ?_, fun hvalid hdst => ?_, fun hvalid hdst hroom => ?_⟩
  · exact if_pos (by simp [hvalid])
  · exact (if_neg (by simp [hvalid])).trans (if_pos (by simpa using mt regionsOk_codeRead.mp hdst))
  · exact (if_neg (by simp [hvalid])).trans ((if_neg (by simp [regionsOk_codeRead.mpr hdst])).trans (if_pos hroom))

/-- CODE_READ past its checks (41_tree_builder.md R149). -/
theorem execCodeRead_next (hvalid : s.codeValid = true) (hdst : s.fitsMem s.dstAddr.toNat s.dstCap.toNat)
    (hroom : ceil8 (tableGet s.code v).length ≤ s.dstCap.toNat) :
    exec (.codeRead v) s = complete Op.codeRead (BitVec.ofNat 32 (ceil8 (tableGet s.code v).length))
      { memWrite s s.dstAddr.toNat (packBits (tableGet s.code v)) with
        resultLo := BitVec.ofNat 32 (tableGet s.code v).length, resultHi := 0 } :=
  (if_neg (by simp [hvalid])).trans
    ((if_neg (by simp [regionsOk_codeRead.mpr hdst])).trans (if_neg (Nat.not_lt.mpr hroom)))

end

/-- Settles O35: the errors are `execCodeRead_errors`; past the checks the command stores `packBits` at DST_ADDR. -/
theorem codeReadReturnsCode : Obligations.CodeReadReturnsCode := by
  intro s v
  obtain ⟨hinvalid, hrange, hcapacity⟩ := execCodeRead_errors (s := s) (v := v)
  refine ⟨hinvalid, hrange, hcapacity, fun hvalid hdst hroom => ?_⟩
  refine ⟨_, _, padCount (tableGet s.code v).length, execCodeRead_next hvalid hdst hroom, rfl, ?_, ?_, ?_⟩
  · rw [memRead_of_mem (t := memWrite s s.dstAddr.toNat (packBits (tableGet s.code v))) (by rfl) (by rfl)]
    exact memRead_packBits s s.dstAddr.toNat (tableGet s.code v)
  · exact memWrite_packBits_outside s s.dstAddr.toNat (tableGet s.code v)
  · exact congrArg (fun t : State => { t.completed Op.codeRead (BitVec.ofNat 32 (ceil8 (tableGet s.code v).length)) with
      resultLo := BitVec.ofNat 32 (tableGet s.code v).length, resultHi := 0 }) (memWrite_eq s s.dstAddr.toNat _)

end Sys2Proof.Machine
end

section
/-! PROOFS. The tree serializer (42_tree_serializer.md R153 to R163): the size of a token stream, parse as the inverse of
ser, and the two commands. -/

namespace Sys2Proof.Machine

/-! ### The size of a token stream -/

/-- Every internal node has two children, so there is one leaf more than there are internal nodes. -/
theorem HTree.values_length (t : HTree) : t.values.length = t.internals + 1 := by
  induction t with
  | leaf v w => rfl
  | node w l r ihl ihr =>
    rw [HTree.values, HTree.internals, List.length_append, ihl, ihr]
    omega

/-- Settles O36: a byte for each node and one more for each leaf, and both nodes and internal nodes counted by leaves. -/
theorem serializedSize : Obligations.SerializedSize := by
  intro t
  have hser := ser_length t
  have hnodes := t.nodeCount_values
  have hinternals := t.values_length
  exact ⟨by omega, by omega, fun _ => by omega⟩

/-! ### parse and ser -/

/-- parse over a tree's tokens gives the tree with weights 0 (42_tree_serializer.md R163). -/
theorem parseTree_ser {t : HTree} (h : t.nodeCount ≤ maxNodes) : parseTree (ser t) = some t.unweighted := by
  have hnode := parseNode_ser t (maxNodes + 1) 0 [] (Nat.le_succ_of_le h) (by rwa [Nat.zero_add])
  rw [List.append_nil] at hnode
  rw [parseTree, hnode]

/-- What parse accepts is the tokens of the tree it returns (42_tree_serializer.md R163). -/
theorem parseTree_sound {bs : List Byte} {t : HTree} (h : parseTree bs = some t) : ser t = bs ∧ t.unweighted = t := by
  unfold parseTree at h
  split at h
  · rename_i u c hnode
    cases h
    obtain ⟨hbytes, -, -, hweights⟩ := parseNode_sound _ _ _ _ _ _ hnode
    exact ⟨by rw [hbytes, List.append_nil], hweights⟩
  · cases h

/-- parse fails on a byte string that is not the tokens of a tree of at most 511 nodes (42_tree_serializer.md R163). -/
theorem parseTree_eq_none {bs : List Byte} (h : ∀ t : HTree, t.nodeCount ≤ maxNodes → bs ≠ ser t) :
    parseTree bs = none := by
  cases hparse : parseTree bs with
  | none => rfl
  | some t => exact absurd (parseTree_sound hparse).1.symm (h t (parseTree_nodeCount hparse))

/-- Settles O37: `parseTree_ser` one way; the other way, `parseTree_sound` with the bound of `parseTree_nodeCount`. -/
theorem parseInvertsSer : Obligations.ParseInvertsSer := by
  refine ⟨fun t h => parseTree_ser h, fun bs t h => ?_⟩
  obtain ⟨hbytes, hweights⟩ := parseTree_sound h
  exact ⟨hbytes, parseTree_nodeCount h, hweights⟩

/-! ### TREE_SERIALIZE -/

section
variable {s : State}

theorem regionsOk_treeSerialize : regionsOk .treeSerialize s = true ↔ s.fitsMem s.dstAddr.toNat s.dstCap.toNat :=
  regionsFit_writeOnly s s.dstRegion

/-- TREE_SERIALIZE's errors in their order (42_tree_serializer.md R153). -/
theorem execTreeSerialize_errors :
    (s.tree = none → exec .treeSerialize s = .next (s.raised Op.treeSerialize .stateError)) ∧
    (∀ tr, s.tree = some tr → ¬ s.fitsMem s.dstAddr.toNat s.dstCap.toNat →
      exec .treeSerialize s = .next (s.raised Op.treeSerialize .rangeError)) ∧
    (∀ tr, s.tree = some tr → s.fitsMem s.dstAddr.toNat s.dstCap.toNat → s.dstCap.toNat < (ser tr).length →
      exec .treeSerialize s = .next (s.raised Op.treeSerialize .capacityError)) := by
  refine ⟨fun hnone => ?_, fun tr htree hdst => ?_, fun tr htree hdst hroom => ?_⟩
  · rw [exec, execTreeSerialize, hnone]
    rfl
  · rw [exec, execTreeSerialize, htree]
    exact if_pos (by simpa using mt regionsOk_treeSerialize.mp hdst)
  · rw [exec, execTreeSerialize, htree]
    exact (if_neg (by simp [regionsOk_treeSerialize.mpr hdst])).trans (if_pos hroom)

/-- TREE_SERIALIZE past its checks (42_tree_serializer.md R153). -/
theorem execTreeSerialize_next {tr : HTree} (htree : s.tree = some tr) (hdst : s.fitsMem s.dstAddr.toNat s.dstCap.toNat)
    (hroom : (ser tr).length ≤ s.dstCap.toNat) :
    exec .treeSerialize s =
      complete Op.treeSerialize (BitVec.ofNat 32 (ser tr).length) (memWrite s s.dstAddr.toNat (ser tr)) := by
  rw [exec, execTreeSerialize, htree]
  exact (if_neg (by simp [regionsOk_treeSerialize.mpr hdst])).trans (if_neg (Nat.not_lt.mpr hroom))

end

/-- Settles O38: the errors are `execTreeSerialize_errors`; past the checks the command is one MemWrite of the tokens. -/
theorem treeSerializeWritesTokens : Obligations.TreeSerializeWritesTokens := by
  refine ⟨fun _ _ => rfl, fun _ _ _ => rfl, fun s => ?_⟩
  obtain ⟨habsent, hrange, hcapacity⟩ := execTreeSerialize_errors (s := s)
  refine ⟨habsent, hrange, hcapacity, fun tr htree hdst hroom => ?_⟩
  refine ⟨_, execTreeSerialize_next htree hdst hroom, ?_, ?_, ?_⟩
  · rw [memRead_of_mem (State.completed_mem ..) (State.completed_memDraw ..)]
    exact memRead_memWrite_same s s.dstAddr.toNat (ser tr)
  · exact memWrite_outside s s.dstAddr.toNat (ser tr)
  · exact congrArg (State.completed · Op.treeSerialize (BitVec.ofNat 32 (ser tr).length))
      (memWrite_eq s s.dstAddr.toNat (ser tr))

/-! ### TREE_DESERIALIZE -/

section
variable {s : State}

theorem regionsOk_treeDeserialize : regionsOk .treeDeserialize s = true ↔ s.fitsMem s.srcAddr.toNat s.srcLen.toNat :=
  regionsFit_readOnly s s.srcRegion

theorem execTreeDeserialize_rangeError (h : ¬ s.fitsMem s.srcAddr.toNat s.srcLen.toNat) :
    exec .treeDeserialize s = .next (s.raised Op.treeDeserialize .rangeError) :=
  if_pos (by simpa using mt regionsOk_treeDeserialize.mp h)

/-- TREE_DESERIALIZE on a source parse accepts (42_tree_serializer.md R157). -/
theorem execTreeDeserialize_parsed (hsrc : s.fitsMem s.srcAddr.toNat s.srcLen.toNat) {tr : HTree}
    (hparse : parseTree (memRead s s.srcAddr.toNat s.srcLen.toNat) = some tr) :
    exec .treeDeserialize s = complete Op.treeDeserialize 0 (s.setTree (some tr)) := by
  rw [exec, execTreeDeserialize, if_neg (by simp [regionsOk_treeDeserialize.mpr hsrc]), hparse]

/-- TREE_DESERIALIZE on a source parse rejects (42_tree_serializer.md R157). -/
theorem execTreeDeserialize_corrupt (hsrc : s.fitsMem s.srcAddr.toNat s.srcLen.toNat)
    (hparse : parseTree (memRead s s.srcAddr.toNat s.srcLen.toNat) = none) :
    exec .treeDeserialize s = raiseError Op.treeDeserialize .corruptTree (s.setTree none) := by
  rw [exec, execTreeDeserialize, if_neg (by simp [regionsOk_treeDeserialize.mpr hsrc]), hparse]

end

/-- Settles O39: past the region check parse decides, by `parseTree_ser` and `parseTree_eq_none`, which of the command's
two ends is taken. -/
theorem treeDeserializeParses : Obligations.TreeDeserializeParses := by
  refine fun s => ⟨execTreeDeserialize_rangeError, fun tr hsrc hnodes hbytes => ?_, fun hsrc hcorrupt => ?_⟩
  · have hparse := parseTree_ser hnodes
    rw [← hbytes] at hparse
    exact ⟨_, execTreeDeserialize_parsed hsrc hparse, rfl⟩
  · exact ⟨_, execTreeDeserialize_corrupt hsrc (parseTree_eq_none hcorrupt), rfl⟩

end Sys2Proof.Machine
end

section
/-! PROOFS. NOP and CRC32 (43_container.md R166 to R169): the checksum of the source region, on words and on unbounded
integers. -/

namespace Sys2Proof.Machine

/-- Settles O25: NOP is `complete` on the state as it is. -/
theorem nopOnlyReports : Obligations.NopOnlyReports := fun _ => rfl

theorem crcByte_toNat (c : Word) (x : Byte) : (crcByte c x).toNat = crcTake c.toNat x := by
  have hx : x.toNat % 2 ^ 32 = x.toNat := Nat.mod_eq_of_lt (by have := x.isLt; omega)
  rw [crcByte, crcSteps_toNat, BitVec.toNat_xor, BitVec.toNat_setWidth, hx, crcTake]

/-- R169's loop on words is its loop on unbounded integers. -/
theorem crc32_toNat (bs : List Byte) : (crc32 bs).toNat = bs.foldl crcTake 0xFFFFFFFF ^^^ 0xFFFFFFFF := by
  have hloop := List.foldl_hom BitVec.toNat (l := bs) (init := (0xFFFFFFFF : Word)) fun c x => (crcByte_toNat c x).symm
  rw [crc32, BitVec.toNat_xor, ← hloop]
  rfl

theorem regionsOk_crc32 (s : State) : regionsOk .crc32 s = true ↔ s.fitsMem s.srcAddr.toNat s.srcLen.toNat :=
  regionsFit_readOnly s s.srcRegion

/-- Settles O51: the checksum is `crc32_toNat`; the command is its region check, then the CRC register's write. -/
theorem crc32WritesChecksum : Obligations.Crc32WritesChecksum :=
  ⟨crc32_toNat, fun s => ⟨fun h => if_pos ((regionsOk_crc32 s).mpr h), fun h => if_neg (mt (regionsOk_crc32 s).mp h)⟩⟩

end Sys2Proof.Machine
end

section
/-! PROOFS. COMPRESS's errors, what a COMPRESS that succeeds leaves for a reader of its container, and that the container
depends on the payload, the type, the name and MAGIC alone (43_container.md R178, R180, R181). -/

namespace Sys2Proof.Machine

/-! ### A packing is determined by its bits -/

theorem byteBits_injective : Function.Injective byteBits := by
  intro b c h
  apply BitVec.eq_of_getLsbD_eq
  intro i hi
  have hbit := List.map_inj_left.mp h (7 - i) (List.mem_range.mpr (by omega))
  rwa [show 7 - (7 - i) = i by omega] at hbit

theorem unpackBits_injective : Function.Injective unpackBits := by
  intro as
  induction as with
  | nil =>
    intro bs h
    have hlen := congrArg List.length h
    rw [unpackBits_length, unpackBits_length] at hlen
    exact (List.length_eq_zero_iff.mp (by simpa using hlen.symm)).symm
  | cons a as ih =>
    intro bs h
    cases bs with
    | nil => simp [unpackBits_cons, byteBits] at h
    | cons b bs =>
      rw [unpackBits_cons, unpackBits_cons] at h
      obtain ⟨hbyte, hrest⟩ := List.append_inj h (by simp)
      rw [byteBits_injective hbyte, ih hrest]

/-- The packed bytes and the pad count follow from the bits (30_encoding.md R91). -/
theorem PackedAs.unique {as bs : List Byte} {bits : Bits} {m k : Nat} (h : PackedAs as bits m) (h' : PackedAs bs bits k) :
    as = bs ∧ m = k := by
  have hpad : m = k := h.padding.trans h'.padding.symm
  refine ⟨unpackBits_injective ?_, hpad⟩
  rw [h.stream, h'.stream, hpad]

/-! ### The errors -/

/-- The region check of COMPRESS, whatever TYPE is (43_container.md R178). -/
theorem compressReady_typ_zero (s : State) : compressReady { s with typ := 0 } ↔ regionsOk .compress s = true :=
  (compressReady_iff { s with typ := 0 }).trans ⟨And.left, fun h => ⟨h, .inl rfl⟩⟩

section
variable {s t : State} {p : List Byte} {tr : HTree} {bits : Bits}
  (hp : p = memRead s s.srcAddr.toNat s.srcLen.toNat) (htr : tr = buildTree (countBytes clearedFreq p))
  (hbits : bits = payloadBits (genCode tr) p)
include hp htr hbits

/-- COMPRESS past its precheck, without room for the container (43_container.md R180). -/
theorem execCompress_capacityError (hready : compressReady s)
    (hroom : s.dstCap.toNat < containerSize s.nameLen.toNat (treeSize tr) (ceil8 bits.length)) :
    exec .compress s = raiseError Op.compress .capacityError (compressTables p s) := by
  obtain ⟨hregions, htyp⟩ := (compressReady_iff s).mp hready
  rw [exec, execCompress, if_neg (by simp [hregions]), if_neg (by tauto)]
  simp only [← hp, ← htr, codeBitCount_eq, ← hbits]
  exact if_pos hroom

/-- COMPRESS completes only past its checks. -/
theorem execCompress_ok (h : exec .compress s = .next t) (hok : t.status.err = false) :
    compressReady s ∧ containerSize s.nameLen.toNat (treeSize tr) (ceil8 bits.length) ≤ s.dstCap.toNat := by
  rw [exec, execCompress] at h
  obtain ⟨hregions, h⟩ := check_passed h hok
  obtain ⟨htyp, h⟩ := check_passed h hok
  simp only [← hp, ← htr, codeBitCount_eq, ← hbits] at h
  obtain ⟨hroom, -⟩ := check_passed h hok
  exact ⟨(compressReady_iff s).mpr ⟨by simpa using hregions, by tauto⟩, Nat.not_lt.mp hroom⟩

end

/-- Settles O53: the region check and the type check come first, and `compressTables` is all that precedes the capacity
check. -/
theorem compressErrors : Obligations.CompressErrors := by
  intro s p tr hp htr
  rw [compressReady_typ_zero]
  refine ⟨fun hregions h0 h1 => ?_, fun hregions => ?_, fun hready hroom => ?_⟩
  · exact (if_neg (by simp [hregions])).trans (if_pos ⟨h0, h1⟩)
  · exact if_pos (by simpa using hregions)
  · refine ⟨_, execCompress_capacityError hp htr rfl hready hroom, ?_⟩
    rw [htr]
    rfl

/-! ### The container as its reader meets it -/

/-- What a COMPRESS of the payload `p` that succeeded leaves of use to a reader of its container: OUT_LEN the container's
length, and its bytes at DST_ADDR (43_container.md R178, R179). -/
structure Compressed (s t : State) (p : List Byte) (tr : HTree) (stream : List Byte) : Prop where
  payload : p = memRead s s.srcAddr.toNat s.srcLen.toNat
  tree : tr = buildTree (countBytes clearedFreq p)
  ready : compressReady s
  room : containerSize s.nameLen.toNat (treeSize tr) (ceil8 (payloadBits (genCode tr) p).length) ≤ s.dstCap.toNat
  outLen : t.outLen.toNat = containerSize s.nameLen.toNat (treeSize tr) (ceil8 (payloadBits (genCode tr) p).length)
  packed : PackedAs stream (payloadBits (genCode tr) p) t.pad.toNat
  bytes : memRead t s.dstAddr.toNat t.outLen.toNat = containerBytes s.params.magic.toList s.typ.toNat
    (memRead s s.nameAddr.toNat s.nameLen.toNat) [0x00, 0x01] p.length (crc32 p).toNat tr stream t.pad
  params : t.params = s.params

/-- SRC_LEN bounds the payload. -/
theorem Compressed.length_lt {s t : State} {p : List Byte} {tr : HTree} {stream : List Byte}
    (h : Compressed s t p tr stream) : p.length < 2 ^ 64 := by
  have hlen := s.srcLen.isLt
  rw [h.payload, memRead_length]
  omega

theorem execCompress_compressed {s t : State} {p : List Byte} {tr : HTree}
    (hp : p = memRead s s.srcAddr.toNat s.srcLen.toNat) (htr : tr = buildTree (countBytes clearedFreq p))
    (h : exec .compress s = .next t) (hok : t.status.err = false) : ∃ stream, Compressed s t p tr stream := by
  obtain ⟨hready, hroom⟩ := execCompress_ok hp htr rfl h hok
  obtain ⟨u, stream, hexec, hbytes, hpacked, -, hframe⟩ := compressWritesContainer.2 s p tr _ hp htr rfl hready hroom
  obtain rfl : t = u := by
    rw [h] at hexec
    cases hexec
    rfl
  have houtLen : t.outLen.toNat =
      containerSize s.nameLen.toNat (treeSize tr) (ceil8 (payloadBits (genCode tr) p).length) := by
    rw [hframe]
    exact Nat.mod_eq_of_lt (Nat.lt_of_le_of_lt hroom s.dstCap.isLt)
  exact ⟨stream, hp, htr, hready, hroom, houtLen, hpacked, by rw [houtLen]; exact hbytes, by rw [hframe]; rfl⟩

/-- Settles O54: OUT_LEN and the bytes are those of `Compressed`, whose bitstream and pad count follow from the payload. -/
theorem compressIsDeterministic : Obligations.CompressIsDeterministic := by
  intro s₁ s₂ t₁ t₂ hpayload hname htyp hmagic h₁ h₂ hok₁ hok₂
  obtain ⟨stream₁, hc₁⟩ := execCompress_compressed rfl rfl h₁ hok₁
  obtain ⟨stream₂, hc₂⟩ := execCompress_compressed hpayload rfl h₂ hok₂
  have hnameLen : s₁.nameLen.toNat = s₂.nameLen.toNat := by simpa using congrArg List.length hname
  obtain ⟨hstream, hpad⟩ := hc₁.packed.unique hc₂.packed
  refine ⟨BitVec.eq_of_toNat_eq ?_, ?_⟩
  · rw [hc₁.outLen, hc₂.outLen, hnameLen]
  · rw [hc₁.bytes, hc₂.bytes, hname, htyp, hmagic, hstream, BitVec.eq_of_toNat_eq hpad]

end Sys2Proof.Machine
end

section
/-! PROOFS. DECOMPRESS up to its tree (43_container.md R184 to R189, R193): its region check, its header and its tree, and
the errors before a tree is parsed. -/

namespace Sys2Proof.Machine

/-! ### The header -/

theorem takeBytes_eq_ok {s : State} {a n pos k : Nat} {e : ErrorCode} {bs : List Byte}
    (h : takeBytes s a n pos k e = .ok bs) : pos + k ≤ n := by
  by_contra hlt
  rw [takeBytes_error s e (Nat.not_le.mp hlt)] at h
  cases h

section
variable {s : State} {a n : Nat}

/-- The source is too short for MAGIC or holds another (43_container.md R186). -/
theorem readHeader_formatError (h : n < 4 ∨ memRead s a 4 ≠ s.params.magic.toList) :
    readHeader s a n = .error .formatError := by
  unfold readHeader
  by_cases hn : n < 4
  · rw [takeBytes_error s _ (by omega)]
  · rw [takeBytes_ok s _ (by omega)]
    exact if_pos (h.resolve_left hn)

section
variable (hmagic : memRead s a 4 = s.params.magic.toList)
include hmagic

/-- The source holds MAGIC and ends inside the header fields (43_container.md R187). -/
theorem readHeader_ioError (hlen : 4 ≤ n) (h : n < 10 ∨ n < 24 + beNat (memRead s (a + 8) 2)) :
    readHeader s a n = .error .ioError := by
  unfold readHeader
  rw [takeBytes_ok s _ (by omega)]
  simp only [Nat.add_zero, hmagic, Params.magicBytes, ne_eq, not_true_eq_false, if_false]
  iterate 2
    split
    · rename_i he
      rw [takeBytes_error_eq he]
  rename_i hl
  have h10 := takeBytes_eq_ok hl
  rw [takeBytes_ok s _ h10] at hl
  cases hl
  iterate 3
    split
    · rename_i he
      rw [takeBytes_error_eq he]
  split
  · rename_i he
    rw [takeBytes_error_eq he]
  · rename_i hcs
    have := takeBytes_eq_ok hcs
    omega

/-- The source holds MAGIC and all the header fields. -/
theorem readHeader_complete (hlen : 24 + beNat (memRead s (a + 8) 2) ≤ n) :
    ∃ h, readHeader s a n = .ok h ∧ h.nameLen = beNat (memRead s (a + 8) 2) := by
  unfold readHeader
  rw [takeBytes_ok s _ (by omega)]
  simp only [Nat.add_zero, hmagic, Params.magicBytes, ne_eq, not_true_eq_false, if_false]
  rw [takeBytes_ok s _ (by omega), takeBytes_ok s _ (by omega)]
  simp only [nameOffset]
  rw [takeBytes_ok s _ (by omega), takeBytes_ok s _ (by omega), takeBytes_ok s _ (by omega), takeBytes_ok s _ (by omega)]
  exact ⟨_, rfl, rfl⟩

end

/-- The tree length or the tree is cut short, or the tree's bytes are no tree's tokens (43_container.md R189). -/
theorem readTree_eq_none {pos : Nat} (h : n < pos + 4 ∨ n < pos + 4 + beNat (memRead s (a + pos) 4) ∨
    ∀ tr : HTree, tr.nodeCount ≤ maxNodes → memRead s (a + (pos + 4)) (beNat (memRead s (a + pos) 4)) ≠ ser tr) :
    readTree s a n pos = none := by
  unfold readTree
  by_cases hlen : n < pos + 4
  · rw [takeBytes_error s _ hlen]
  · rw [takeBytes_ok s _ (Nat.not_lt.mp hlen)]
    by_cases htree : n < pos + 4 + beNat (memRead s (a + pos) 4)
    · exact if_pos htree
    · simp only [parseTree_eq_none ((h.resolve_left hlen).resolve_left htree), if_neg htree]

/-! ### The command's branches -/

theorem regionsOk_decompress (s : State) : regionsOk .decompress s = true ↔ s.srcDstOk :=
  regionsFit_one s s.srcRegion s.dstRegion

theorem execDecompress_rangeError (h : ¬ s.srcDstOk) : exec .decompress s = raiseError Op.decompress .rangeError s :=
  if_pos (by simpa using mt (regionsOk_decompress s).mp h)

section
variable (hregions : s.srcDstOk)
include hregions

theorem execDecompress_headerError {e : ErrorCode} (h : readHeader s s.srcAddr.toNat s.srcLen.toNat = .error e) :
    exec .decompress s = raiseError Op.decompress e s := by
  simp only [exec, execDecompress, h]
  exact if_neg (by simp [(regionsOk_decompress s).mpr hregions])

variable {h : Header} (hheader : readHeader s s.srcAddr.toNat s.srcLen.toNat = .ok h)
include hheader

theorem execDecompress_corruptTree (htree : readTree s s.srcAddr.toNat s.srcLen.toNat (24 + h.nameLen) = none) :
    exec .decompress s = raiseError Op.decompress .corruptTree (s.setTree none) := by
  simp only [exec, execDecompress, hheader, htree]
  exact if_neg (by simp [(regionsOk_decompress s).mpr hregions])

theorem execDecompress_parsed {tr : HTree} {pos : Nat}
    (htree : readTree s s.srcAddr.toNat s.srcLen.toNat (24 + h.nameLen) = some (tr, pos)) :
    exec .decompress s = decompressPayload h tr s.srcAddr.toNat s.srcLen.toNat pos (s.setTree (some tr)) := by
  simp only [exec, execDecompress, hheader, htree]
  exact if_neg (by simp [(regionsOk_decompress s).mpr hregions])

end
end

/-- Settles O58: the checks in their order, each from the reading function that finds it. -/
theorem decompressHeaderErrors : Obligations.DecompressHeaderErrors := by
  refine ⟨⟨rfl, beNat_cons⟩, ?_⟩
  rintro s a n rfl rfl
  refine ⟨execDecompress_rangeError, fun hsrc hdst hapart => ⟨fun h => ?_, fun hlen hmagic h => ?_,
    fun l _ hmagic hl hlen h => ?_⟩⟩
  · exact execDecompress_headerError ⟨hsrc, hdst, hapart⟩ (readHeader_formatError h)
  · exact execDecompress_headerError ⟨hsrc, hdst, hapart⟩ (readHeader_ioError hmagic hlen h)
  · subst hl
    obtain ⟨hd, hheader, hname⟩ := readHeader_complete hmagic hlen
    refine ⟨_, execDecompress_corruptTree ⟨hsrc, hdst, hapart⟩ hheader ?_, rfl⟩
    rw [hname]
    generalize beNat (memRead s (s.srcAddr.toNat + 8) 2) = l at *
    rw [show 28 + l = 24 + l + 4 by omega] at h
    exact readTree_eq_none h

end Sys2Proof.Machine
end

section
/-! PROOFS. DECOMPRESS over a container (43_container.md R184, R185, R190 to R197): the header and the tree read, then each
end of its payload; and DECOMPRESS over what COMPRESS wrote. -/

namespace Sys2Proof.Machine

/-! ### A container's header and tree -/

/-- Where a container's bitstream starts (30_encoding.md R92). -/
def streamOffset (name : List Byte) (tr : HTree) : Nat := 28 + name.length + (ser tr).length

section
variable {s : State} {typ : Word} {name version : List Byte} {n : Nat} {checksum : Word} {tr : HTree} {post : List Byte}
  (hname : name.length < 2 ^ 16) (hver : version.length = 2) (hn : n < 2 ^ 64)
  (hbytes : memRead s s.srcAddr.toNat s.srcLen.toNat =
    containerHead s.params.magic.toList typ.toNat name version n checksum.toNat tr ++ post)
include hname hver hn hbytes

theorem readHeader_container :
    readHeader s s.srcAddr.toNat s.srcLen.toNat = .ok ⟨typ.toNat, name.length, n, checksum.toNat⟩ := by
  have hheader := readHeader_ok s s.srcAddr.toNat s.srcLen.toNat typ.toNat name version n checksum.toNat
    (bytesBE (ser tr).length 4 ++ (ser tr ++ post)) hname hver (by rw [hbytes]; simp [containerHead])
  rwa [Nat.mod_eq_of_lt typ.isLt, Nat.mod_eq_of_lt hn, Nat.mod_eq_of_lt checksum.isLt] at hheader

/-- DECOMPRESS goes on to the payload of a container whose header and tree are sound (43_container.md R185). -/
theorem execDecompress_container (hregions : s.srcDstOk) (hnodes : tr.nodeCount ≤ maxNodes) :
    exec .decompress s = decompressPayload ⟨typ.toNat, name.length, n, checksum.toNat⟩ tr.unweighted s.srcAddr.toNat
      s.srcLen.toNat (streamOffset name tr) (s.setTree (some tr.unweighted)) := by
  have htree := readTree_ok s s.srcAddr.toNat s.srcLen.toNat tr (s.params.magic.toList ++ bytesBE typ.toNat 4 ++
    bytesBE name.length 2 ++ name ++ version ++ bytesBE n 8 ++ bytesBE checksum.toNat 4) post hnodes
    (by rw [hbytes]; simp [containerHead])
  have hpos : (s.params.magic.toList ++ bytesBE typ.toNat 4 ++ bytesBE name.length 2 ++ name ++ version ++
      bytesBE n 8 ++ bytesBE checksum.toNat 4).length = 24 + name.length := by
    simp [hver]
    omega
  rw [hpos, show 24 + name.length + 4 + (ser tr).length = streamOffset name tr by unfold streamOffset; omega] at htree
  exact execDecompress_parsed hregions (readHeader_container hname hver hn hbytes) htree

end

/-- The length of a container's head with a MAGIC of four bytes and a version of two (30_encoding.md R92). -/
theorem containerHead_length_magic (magic : Vector Byte 4) (typ : Nat) (name : List Byte) {version : List Byte}
    (n checksum : Nat) (tr : HTree) (hver : version.length = 2) :
    (containerHead magic.toList typ name version n checksum tr).length = streamOffset name tr := by
  rw [containerHead_length, hver, treeSize, streamOffset, Vector.length_toList]
  omega

/-- Settles O57: no byte follows the tree, which is the first check of the payload. -/
theorem missingPayloadIsCorruptPayload : Obligations.MissingPayloadIsCorruptPayload := by
  intro s typ name version n checksum tr hsrc hdst hapart hname hver hn hnodes hbytes
  have hlen := congrArg List.length hbytes
  rw [memRead_length, containerHead_length_magic _ _ _ _ _ _ hver] at hlen
  rw [← List.append_nil (containerHead _ _ _ _ _ _ _)] at hbytes
  refine ⟨_, (execDecompress_container hname hver hn hbytes ⟨hsrc, hdst, hapart⟩ hnodes).trans (if_pos ?_), rfl, rfl, rfl⟩
  omega

/-! ### The payload of a container -/

/-- DECOMPRESS has walked the whole payload: `vs` at DST_ADDR and nothing else stored, TREE the parsed tree, and BR on the
bitstream, `rest` of it left (43_container.md R185, 40_bit_codec.md R112). -/
structure Decoded (s u : State) (name : List Byte) (tr : HTree) (stream vs : List Byte) (rest : Bits) : Prop where
  payload : memRead u s.dstAddr.toNat vs.length = vs
  outside : SameOutside s u s.dstAddr.toNat vs.length
  consumed : u.br.consumed + rest.length = 8 * stream.length
  frame : u = { s.setTree (some tr.unweighted) with mem := u.mem, br := {
    active := true, base := s.srcAddr + BitVec.ofNat 32 (streamOffset name tr), len := BitVec.ofNat 32 stream.length,
    pos := u.br.pos, bit := u.br.bit } }

section
variable {s : State} {typ : Word} {name version : List Byte} {n : Nat} {checksum : Word} {tr : HTree}
  {stream : List Byte} {pad : Byte} (hc : ContainerAt s typ name version n checksum tr stream pad)
include hc

theorem ContainerAt.srcDstOk : s.srcDstOk := ⟨hc.source, hc.dest, hc.disjoint⟩

theorem ContainerAt.length_eq : s.srcLen.toNat = streamOffset name tr + (stream.length + 1) := by
  have hlen := congrArg List.length hc.bytes
  rw [memRead_length, containerBytes, List.append_assoc, List.length_append,
    containerHead_length_magic _ _ _ _ _ _ hc.versionFits] at hlen
  simpa using hlen

theorem ContainerAt.exec_eq :
    exec .decompress s = decompressPayload ⟨typ.toNat, name.length, n, checksum.toNat⟩ tr.unweighted s.srcAddr.toNat
      s.srcLen.toNat (streamOffset name tr) (s.setTree (some tr.unweighted)) := by
  have hbytes := hc.bytes
  rw [containerBytes, List.append_assoc] at hbytes
  exact execDecompress_container hc.nameFits hc.versionFits hc.plenFits hbytes hc.srcDstOk hc.treeFits

/-- The name stands ten bytes into the container (30_encoding.md R92). -/
theorem ContainerAt.read_name : memRead s (s.srcAddr.toNat + 10) name.length = name := by
  have hname := memRead_part s s.srcAddr.toNat s.srcLen.toNat
    (s.params.magic.toList ++ bytesBE typ.toNat 4 ++ bytesBE name.length 2) name
    (version ++ (bytesBE n 8 ++ (bytesBE checksum.toNat 4 ++ (bytesBE (ser tr).length 4 ++ (ser tr ++
      (stream ++ [pad])))))) (by rw [hc.bytes]; simp [containerBytes, containerHead])
  simpa using hname

theorem ContainerAt.read_stream : memRead s (s.srcAddr.toNat + streamOffset name tr) stream.length = stream := by
  have hstream := memRead_part s s.srcAddr.toNat s.srcLen.toNat _ stream [pad]
    (hc.bytes.trans (List.append_assoc _ _ _))
  rwa [containerHead_length_magic _ _ _ _ _ _ hc.versionFits] at hstream

theorem ContainerAt.read_pad : s.readByte (s.srcAddr.toNat + (streamOffset name tr + stream.length)) = pad := by
  have hpad := memRead_part s s.srcAddr.toNat s.srcLen.toNat _ [pad] [] hc.bytes
  rw [List.length_append, containerHead_length_magic _ _ _ _ _ _ hc.versionFits] at hpad
  exact (List.cons.inj hpad).1

/-- The declared length exceeds DST_CAP (43_container.md R190). -/
theorem ContainerAt.exec_capacityError (hcap : s.dstCap.toNat < n) :
    exec .decompress s = raiseError Op.decompress .capacityError (s.setTree (some tr.unweighted)) := by
  have hlen := hc.length_eq
  rw [hc.exec_eq, decompressPayload, if_neg (by omega)]
  exact if_pos hcap

variable (hcap : n ≤ s.dstCap.toNat)
include hcap

/-- decode_into as DECOMPRESS calls it, by what the walks over the bitstream give (40_bit_codec.md R112, R113). -/
theorem ContainerAt.decodeInto_cases :
    (decodeInto tr.unweighted (s.srcAddr.toNat + streamOffset name tr) (s.srcLen.toNat - streamOffset name tr)
        s.dstAddr.toNat n (s.setTree (some tr.unweighted)) = none ∧
      tr.decodeBits n (unpackBits stream) = none) ∨
    ∃ vs rest u, decodeInto tr.unweighted (s.srcAddr.toNat + streamOffset name tr)
        (s.srcLen.toNat - streamOffset name tr) s.dstAddr.toNat n (s.setTree (some tr.unweighted)) = some (pad, u) ∧
      tr.decodeBits n (unpackBits stream) = some (vs, rest) ∧ vs.length = n ∧ Decoded s u name tr stream vs rest := by
  have hlen : s.srcLen.toNat - streamOffset name tr = stream.length + 1 := by
    rw [hc.length_eq]
    omega
  have hfit : s.fitsMem (s.srcAddr.toNat + streamOffset name tr) (stream.length + 1) := by
    have hsrc := hc.source
    rw [hc.length_eq] at hsrc
    unfold State.fitsMem at hsrc ⊢
    omega
  have hapart : apart (s.srcAddr.toNat + streamOffset name tr) (stream.length + 1) s.dstAddr.toNat n := by
    have hdisjoint := apart_shrink hc.disjoint hcap
    rw [hc.length_eq] at hdisjoint
    unfold apart at hdisjoint ⊢
    omega
  have hstream : memRead (s.setTree (some tr.unweighted)) (s.srcAddr.toNat + streamOffset name tr) stream.length =
      stream := (memRead_of_mem (by rfl) (by rfl) _ _).trans hc.read_stream
  have hpad : (s.setTree (some tr.unweighted)).readByte
      (s.srcAddr.toNat + streamOffset name tr + (stream.length + 1) - 1) = pad := by
    rw [show s.srcAddr.toNat + streamOffset name tr + (stream.length + 1) - 1 =
      s.srcAddr.toNat + (streamOffset name tr + stream.length) by omega]
    exact (State.readByte_congr (by rfl) (by rfl) _).trans hc.read_pad
  have hspec := decodeInto_spec tr.unweighted _ _ _ n (s.setTree (some tr.unweighted)) (Nat.le_add_left 1 _)
    (Nat.le_trans hfit s.params.memBytes_le) hapart
  rw [Nat.add_sub_cancel, hstream, hpad, HTree.decodeBits_unweighted] at hspec
  rw [hlen]
  refine hspec.imp_right ?_
  rintro ⟨vs, rest, u, hsome, hwalks, hvs, hstore, -, hconsumed, hframe⟩
  refine ⟨vs, rest, u, hsome, hwalks, hvs, ?_, ?_, hconsumed, ?_⟩
  · rw [memRead_of_mem hstore (by rw [hframe, memWrite_eq])]
    exact memRead_memWrite_same _ s.dstAddr.toNat vs
  · rw [hvs]
    exact decodeInto_outside (s := s.setTree (some tr.unweighted)) hsome (Nat.le_add_left 1 _) hfit hapart
  · rwa [BitVec.ofNat_add, BitVec.ofNat_toNat, BitVec.setWidth_eq] at hframe

/-- The bits run out (43_container.md R185, 40_bit_codec.md R113). -/
theorem ContainerAt.exec_unexpectedEnd (hwalks : tr.decodeBits n (unpackBits stream) = none) :
    exec .decompress s =
      raiseError Op.decompress .unexpectedEndOfData (freeDecoded (s.setTree (some tr.unweighted))) := by
  have hlen := hc.length_eq
  rcases hc.decodeInto_cases hcap with ⟨hnone, -⟩ | ⟨vs, rest, u, -, hsome, -⟩
  · rw [hc.exec_eq, decompressPayload, if_neg (by omega)]
    simp only [State.setTree_dstCap, State.setTree_dstAddr, if_neg (Nat.not_lt.mpr hcap), hnone]
  · rw [hwalks] at hsome
    cases hsome

/-- The payload decodes: the checksum is compared, then the type, and then the item is reported (43_container.md R190,
R191, R194). -/
theorem ContainerAt.exec_decoded {vs : List Byte} {rest : Bits}
    (hwalks : tr.decodeBits n (unpackBits stream) = some (vs, rest)) :
    ∃ u, vs.length = n ∧ Decoded s u name tr stream vs rest ∧ exec .decompress s =
      if crc32 vs ≠ checksum then
        raiseError Op.decompress .integrityError (freeDecoded (s.setTree (some tr.unweighted)))
      else if typ ≠ 0 ∧ typ ≠ 1 then
        raiseError Op.decompress .unknownType (freeDecoded (s.setTree (some tr.unweighted)))
      else complete Op.decompress (BitVec.ofNat 32 n)
        (reportItem ⟨typ.toNat, name.length, n, checksum.toNat⟩ s.srcAddr.toNat pad u) := by
  have hlen := hc.length_eq
  rcases hc.decodeInto_cases hcap with ⟨-, hnone⟩ | ⟨vs', rest', u, hsome, hwalks', hvs, hdec⟩
  · rw [hwalks] at hnone
    cases hnone
  · rw [hwalks] at hwalks'
    cases hwalks'
    refine ⟨u, hvs, hdec, ?_⟩
    have hpayload := hdec.payload
    rw [hvs] at hpayload
    have hzero : typ.toNat = 0 ↔ typ = 0 := BitVec.toNat_inj (y := 0)
    have hone : typ.toNat = 1 ↔ typ = 1 := BitVec.toNat_inj (y := 1)
    rw [hc.exec_eq, decompressPayload, if_neg (by omega)]
    simp only [State.setTree_dstCap, State.setTree_dstAddr, if_neg (Nat.not_lt.mpr hcap), hsome, hpayload]
    simp only [ne_eq, BitVec.toNat_inj, hzero, hone]

end

/-! ### The obligations on a container in the source -/

/-- An error raised once the tree is parsed, BR and the destination region being unspecified (43_container.md R193). -/
theorem parsedThen_of_freed {s : State} {tr : HTree} {e : ErrorCode} (h : exec .decompress s =
    raiseError Op.decompress e (freeDecoded (s.setTree (some tr.unweighted)))) :
    ∃ t, exec .decompress s = .next t ∧ parsedThen s t tr e ∧ SameOutside s t s.dstAddr.toNat s.dstCap.toNat :=
  ⟨_, h, rfl, freeDecoded_outside (s.setTree (some tr.unweighted))⟩

/-- Settles O56: each error is the branch of the payload that its condition takes. -/
theorem decompressPayloadErrors : Obligations.DecompressPayloadErrors := by
  intro s typ name version n checksum tr stream pad hc
  refine ⟨fun hcap => ⟨_, hc.exec_capacityError hcap, rfl, rfl, rfl⟩,
    fun hcap hwalks => parsedThen_of_freed (hc.exec_unexpectedEnd hcap hwalks), fun vs rest hcap hwalks => ?_⟩
  obtain ⟨u, -, -, hexec⟩ := hc.exec_decoded hcap hwalks
  exact ⟨fun hcrc => parsedThen_of_freed (hexec.trans (if_pos hcrc)),
    fun hcrc h0 h1 => parsedThen_of_freed (hexec.trans ((if_neg (not_not.mpr hcrc)).trans (if_pos ⟨h0, h1⟩)))⟩

/-- The report on a container whose fields are within their widths (43_container.md R188, R194). -/
theorem reportItem_eq (typ a checksum : Word) (l n : Nat) (pad : Byte) (s : State) :
    reportItem ⟨typ.toNat, l, n, checksum.toNat⟩ a.toNat pad s = { s with
      typ := typ, nameAddr := a + 10, nameLen := BitVec.ofNat 16 l, plenLo := BitVec.ofNat 32 n,
      plenHi := BitVec.ofNat 32 (n / 2 ^ 32), crc := checksum, pad := pad } := by
  simp only [reportItem, nameOffset, BitVec.ofNat_add, BitVec.ofNat_toNat, BitVec.setWidth_eq]
  rfl

/-- Settles O55: with the checksum and the type right the payload's last branch is taken, on the state `Decoded` describes. -/
theorem decompressRestoresPayload : Obligations.DecompressRestoresPayload := by
  intro s typ name version n tr stream pad vs rest hc htyp hcap hwalks
  obtain ⟨u, rfl, hdec, hexec⟩ := hc.exec_decoded hcap hwalks
  rw [if_neg (not_not.mpr rfl), if_neg (by tauto)] at hexec
  refine ⟨_, hexec, ?_, hdec.outside, hdec.consumed, ?_⟩
  · exact (memRead_of_mem (by rfl) (by rfl) _ _).trans hdec.payload
  · rw [reportItem_eq, hdec.frame]
    rfl

end Sys2Proof.Machine
end

section
/-! PROOFS. DECOMPRESS over what COMPRESS wrote (43_container.md R195, R196). -/

namespace Sys2Proof.Machine

/-- A successful DECOMPRESS leaves the name where it stands in the container (43_container.md R194). -/
theorem ContainerAt.read_name_after {s t : State} {typ : Word} {name version : List Byte} {n : Nat} {checksum : Word}
    {tr : HTree} {stream : List Byte} {pad : Byte} (hc : ContainerAt s typ name version n checksum tr stream pad)
    (hcap : n ≤ s.dstCap.toNat) (hout : SameOutside s t s.dstAddr.toNat n) :
    memRead t (s.srcAddr + 10).toNat name.length = name := by
  have hlen := hc.length_eq
  have hsrc := Nat.le_trans hc.source s.params.memBytes_le
  have hapart := apart_shrink hc.disjoint hcap
  unfold streamOffset at hlen
  unfold apart at hapart
  rw [show (s.srcAddr + 10).toNat = s.srcAddr.toNat + 10 by bv_omega]
  exact (memRead_congr fun x hlo hhi => hout x (by omega)).trans hc.read_name

section
variable {s t u : State} {p : List Byte} {tr : HTree} {stream : List Byte} (hc : Compressed s t p tr stream)
include hc

/-- The bitstream COMPRESS wrote decodes to the payload, the zero padding being left (43_container.md R195). -/
theorem Compressed.decodeBits_stream :
    tr.decodeBits p.length (unpackBits stream) = some (p, List.replicate t.pad.toNat false) := by
  rw [hc.packed.stream]
  exact decodeBits_ownCode hc.length_lt hc.tree _

/-- The container COMPRESS wrote, whatever checksum it now holds, as DECOMPRESS's source. -/
theorem Compressed.containerAt {checksum : Word} (hparams : u.params = s.params) (haddr : u.srcAddr = s.dstAddr)
    (hlen : u.srcLen = t.outLen) (hdst : u.fitsMem u.dstAddr.toNat u.dstCap.toNat)
    (hapart : apart u.srcAddr.toNat u.srcLen.toNat u.dstAddr.toNat u.dstCap.toNat)
    (hbytes : memRead u s.dstAddr.toNat t.outLen.toNat = containerBytes s.params.magic.toList s.typ.toNat
      (memRead s s.nameAddr.toNat s.nameLen.toNat) [0x00, 0x01] p.length checksum.toNat tr stream t.pad) :
    ContainerAt u s.typ (memRead s s.nameAddr.toNat s.nameLen.toNat) [0x00, 0x01] p.length checksum tr stream t.pad where
  source := by
    obtain ⟨-, -, hfit, -⟩ := hc.ready
    unfold State.fitsMem at hfit ⊢
    rw [hparams, haddr, hlen, hc.outLen]
    exact Nat.le_trans (Nat.add_le_add_left hc.room _) hfit
  dest := hdst
  disjoint := hapart
  nameFits := by
    rw [memRead_length]
    exact s.nameLen.isLt
  versionFits := rfl
  plenFits := hc.length_lt
  treeFits := by
    rw [hc.tree]
    exact buildTree_nodeCount _
  bytes := by rw [haddr, hlen, hbytes, hparams]

end

/-- Settles O59: the bytes COMPRESS wrote are a container whose bitstream decodes to the payload, which DECOMPRESS
restores. -/
theorem compressThenDecompressReturnsPayload : Obligations.CompressThenDecompressReturnsPayload := by
  intro s t u p hp hexec hok hu hdst hapart hcap
  obtain ⟨stream, hc⟩ := execCompress_compressed hp rfl hexec hok
  obtain ⟨-, -, -, -, -, htyp⟩ := hc.ready
  have hbytes := (memRead_of_mem (s := u) (t := t) (by rw [hu]) (by rw [hu]) _ _).trans hc.bytes
  have hat := hc.containerAt (u := u) (by rw [hu]; exact hc.params) (by rw [hu]) (by rw [hu]) hdst hapart hbytes
  obtain ⟨x, hdec, hpayload, hout, -, hframe⟩ :=
    decompressRestoresPayload _ _ _ _ _ _ _ _ _ _ hat htyp hcap hc.decodeBits_stream
  have hname := hat.read_name_after hcap hout
  rw [memRead_length] at hname
  have hplen := hc.length_lt
  refine ⟨x, hdec, by rw [hframe]; rfl, hpayload, by rw [hframe], ?_, ?_, ?_⟩
  · rw [hframe, memRead_length]
    exact (BitVec.ofNat_toNat ..).trans (BitVec.setWidth_eq _)
  · rw [show x.nameAddr = u.srcAddr + 10 by rw [hframe]]
    exact hname
  · rw [hframe]
    simp only [State.plen, BitVec.toNat_ofNat]
    omega

/-! ### A flipped bit of the stored checksum -/

/-- Writing over a part of a byte list that stands in MEM. -/
theorem memRead_memWrite_part (s : State) (a n : Nat) (pre mid new post : List Byte)
    (h : memRead s a n = pre ++ (mid ++ post)) (hnew : new.length = mid.length) :
    memRead (memWrite s (a + pre.length) new) a n = pre ++ (new ++ post) := by
  have hlen := congrArg List.length h
  simp only [memRead_length, List.length_append] at hlen
  subst hlen
  rw [memRead_append, memRead_append] at h
  obtain ⟨hpre, hrest⟩ := List.append_inj h (by simp)
  obtain ⟨-, hpost⟩ := List.append_inj hrest (by simp)
  rw [memRead_append, memRead_append, memRead_memWrite_apart s (.inl (Nat.le_refl _)), hpre, ← hnew,
    memRead_memWrite_same, memRead_memWrite_apart s (.inr (Nat.le_refl _)), hnew, hpost]

theorem xor_bit_ne (c : Word) (k : Fin 32) : c ≠ c ^^^ (1 <<< k.val) := by
  intro h
  have hbit := congrArg (·.getLsbD k.val) h
  have hone : (BitVec.ofNat 32 (1 <<< k.val)).getLsbD k.val = true := by
    rw [BitVec.getLsbD_ofNat, Nat.one_shiftLeft, Nat.testBit_two_pow_self, decide_eq_true k.isLt, Bool.and_self]
  simp [-BitVec.getLsbD_eq_getElem, hone] at hbit

/-- Overwriting the stored checksum of a container gives the container with the new one (30_encoding.md R92). -/
theorem memRead_memWrite_checksum {s : State} {a n typ len checksum : Nat} {magic : Vector Byte 4}
    {name version : List Byte} {tr : HTree} {stream : List Byte} {pad : Byte} (hver : version.length = 2)
    (h : memRead s a n = containerBytes magic.toList typ name version len checksum tr stream pad) (new : Nat) :
    memRead (memWrite s (a + 20 + name.length) (bytesBE new 4)) a n =
      containerBytes magic.toList typ name version len new tr stream pad := by
  have hpart := memRead_memWrite_part s a n
    (magic.toList ++ bytesBE typ 4 ++ bytesBE name.length 2 ++ name ++ version ++ bytesBE len 8) (bytesBE checksum 4)
    (bytesBE new 4) (bytesBE (ser tr).length 4 ++ (ser tr ++ (stream ++ [pad])))
    (by rw [h]; simp [containerBytes, containerHead]) (by simp)
  have hpos : (magic.toList ++ bytesBE typ 4 ++ bytesBE name.length 2 ++ name ++ version ++ bytesBE len 8).length =
      20 + name.length := by
    simp [hver]
    omega
  rw [hpos, ← Nat.add_assoc] at hpart
  rw [hpart]
  simp [containerBytes, containerHead]

/-- Settles O60: the container with the flipped checksum still decodes to the payload, whose checksum is another. -/
theorem checksumBitFlipIsDetected : Obligations.ChecksumBitFlipIsDetected := by
  rintro s t u k l rfl hexec hok hu hdst hapart hcap
  obtain ⟨stream, hc⟩ := execCompress_compressed rfl rfl hexec hok
  generalize hflip : crc32 (memRead s s.srcAddr.toNat s.srcLen.toNat) ^^^ (1 <<< k.val) = flipped at hu
  have hbytes := memRead_memWrite_checksum rfl hc.bytes flipped.toNat
  rw [memRead_length s s.nameAddr.toNat] at hbytes
  rw [memWrite_eq] at hu
  have hread := (memRead_of_mem (s := u) (by rw [hu]) (by rw [hu, memWrite_eq]) _ _).trans hbytes
  have hat := hc.containerAt (by rw [hu]; exact hc.params) (by rw [hu]) (by rw [hu]) hdst hapart hread
  obtain ⟨v, -, -, hdec⟩ := hat.exec_decoded (by rwa [memRead_length]) hc.decodeBits_stream
  rw [if_pos (by rw [← hflip]; exact xor_bit_ne _ k)] at hdec
  exact ⟨_, hdec, rfl, rfl⟩

end Sys2Proof.Machine
end

section
/-! PROOFS. Errors (60_exceptions.md R200 to R210): the two ends every command shares, STATUS after each, and the errors a
command raises, those of its precheck from the state as it is and the others later. -/

namespace Sys2Proof.Machine

/-! ### The two ends -/

/-- STATUS after `complete()`: DONE and LAST_OP (60_exceptions.md R205). -/
theorem statusWord_completed (s : State) (op : Byte) (k : Word) :
    statusWord (s.completed op k) = (op.setWidth 32 <<< 16) ||| 2 := by
  apply BitVec.eq_of_toNat_eq
  rw [statusWord_toNat, toNat_shiftLeft_or op 2 (by decide)]
  exact Nat.add_comm 2 _

/-- STATUS after `raise E`: DONE, ERR, ERR_CODE and LAST_OP (60_exceptions.md R206). -/
theorem statusWord_raised (s : State) (op : Byte) (e : ErrorCode) :
    statusWord (s.raised op e) = (op.setWidth 32 <<< 16) ||| (BitVec.ofNat 32 e.code.toNat <<< 8) ||| 6 := by
  have hlow : (BitVec.ofNat 32 e.code.toNat <<< 8 ||| 6 : Word).toNat = 6 + 2 ^ 8 * e.code.toNat := by cases e <;> rfl
  have hcode := e.code.isLt
  apply BitVec.eq_of_toNat_eq
  rw [statusWord_toNat, BitVec.or_assoc, toNat_shiftLeft_or op _ (by omega), hlow]
  exact Nat.add_comm (6 + _) _

/-- The table of R200 gives every error its code, and no other. -/
theorem mem_errorCodes_iff {e : ErrorCode} {n : Nat} : (e, n) ∈ errorCodes ↔ e.code.toNat = n := by
  cases e <;> simp [errorCodes, ErrorCode.code, eq_comm]

/-- Settles O20: the ends are `completed` and `raised`, STATUS is read off them, and the codes are those of the table. -/
theorem completionAndErrorEnds : Obligations.CompletionAndErrorEnds := by
  intro s op k e
  refine ⟨rfl, rfl, rfl, rfl, statusWord_completed s op k, fun n hn => ?_, e.code.toNat, ?_, ?_⟩
  · obtain rfl := mem_errorCodes_iff.mp hn
    exact ⟨statusWord_raised s op e, rfl⟩
  · cases e <;> decide
  · exact mem_errorCodes_iff.mpr rfl

/-! ### The errors of a command -/

/-- The errors of a command's precheck, ILLEGAL_COMMAND for an operand no command word carries (30_encoding.md R85). -/
def earlyError (i : Instr) (e : ErrorCode) : Bool := precheckError i e && (e != .illegalCommand || !i.wf)

/-- The errors a command raises past its precheck (40_bit_codec.md R107, R114, 42_tree_serializer.md R157,
43_container.md R178, R185). -/
def lateError : Instr → ErrorCode → Bool
  | .brGetBit, e => e == .exhausted
  | .decodePayload, e => e == .unexpectedEndOfData
  | .treeDeserialize, e => e == .corruptTree
  | .compress, e => e == .capacityError
  | .decompress, e =>
    e == .formatError || e == .ioError || e == .corruptTree || e == .corruptPayload || e == .capacityError ||
      e == .unexpectedEndOfData || e == .integrityError || e == .unknownType
  | .nop, _ | .bwInit, _ | .bwPutBit _, _ | .bwPutSymbol _, _ | .bwFinalize, _ | .brInit, _ | .encodePayload, _
  | .freqClear, _ | .freqCount, _ | .freqRead _, _ | .treeBuild, _ | .codeGen, _ | .codeRead _, _
  | .treeSerialize, _ | .crc32, _ => false

/-- No error is raised both by a command's precheck and past it. -/
theorem precheckError_of_lateError {i : Instr} {e : ErrorCode} (h : lateError i e = true) :
    precheckError i e = false := by
  cases i with
  | brGetBit | decodePayload | treeDeserialize | compress | decompress =>
    revert h
    cases e <;> decide
  | _ => cases h

/-- The answer of command `i` from `s`: it completes, or raises an error of its precheck from the state as it is, or raises
a later error. -/
inductive Answers (i : Instr) (s : State) : Result → Prop
  | completes {u : State} {k : Word} : Answers i s (complete i.opcode k u)
  | early {e : ErrorCode} (he : earlyError i e = true := by rfl) : Answers i s (raiseError i.opcode e s)
  | late {u : State} {e : ErrorCode} (he : lateError i e = true := by rfl) : Answers i s (raiseError i.opcode e u)

section
variable {i : Instr} {s u : State} {e : ErrorCode} {k : Word} {r : Result} {c : Prop} [Decidable c]

/-- One of the checks of a command's precheck. -/
theorem Answers.check (h : Answers i s r) (he : earlyError i e = true := by rfl) :
    Answers i s (if c then raiseError i.opcode e s else r) := by
  split
  · exact .early he
  · exact h

/-- A check past the precheck. -/
theorem Answers.lateCheck (h : Answers i s r) (he : lateError i e = true := by rfl) :
    Answers i s (if c then raiseError i.opcode e u else r) := by
  split
  · exact .late he
  · exact h

/-- A command that only checks its regions before it completes (20_memory.md R64). -/
theorem Answers.regionCheck (he : earlyError i .rangeError = true := by rfl) :
    Answers i s (if regionsOk i s then complete i.opcode k u else raiseError i.opcode .rangeError s) := by
  split
  · exact .completes
  · exact .early he

/-- An answer with an error is an error of the precheck, from the state as it was, or a later one. -/
theorem Answers.error {t : State} (h : Answers i s r) (hr : r = .next t) (herr : t.status.err = true) :
    earlyError i t.status.errCode = true ∧ t = s.raised i.opcode t.status.errCode ∨
      lateError i t.status.errCode = true := by
  cases h with
  | completes => cases hr; cases herr
  | early he => cases hr; exact .inl ⟨he, rfl⟩
  | late he => cases hr; exact .inr he

end

section
variable (s : State)

/-! ### The bit codec's commands -/

theorem execBwPutBit_answers (imm : Byte) : Answers (.bwPutBit imm) s (execBwPutBit imm s) := by
  unfold execBwPutBit
  split
  · rename_i himm
    exact .early (by simpa [earlyError, precheckError, Instr.wf, immIsBit] using himm)
  · exact .check <| .check <| .check .completes

theorem execBwPutSymbol_answers (v : Byte) : Answers (.bwPutSymbol v) s (execBwPutSymbol v s) :=
  .check <| .check <| .check <| .check <| .check .completes

theorem execBwFinalize_answers : Answers .bwFinalize s (execBwFinalize s) :=
  .check <| .check <| .check .completes

theorem execBrGetBit_answers : Answers .brGetBit s (execBrGetBit s) := by
  refine .check <| .check ?_
  split
  · exact .late
  · exact .completes

theorem execEncodePayload_answers : Answers .encodePayload s (execEncodePayload s) :=
  .check <| .check <| .check <| .check .completes

theorem execDecodePayload_answers : Answers .decodePayload s (execDecodePayload s) := by
  unfold execDecodePayload
  split
  · exact .early
  refine .check <| .check <| .check ?_
  split
  · exact .late
  · exact .completes

/-! ### The commands on TREE and CODE -/

theorem execCodeGen_answers : Answers .codeGen s (execCodeGen s) := by
  unfold execCodeGen
  split
  · exact .early
  · exact .completes

theorem execCodeRead_answers (v : Byte) : Answers (.codeRead v) s (execCodeRead v s) :=
  .check <| .check <| .check .completes

theorem execTreeSerialize_answers : Answers .treeSerialize s (execTreeSerialize s) := by
  unfold execTreeSerialize
  split
  · exact .early
  · exact .check <| .check .completes

theorem execTreeDeserialize_answers : Answers .treeDeserialize s (execTreeDeserialize s) := by
  refine .check ?_
  split
  · exact .late
  · exact .completes

/-! ### The container codec's commands -/

theorem execCompress_answers : Answers .compress s (execCompress s) :=
  .check <| .check <| .lateCheck .completes

theorem decompressPayload_answers {h : Header} {tree : HTree} {a n pos : Nat} {u : State} :
    Answers .decompress s (decompressPayload h tree a n pos u) := by
  refine .lateCheck <| .lateCheck ?_
  split
  · exact .late
  · exact .lateCheck <| .lateCheck .completes

theorem execDecompress_answers : Answers .decompress s (execDecompress s) := by
  refine .check ?_
  split
  · rename_i he
    exact .late (by rcases readHeader_error he with rfl | rfl <;> rfl)
  split
  · exact .late
  · exact decompressPayload_answers s

end

/-! ### All commands -/

/-- Every command's answer, from every state. -/
theorem exec_answers (i : Instr) (s : State) : Answers i s (exec i s) := by
  cases i with
  | nop | freqClear | freqRead _ | treeBuild => exact .completes
  | bwInit | brInit | freqCount | crc32 => exact .regionCheck
  | bwPutBit imm => exact execBwPutBit_answers s imm
  | bwPutSymbol v => exact execBwPutSymbol_answers s v
  | bwFinalize => exact execBwFinalize_answers s
  | brGetBit => exact execBrGetBit_answers s
  | encodePayload => exact execEncodePayload_answers s
  | decodePayload => exact execDecodePayload_answers s
  | codeGen => exact execCodeGen_answers s
  | codeRead v => exact execCodeRead_answers s v
  | treeSerialize => exact execTreeSerialize_answers s
  | treeDeserialize => exact execTreeDeserialize_answers s
  | compress => exact execCompress_answers s
  | decompress => exact execDecompress_answers s

/-! ### The table of R200 -/

/-- The errors of a command, early or late. -/
def mayRaise (i : Instr) (e : ErrorCode) : Bool := earlyError i e || lateError i e

/-- A command ends only in one of its errors. -/
theorem mayRaise_of_exec {i : Instr} {s t : State} (h : exec i s = .next t) (herr : t.status.err = true) :
    mayRaise i t.status.errCode = true :=
  (Bool.or_eq_true _ _).mpr (((exec_answers i s).error h herr).imp_left And.left)

section
variable {i : Instr}

theorem opcode_of_capacityError (h : mayRaise i .capacityError = true) :
    i.opcode ∈ [(0x11 : Byte), 0x12, 0x13, 0x16, 0x17, 0x25, 0x30, 0x41, 0x42] := by
  cases i with
  | bwPutBit _ | bwPutSymbol _ | bwFinalize | encodePayload | decodePayload | codeRead _ | treeSerialize | compress
  | decompress => exact of_decide_eq_true rfl
  | _ => cases h

theorem opcode_of_stateError (h : mayRaise i .stateError = true) :
    i.opcode ∈ [(0x11 : Byte), 0x12, 0x13, 0x15, 0x16, 0x17, 0x24, 0x25, 0x30] := by
  cases i with
  | bwPutBit _ | bwPutSymbol _ | bwFinalize | brGetBit | encodePayload | decodePayload | codeGen | codeRead _
  | treeSerialize => exact of_decide_eq_true rfl
  | _ => cases h

/-- Only a command that names a region raises RANGE_ERROR (20_memory.md R64). -/
theorem region_of_rangeError (s : State) (h : mayRaise i .rangeError = true) :
    (readRegions i s).length + (writeRegion i s).toList.length ≠ 0 := by
  cases i with
  | nop | freqClear | freqRead _ | treeBuild | codeGen => cases h
  | _ => exact Nat.succ_ne_zero _

/-- Only an operand no command word carries is illegal (30_encoding.md R85). -/
theorem wf_of_illegalCommand (h : mayRaise i .illegalCommand = true) : i.wf = false := by
  cases i with
  | bwPutBit _ => simpa [mayRaise, earlyError, precheckError, lateError] using h
  | _ => cases h

end

/-! ### The obligations on errors -/

/-- Settles O23: an error of the precheck is no later error, so it was raised from the state as it was. -/
theorem precheckErrorsLeaveNoTrace : Obligations.PrecheckErrorsLeaveNoTrace := by
  intro i s t h herr hpre
  rcases (exec_answers i s).error h herr with ⟨-, hraised⟩ | hlate
  · exact hraised
  · rw [precheckError_of_lateError hlate] at hpre
    cases hpre

/-- Settles O24: a command ends only in an error it may raise, and each of these is listed for it in R200. -/
theorem eachErrorOnlyWhereListed : Obligations.EachErrorOnlyWhereListed := by
  intro i s t h herr
  have hraises := mayRaise_of_exec h herr
  generalize t.status.errCode = e at hraises ⊢
  cases e with
  | capacityError => exact opcode_of_capacityError hraises
  | rangeError => exact region_of_rangeError s hraises
  | illegalCommand => exact wf_of_illegalCommand hraises
  | stateError => exact opcode_of_stateError hraises
  | noError => cases i <;> cases hraises
  | formatError | corruptTree | corruptPayload | unexpectedEndOfData | integrityError | unknownType | ioError
  | exhausted =>
    cases i <;> simp_all [mayRaise, earlyError, precheckError, lateError]

end Sys2Proof.Machine
end

section
/-! PROOFS. Reset and hazards (70_reset_and_hazards.md): which REG accesses are refused, the reset input, the build-time
parameters under every step, and how a command ends, disturbed by the host or not. -/

namespace Sys2Proof.Machine

/-! ### REG accesses outside the interface -/

/-- The offsets of the window (10_state.md R23). -/
theorem Reg.atOffset_eq_none_iff (offset : Nat) :
    Reg.atOffset offset = none ↔ ¬ (offset % 4 = 0 ∧ offset ≤ 0x7C) := by
  unfold Reg.atOffset
  split
  · split
    case h_23 =>
      split
      · simp only [reduceCtorEq, false_iff]
        omega
      · simp only [true_iff]
        omega
    all_goals
      simp only [reduceCtorEq, false_iff]
      omega
  · simp only [true_iff]
    omega

/-- An access reaches no register exactly when it is of no form R60 allows. -/
theorem Reg.reached_eq_none_iff (width offset : Nat) :
    Reg.reached width offset = none ↔ ¬ (width = 4 ∧ offset % 4 = 0 ∧ offset ≤ 0x7C) := by
  unfold Reg.reached
  split
  · rename_i hwidth
    rw [Reg.atOffset_eq_none_iff, and_iff_right hwidth]
  · rename_i hwidth
    exact iff_of_true rfl fun h => hwidth h.1

section
variable {s : State} {width offset : Nat} {v : Word} {rest : List Event}

theorem step_regWrite_refused (hr : Reg.reached width offset = none)
    (he : s.events = .regWrite width offset v :: rest) : step s = .refused (.regAccessForm width offset) := by
  simp only [step, he, takeEvent, hostRegWrite, hr]

theorem step_regRead_refused (hr : Reg.reached width offset = none)
    (he : s.events = .regRead width offset :: rest) : step s = .refused (.regAccessForm width offset) := by
  simp only [step, he, takeEvent, hostRegRead, hr]

end

/-- Settles O10: the two accesses are refused exactly where they reach no register; elsewhere the step of the access is
known, BUSY or IDLE. -/
theorem registerAccessFormRefused : Obligations.RegisterAccessFormRefused := by
  intro s width offset v rest
  refine ⟨fun hform => ?_, fun hform => ?_⟩
  · have hnone := (Reg.reached_eq_none_iff width offset).mpr hform
    exact ⟨step_regWrite_refused hnone, step_regRead_refused hnone⟩
  · obtain ⟨rfl, hoffset⟩ := hform
    obtain ⟨r, hr⟩ : ∃ r, Reg.atOffset offset = some r :=
      Option.ne_none_iff_exists'.mp fun hnone => (Reg.atOffset_eq_none_iff offset).mp hnone hoffset
    refine ⟨fun he => ?_, fun he => ?_⟩
    · rw [step_regWrite hr he]
      split <;> exact ⟨_, rfl⟩
    · rw [step_regRead hr he]
      split <;> exact ⟨_, rfl⟩

/-! ### The reset input -/

/-- The registers show of a state the reset input leaves what they show of the reset state. -/
theorem readReg_resetBlock (s : State) (r : Reg) : readReg (resetBlock s) r = readReg State.reset r := by
  cases r <;> rfl

/-- Settles O15: the step is `resetBlock`, which has the reset state's values in every field the claim names but the
parameters. -/
theorem resetInputGivesResetState : Obligations.ResetInputGivesResetState := by
  intro s rest he
  obtain ⟨hseq, hregs, hfreq, htree, hvalid, hbw, hbr⟩ := resetStateValues
  have hread (r : Reg) : readReg (resetBlock { s with events := rest }) r = if r = .version then 1 else 0 :=
    (readReg_resetBlock _ r).trans (hregs r)
  refine ⟨resetBlock { s with events := rest }, ?_, hseq, hread .status, hread, hfreq, htree, hvalid, hbw, hbr, rfl⟩
  rw [step, he]
  rfl

/-! ### The build-time parameters -/

theorem foldl_freeRegion_frame (regions : List Region) (s : State) :
    regions.foldl State.freeRegion s = { s with
      mem := (regions.foldl State.freeRegion s).mem, draws := (regions.foldl State.freeRegion s).draws } := by
  induction regions generalizing s with
  | nil => rfl
  | cons r regions ih => exact ih (s.freeRegion r)

theorem endDisturbed_params (regs : List Reg) (regions : List Region) (s : State) :
    (endDisturbed regs regions s).params = s.params := by
  rw [endDisturbed, foldl_freeRegion_frame]
  exact (foldl_freeReg_fields regs s).1

theorem Ends.params {op : Byte} {s t : State} (h : Ends op s (.next t)) : t.params = s.params := by
  obtain ⟨u, hu, ⟨k, rfl⟩ | ⟨e, -, rfl⟩⟩ := h.next rfl
  · exact hu.params
  · exact hu.params

theorem Moved.params {s t : State} (h : Moved s t) : t.params = s.params := by
  cases h with
  | quiet es sn d => rfl
  | argument es r v hr => exact (writeReg_kept _ v hr).params
  | started es w => rfl
  | stored es a b ha => rfl
  | reset es => rfl
  | ended es t ht =>
    rcases runCommand_cases ht with ⟨-, regs, regions, rfl⟩ | ⟨-, hends⟩
    · exact endDisturbed_params regs regions _
    · exact hends.params

/-- Settles O18: a step is one of the moves, and none of them changes the parameters. -/
theorem buildParametersFixed : Obligations.BuildParametersFixed := fun _ _ h => (step_moved h).params

/-! ### A command's end -/

/-- Settles O21: every command's answer is one of the two shared ends, after what the command kept. -/
theorem everyCommandEnds : Obligations.EveryCommandEnds := by
  intro i s
  have hends := exec_ends i s
  generalize exec i s = r at hends ⊢
  cases hends with
  | completes u k _ => exact ⟨u.completed i.opcode k, rfl, rfl, rfl, rfl, by simp, by simp⟩
  | raises u e _ he => exact ⟨u.raised i.opcode e, rfl, rfl, rfl, rfl, by simp [he], fun _ => rfl⟩

/-! ### What the free results of a disturbed command leave alone -/

theorem readReg_freeReg_other (s : State) {r q : Reg} (h : q ≠ r) : readReg (s.freeReg r) q = readReg s q := by
  have key : readReg (s.freeReg r) q = if q = r then readReg (s.freeReg r) r else readReg s q := by
    cases r with
    | nameAddr | nameLen | typ | plenLo | plenHi | crc | pad | resultLo | resultHi => cases q <;> rfl
    | _ => exact (if_neg h).symm
  rw [key, if_neg h]

theorem readReg_foldl_freeReg (regs : List Reg) (s : State) {q : Reg} (h : q ∉ regs) :
    readReg (regs.foldl State.freeReg s) q = readReg s q :=
  List.foldlRecOn regs State.freeReg (motive := fun t => readReg t q = readReg s q) rfl fun t ht _ hr =>
    (readReg_freeReg_other t (ne_of_mem_of_not_mem hr h).symm).trans ht

theorem State.readByte_freeReg (s : State) (r : Reg) (x : Nat) : (s.freeReg r).readByte x = s.readByte x := by
  cases r <;> rfl

theorem readByte_foldl_freeReg (regs : List Reg) (s : State) (x : Nat) :
    (regs.foldl State.freeReg s).readByte x = s.readByte x :=
  List.foldlRecOn regs State.freeReg (motive := fun t => t.readByte x = s.readByte x) rfl fun t ht r _ =>
    (t.readByte_freeReg r x).trans ht

theorem readByte_foldl_freeRegion (regions : List Region) (s : State) {x : Nat}
    (h : ∀ r ∈ regions, r.holds x = false) : (regions.foldl State.freeRegion s).readByte x = s.readByte x :=
  List.foldlRecOn regions State.freeRegion (motive := fun t => t.readByte x = s.readByte x) rfl fun t ht r hr =>
    (State.readByte_freeRegion_other t r (h r hr)).trans ht

theorem readByte_endDisturbed (regs : List Reg) {regions : List Region} (s : State) {x : Nat}
    (h : ∀ r ∈ regions, r.holds x = false) : (endDisturbed regs regions s).readByte x = s.readByte x :=
  (readByte_foldl_freeRegion regions _ h).trans (readByte_foldl_freeReg regs s x)

/-- CMD and the source and destination registers: the host's alone to write (10_state.md R24). -/
def hostRegs : List Reg := [.cmd, .srcAddr, .srcLen, .dstAddr, .dstCap]

/-- The registers some command writes as a result, OUT_LEN apart. -/
def reportRegs : List Reg := [.nameAddr, .nameLen, .typ, .plenLo, .plenHi, .crc, .pad, .resultLo, .resultHi]

theorem resultRegs_subset (i : Instr) : resultRegs i ⊆ reportRegs := by
  cases i with
  | bwFinalize | encodePayload | decodePayload | brGetBit | freqRead _ | codeRead _ | crc32 | compress | decompress =>
    simp [resultRegs, reportRegs]
  | _ => exact List.nil_subset _

theorem hostRegs_not_mem_resultRegs {q : Reg} (hq : q ∈ hostRegs) (i : Instr) : q ∉ resultRegs i := fun hmem =>
  (by decide : ∀ q ∈ hostRegs, q ∉ reportRegs) q hq (resultRegs_subset i hmem)

theorem readReg_endDisturbed {regs : List Reg} (regions : List Region) (s : State) {q : Reg}
    (hq : q ∈ hostRegs ++ reportRegs) (h : q ∉ regs) : readReg (endDisturbed regs regions s) q = readReg s q := by
  rw [← readReg_foldl_freeReg regs s h, endDisturbed, foldl_freeRegion_frame]
  cases q with
  | status | outLen | bwState | bwBytes | brState | brPos | treeState | version | reserved _ =>
    simp [hostRegs, reportRegs] at hq
  | _ => rfl

/-- A disturbed command ends, and reports that it is done (10_state.md R28). -/
theorem endDisturbed_ends (regs : List Reg) (regions : List Region) (s : State) :
    (endDisturbed regs regions s).seq = .idle ∧ (endDisturbed regs regions s).status.done = true ∧
      (endDisturbed regs regions s).disturbed = false := by
  rw [endDisturbed, foldl_freeRegion_frame]
  exact ⟨rfl, rfl, rfl⟩

/-- With no event left, the step of a disturbed command is its end. -/
theorem step_disturbed {s : State} {i : Instr} (hb : s.seq = .busy) (hd : s.disturbed = true)
    (hi : decode s.cmd = .ok i) (he : s.events = []) :
    step s = .next (endDisturbed (resultRegs i) (commandRegions i s) s) := by
  simp only [step, he, advance, State.busy_of_seq hb, if_true, runCommand, hi, hd]

/-- Settles O13: the step is `endDisturbed`, which frees the command's regions and result registers and leaves every
other byte, the host's registers and the other result registers alone. -/
theorem disturbedCommandEnds : Obligations.DisturbedCommandEnds := by
  intro s i hb hd hi he
  obtain ⟨hseq, hdone, hdisturbed⟩ := endDisturbed_ends (resultRegs i) (commandRegions i s) s
  have hhost {q : Reg} (hq : q ∈ hostRegs) :
      readReg (endDisturbed (resultRegs i) (commandRegions i s) s) q = readReg s q :=
    readReg_endDisturbed _ s (List.mem_append_left _ hq) (hostRegs_not_mem_resultRegs hq i)
  refine ⟨_, step_disturbed hb hd hi he, hseq, hdone, hdisturbed, fun x hreads hwrite => ?_,
    hhost (q := .cmd) (by decide), hhost (q := .srcAddr) (by decide), hhost (q := .srcLen) (by decide),
    hhost (q := .dstAddr) (by decide), hhost (q := .dstCap) (by decide),
    fun r hr hout => readReg_endDisturbed _ s (List.mem_append_right _ hr) hout⟩
  refine readByte_endDisturbed _ s fun r hr => ?_
  rcases List.mem_append.mp hr with hr | hr
  · exact hreads r hr
  · exact hwrite r (Option.mem_toList.mp hr)

end Sys2Proof.Machine
end
